-- ==== Sys2Proof/Word.lean ====
section
/-! DEFINITION. The words of the hardware: a byte (00_scope R12) and the 16-bit distance (10_state R22). -/

namespace Sys2Proof

/-- A byte, `u8` (R12). -/
abbrev Byte := BitVec 8

/-- A distance as `D.dist` holds it, 16 bits (R22). -/
abbrev Dist := BitVec 16

/-- One bit as a byte, `0` or `1`. -/
def Byte.ofBit (b : Bool) : Byte := if b then 1 else 0

end Sys2Proof
end

