-- ==== Sys2Proof/Config.lean ====
section
/-! DEFINITION. The construction parameters of a unit (00_scope R8-R11), and the one choice the spec leaves
free at every point of a run: which agent takes the next step (00_scope R7). -/

namespace Sys2Proof

/-- The configuration `(W, L)` of a unit, fixed when it is built (R8). Its legal range is part of the type: a
configuration outside `1..16` has no unit and so no state (R9, R305). -/
structure Params where
  W : Nat
  L : Nat
  hW : 1 ≤ W ∧ W ≤ 16
  hL : 1 ≤ L ∧ L ≤ 16
  deriving DecidableEq, Repr

/-- The construction of a configuration: refused outside the legal ranges (R305). -/
def Params.make? (W L : Nat) : Option Params :=
  if h : (1 ≤ W ∧ W ≤ 16) ∧ (1 ≤ L ∧ L ≤ 16) then some ⟨W, L, h.1, h.2⟩ else none

/-- `WSIZE = 2^W`, the window's capacity in bytes (R8, R10). -/
def Params.wsize (p : Params) : Nat := 2 ^ p.W

/-- `LSIZE = 2^L`, the lookahead's capacity and the longest match (R8, R10). -/
def Params.lsize (p : Params) : Nat := 2 ^ p.L

/-- `W = 4, L = 4`: what `State.reset` is built with. DESIGN CHOICE (log 1): unsafe, the spec takes `(W, L)` as
arguments and prefers none; no statement rests on it. -/
def Params.w4l4 : Params := ⟨4, 4, by decide, by decide⟩

/-- `W = 8, L = 4`: the smallest window whose back-references are REF16 (R96, log 7). -/
def Params.w8l4 : Params := ⟨8, 4, by decide, by decide⟩

/-- The agents: "Three agents take steps" (R7, R19). -/
inductive Agent where
  | encCore
  | decCore
  | host
  deriving DecidableEq, Repr, Inhabited

/-- A turn listed in State: one step of an agent, or `token`, an abbreviation for the turns of the decoder core and the
host that execute one token (log 6). -/
inductive Turn where
  | encCore
  | decCore
  | host
  | token
  deriving DecidableEq, Repr

/-- An agent's turn. -/
def Agent.turn : Agent → Turn
  | .encCore => .encCore
  | .decCore => .decCore
  | .host => .host

namespace Config

/-- FREE VALUE: the agent that takes the next step when State lists no turn. "At each point any enabled step of any agent may be taken"
(R7), so nothing is known of it. DESIGN CHOICE (log 3): safe. -/
opaque freeAgent : Nat → Agent

end Config

end Sys2Proof
end

