-- ==== Sys2Proof/Syntax.lean ====
section
/-! DEFINITION. The rows of the opcode table: the three tokens (30_encoding R103) and the twenty-three operations
(40 to 45), one constructor each; the host's actions; and the tokens as the source writes them (00_scope R3). -/

namespace Sys2Proof

/-- The two kinds of unit (R4). -/
inductive UnitId where
  | enc
  | dec
  deriving DecidableEq, Repr

/-- A token: "`Literal(byte: u8)`" or "`BackReference(distance: usize, length: usize)`" (R3). -/
inductive Token where
  | literal (b : Byte)
  | backRef (d n : Nat)
  deriving DecidableEq, Repr

/-- The instructions: one constructor per row of spec/opcode_table.json. -/
inductive Instr where
  /-- LIT b (R92, R236). -/
  | lit (b : Byte)
  /-- REF8 d, n: a back-reference with an 8-bit index field (R95, R237). -/
  | ref8 (d : BitVec 8) (n : Nat)
  /-- REF16 d, n: a back-reference with a 16-bit index field (R96, R238). -/
  | ref16 (d : Dist) (n : Nat)
  /-- READ_BIT (R122). -/
  | readBit
  /-- READ_BYTE (R123). -/
  | readByte
  /-- ADD_BIT bit (R141). -/
  | addBit (b : Bool)
  /-- ADD_BYTE v (R142). -/
  | addByte (v : Byte)
  /-- FLUSH_FINAL (R143). -/
  | flushFinal
  /-- WIN_PUSH v, on the window of the unit the caller names (R161). -/
  | winPush (u : UnitId) (v : Byte)
  /-- WIN_READ d, on the window of the unit the caller names (R162). -/
  | winRead (u : UnitId) (d : Dist)
  /-- LA_ENQ v (R168). -/
  | laEnq (v : Byte)
  /-- LA_POP (R169). -/
  | laPop
  /-- LA_PEEK i (R170). -/
  | laPeek (i : Nat)
  /-- ENC_DECIDE (R192). -/
  | encDecide
  /-- ENC_EMIT (R203). -/
  | encEmit
  /-- ENC_FLUSH (R204). -/
  | encFlush
  /-- DEC_TAG (R231). -/
  | decTag
  /-- DEC_LIT (R232). -/
  | decLit
  /-- DEC_DIST (R233). -/
  | decDist
  /-- DEC_LEN (R234). -/
  | decLen
  /-- DEC_COPY (R235). -/
  | decCopy
  /-- PUT(b) to the encoder unit (R274). -/
  | putEnc (b : Byte)
  /-- PUT(b) to the decoder unit (R275). -/
  | putDec (b : Byte)
  /-- EOF to either unit (R276). -/
  | eof (u : UnitId)
  /-- TAKE from either unit (R277). -/
  | take (u : UnitId)
  /-- RESET to either unit (R278). -/
  | reset (u : UnitId)
  deriving DecidableEq, Repr

/-- The host's actions (R273-R278). -/
inductive HostAct where
  | putEnc (b : Byte)
  | putDec (b : Byte)
  | eof (u : UnitId)
  | take (u : UnitId)
  | reset (u : UnitId)
  deriving DecidableEq, Repr

/-- The opcode-table row of a host action. -/
def HostAct.toInstr : HostAct → Instr
  | .putEnc b => .putEnc b
  | .putDec b => .putDec b
  | .eof u => .eof u
  | .take u => .take u
  | .reset u => .reset u

/-- Why bits are no instruction: the token is not there in full. Nothing else can be wrong, since "every bit string
parses" (R100). -/
inductive DecodeError where
  | truncated
  deriving DecidableEq, Repr

end Sys2Proof
end

