-- ==== Sys2Proof/WellFormed.lean ====
section
/-! DEFINITION. Which instructions exist on a pair of units (30_encoding R95, R96, R98; 42_window_lookahead R170). -/

namespace Sys2Proof

/-- The lengths a back-reference can carry: `1..2^L` (R98). -/
def lengthOk (p : Params) (n : Nat) : Bool := 1 ≤ n && n ≤ p.lsize

/-- The instruction exists on a system whose encoder unit has the configuration `pe` and whose decoder unit has
`pd`. REF8 is used when `W <= 7` (R95) and REF16 when `W >= 8` (R96), both with a length in `1..2^L` (R98); a queue
position lies in `0..LSIZE-1` (R170, and `count <= LSIZE` of R39). Every other operand is as wide as its type. -/
def Instr.wf (pe pd : Params) : Instr → Bool
  | .ref8 _ n => pd.W ≤ 7 && lengthOk pd n
  | .ref16 _ n => 8 ≤ pd.W && lengthOk pd n
  | .laPeek i => i < pe.lsize
  | .lit _ => true
  | .readBit => true
  | .readByte => true
  | .addBit _ => true
  | .addByte _ => true
  | .flushFinal => true
  | .winPush _ _ => true
  | .winRead _ _ => true
  | .laEnq _ => true
  | .laPop => true
  | .encDecide => true
  | .encEmit => true
  | .encFlush => true
  | .decTag => true
  | .decLit => true
  | .decDist => true
  | .decLen => true
  | .decCopy => true
  | .putEnc _ => true
  | .putDec _ => true
  | .eof _ => true
  | .take _ => true
  | .reset _ => true

end Sys2Proof
end

