-- ==== Sys2Proof/Decode.lean ====
section
/-! DEFINITION. The token encoding: bit strings, fields, the decoder, and after it the encoder (30_encoding).
The operations of the opcode table have no bit encoding (R103). -/

namespace Sys2Proof

/-- `bitsN(v)`: the `N`-bit string of `v`, most significant bit first (R14). -/
def bitsN : Nat → Nat → List Bool
  | 0, _ => []
  | k + 1, v => v.testBit k :: bitsN k v

/-- The number a bit string holds, most significant bit first (R13). -/
def ofBits (l : List Bool) : Nat := l.foldl (fun v b => 2 * v + b.toNat) 0

/-- The bits of one byte in stream order: bit 7 first (R13, R63). -/
def byteBits (b : Byte) : List Bool := bitsN 8 b.toNat

/-- The stream bits of a byte sequence: stream bit `q` is bit `7 - (q mod 8)` of byte `q div 8` (R13, R90). -/
def streamBits (bs : List Byte) : List Bool := bs.flatMap byteBits

/-- `pack`: the bit string in bytes, 8 bits at a time, the first bit becoming bit 7 (R105). -/
def pack (bits : List Bool) : List Byte :=
  (List.range (bits.length / 8)).map fun k => BitVec.ofNat 8 (ofBits ((bits.drop (8 * k)).take 8))

/-- A bit string padded with zeros to the next byte boundary, in bytes (R90, R105). -/
def packPadded (bits : List Bool) : List Byte :=
  pack (bits ++ List.replicate ((8 - bits.length % 8) % 8) false)

/-- `IW`: 16 when `2^W > 255`, that is `W >= 8`, else 8 (R94; 90_conflicts C2). -/
def Params.indexBits (p : Params) : Nat := if 255 < 2 ^ p.W then 16 else 8

/-- The length in bits of a token with this tag bit (R91, R103). -/
def tokenLength (p : Params) (tag : Bool) : Nat := if tag then 9 else 1 + p.indexBits + p.L

/-- The token at the front of a bit string, with the bits after it (R91-R97). -/
def decodeToken (p : Params) : List Bool → Except DecodeError (Token × List Bool)
  | [] => .error .truncated
  | true :: rest =>
    if rest.length < 8 then .error .truncated
    else .ok (.literal (BitVec.ofNat 8 (ofBits (rest.take 8))), rest.drop 8)
  | false :: rest =>
    if rest.length < p.indexBits + p.L then .error .truncated
    else
      let body := rest.drop p.indexBits
      .ok (.backRef (ofBits (rest.take p.indexBits)) (ofBits (body.take p.L) + 1), body.drop p.L)

/-- The opcode-table row of a token on a unit with this configuration (R103). -/
def Token.toInstr (p : Params) : Token → Instr
  | .literal b => .lit b
  | .backRef d n =>
    if p.indexBits = 8 then .ref8 (BitVec.ofNat 8 d) n else .ref16 (BitVec.ofNat 16 d) n

/-- The decoder: the instruction at the front of a bit string, with the bits after it. -/
def decodeBits (p : Params) (bits : List Bool) : Except DecodeError (Instr × List Bool) :=
  match decodeToken p bits with
  | .ok (t, rest) => .ok (t.toInstr p, rest)
  | .error e => .error e

/-- The decoder on bytes, from the first byte's bit 7. -/
def decodeBytes (p : Params) (bs : List Byte) : Except DecodeError (Instr × List Bool) :=
  decodeBits p (streamBits bs)

/-- How many bits of a table word are laid out: the five bytes that hold the longest token, 33 bits (R10). -/
def tableBits : Nat := 40

/-- The configuration a table row of this size is read under. A tag bit alone does not tell REF8 from REF16 (R103):
a row of more than two bytes can only be REF16's, which needs `W >= 8`. DESIGN CHOICE (log 7). -/
def tableParams (nbits : Nat) : Params := if nbits ≤ 16 then .w4l4 else .w8l4

/-- The stream bits of a table word. The table numbers a token's bits in stream order ("stream bit 0"), so bit `j` of
the word is stream bit `j`. DEDUCED (log 7). -/
def tableWordBits (w : Nat) : List Bool := (List.range tableBits).map w.testBit

/-- The table word as the hardware receives it: bytes on IN, first stream bit in bit 7 (R63, R90). -/
def tableWordBytes (w : Nat) : List Byte := pack (tableWordBits w)

/-- The instruction the decoder reads from a table word (log 7). -/
def decodeTableWord (nbits w : Nat) : Option Instr :=
  match decodeBytes (tableParams nbits) (tableWordBytes w) with
  | .ok (i, _) => some i
  | .error _ => none

/-- `enc(t)`, the bit string of a token (R105). -/
def encodeToken (p : Params) : Token → List Bool
  | .literal b => true :: byteBits b
  | .backRef d n => false :: (bitsN p.indexBits d ++ bitsN p.L (n - 1))

/-- The token an instruction is, if it is one. -/
def Instr.token? : Instr → Option Token
  | .lit b => some (.literal b)
  | .ref8 d n => some (.backRef d.toNat n)
  | .ref16 d n => some (.backRef d.toNat n)
  | .readBit => none
  | .readByte => none
  | .addBit _ => none
  | .addByte _ => none
  | .flushFinal => none
  | .winPush _ _ => none
  | .winRead _ _ => none
  | .laEnq _ => none
  | .laPop => none
  | .laPeek _ => none
  | .encDecide => none
  | .encEmit => none
  | .encFlush => none
  | .decTag => none
  | .decLit => none
  | .decDist => none
  | .decLen => none
  | .decCopy => none
  | .putEnc _ => none
  | .putDec _ => none
  | .eof _ => none
  | .take _ => none
  | .reset _ => none

/-- The encoder: the bits of a well-formed instruction. Operations have none (R103). -/
def encode (p : Params) (i : Instr) : Option (List Bool) := i.token?.map (encodeToken p)

/-- `stream(t_1 ; ... ; t_k)` (R105). -/
def encodeStream (p : Params) (ts : List Token) : List Byte := packPadded (ts.flatMap (encodeToken p))

end Sys2Proof
end

