-- ==== Sys2Proof/Machine/State.lean ====
section
/-! DEFINITION. The state of the machine as plain data: the encoder unit (10_state R21), the decoder unit (R22), the
host's side of the streams (00_scope R19) and the turns; its reset values (70_reset_and_hazards R330); and the
reasons a step can stop. -/

namespace Sys2Proof.Machine

/-- The storage of one ring: (slot, byte) pairs in canonical form, that is slots strictly rising and no entry equal
to what an unlisted slot reads as. -/
abbrev Memory := List Host.Cell

/-- What a slot that nothing has written reads as: `0x00`, the reset contents (R21, R330, R331). -/
def Memory.unlisted : Byte := 0x00

/-- The canonical form. -/
def Memory.wf : Memory → Bool
  | [] => true
  | [c] => c.2 != Memory.unlisted
  | c :: d :: rest => c.2 != Memory.unlisted && c.1 < d.1 && Memory.wf (d :: rest)

/-- `win.buf`, `win.head`, `win.count` of either unit (R21, R23). -/
structure Window where
  buf : Memory
  head : Nat
  count : Nat
  deriving DecidableEq, Repr

/-- `E.la.buf`, `E.la.rd`, `E.la.count` (R21, R30). -/
structure Queue where
  buf : Memory
  rd : Nat
  count : Nat
  deriving DecidableEq, Repr

/-- `E.bw.acc`, left-aligned, and `E.bw.n` (R21, R31). -/
structure Writer where
  acc : Byte
  n : Fin 8
  deriving DecidableEq, Repr

/-- `D.rd.*` (R22). `shifted` is `S` of R25, the raw bytes shifted out of slot0 since reset: an unbounded natural of
the model, not a register. -/
structure Reader where
  slot0 : Byte
  v0 : Bool
  slot1 : Byte
  v1 : Bool
  off : Fin 8
  shifted : Nat
  deriving DecidableEq, Repr

/-- `out.valid`, `out.data` of either unit (R35). -/
structure OutReg where
  valid : Bool
  data : Byte
  deriving DecidableEq, Repr

/-- Encoder phases (R24). -/
inductive EncPhase where
  | tokenStart
  | tokenEmit
  | done
  | fault
  deriving DecidableEq, Repr

/-- Decoder phases (R24). -/
inductive DecPhase where
  | tagBit
  | literalByte
  | refDistance
  | refLength
  | refEmit
  | done
  | fault
  deriving DecidableEq, Repr

/-- Fault causes. Code 3 is reserved, never raised, and left out as I10 allows (R302). -/
inductive Cause where
  | none
  | distRange
  | laUnderflow
  deriving DecidableEq, Repr

/-- The encoder unit (R21), its configuration (R28) and its input cursor `consumed_in` (R26). -/
structure EncUnit where
  params : Params
  win : Window
  la : Queue
  eof : Bool
  bw : Writer
  /-- `E.tok.bits` and `E.tok.n`: the bits not yet given to the writer, first to send first (R34, R40). -/
  tok : List Bool
  ph : EncPhase
  out : OutReg
  cause : Cause
  consumedIn : Nat
  deriving DecidableEq, Repr

/-- The decoder unit (R22) and its configuration (R28). -/
structure DecUnit where
  params : Params
  win : Window
  rd : Reader
  eof : Bool
  ph : DecPhase
  k : Bool
  dist : Dist
  lenv : Nat
  i : Nat
  rem : Nat
  out : OutReg
  cause : Cause
  deriving DecidableEq, Repr

/-- The host's side (R19, R284): the actions it is still to take, in order, and the bytes it has taken from each
unit, in order. -/
structure HostSide where
  pending : List HostAct
  encTaken : List Byte
  decTaken : List Byte
  deriving DecidableEq, Repr

/-- What an operation of the reader, a window or the queue returned to its caller (R15). -/
inductive OpResult where
  /-- nothing returned yet -/
  | nothing
  /-- `NONE` -/
  | none
  /-- `SOME bit` -/
  | bit (b : Bool)
  /-- a byte, or `SOME u8` -/
  | byte (v : Byte)
  deriving DecidableEq, Repr

/-- The machine. `sched` lists the turns already chosen, next first, and `tick` is the counter of the free value that
chooses once none is listed (log 3). `result` belongs to operations executed as instructions of their own (log 9). -/
structure State where
  enc : EncUnit
  dec : DecUnit
  host : HostSide
  sched : List Turn
  tick : Nat
  result : OpResult
  deriving DecidableEq, Repr

/-- Why the machine stops. The faults of the spec are not here: they are states of a unit (60_exceptions R301). -/
inductive Fault where
  /-- Raised by LA_PEEK at a position that does not exist, `i >= E.la.count` (R61: "Queue positions `0..count-1` are
  valid"). Safe: the machine stops (log 11). -/
  | queuePosition
  deriving DecidableEq, Repr

/-- Why an instruction has no meaning. -/
inductive Refusal where
  /-- Raised by an arm of exec whose instruction has no meaning yet. Safe. -/
  | notModelled (mnemonic : String)
  /-- Raised by REF8 and REF16 when the decoder unit's configuration has no such token: the other index
  width (R95, R96) or a length outside `1..2^L` (R98). Safe (log 12). -/
  | notInConfiguration
  deriving DecidableEq, Repr

/-- An empty window: slots `0x00`, `head = 0`, `count = 0` (R160, R330). -/
def Window.reset : Window := { buf := [], head := 0, count := 0 }

/-- An empty queue (R167, R330). -/
def Queue.reset : Queue := { buf := [], rd := 0, count := 0 }

/-- No pending bits (R330). -/
def Writer.reset : Writer := { acc := 0x00, n := 0 }

/-- Both slots empty, offset 0 (R120, R330), no byte shifted out (R25). -/
def Reader.reset : Reader := { slot0 := 0x00, v0 := false, slot1 := 0x00, v1 := false, off := 0, shifted := 0 }

/-- An empty output register (R330). -/
def OutReg.reset : OutReg := { valid := false, data := 0x00 }

/-- An encoder unit right after RESET or construction (R330, R332). -/
def EncUnit.reset (p : Params) : EncUnit :=
  { params := p, win := .reset, la := .reset, eof := false, bw := .reset, tok := [], ph := .tokenStart,
    out := .reset, cause := .none, consumedIn := 0 }

/-- A decoder unit right after RESET or construction (R330, R332). -/
def DecUnit.reset (p : Params) : DecUnit :=
  { params := p, win := .reset, rd := .reset, eof := false, ph := .tagBit, k := false, dist := 0, lenv := 0, i := 0,
    rem := 0, out := .reset, cause := .none }

/-- A host that has taken nothing and will do nothing. DESIGN CHOICE (log 4, log 13). -/
def HostSide.idle : HostSide := { pending := [], encTaken := [], decTaken := [] }

/-- A newly built system with these configurations (R281, R332). -/
def State.built (pe pd : Params) : State :=
  { enc := .reset pe, dec := .reset pd, host := .idle, sched := [], tick := 0, result := .nothing }

/-- Construction from numbers: no system where a parameter is out of range (R305). -/
def State.construct? (We Le Wd Ld : Nat) : Option State :=
  match Params.make? We Le, Params.make? Wd Ld with
  | some pe, some pd => some (.built pe pd)
  | _, _ => none

/-- The machine right after reset, both units built with `W = 4, L = 4` (log 1). -/
def State.reset : State := .built .w4l4 .w4l4

end Sys2Proof.Machine
end

