-- ==== Sys2Proof/Machine/Ops.lean ====
section
/-! DEFINITION. The shared operations: ring storage, window, lookahead queue, bit writer, bit reader, output
register, fault entry and the reset that is the only way back from a fault. Widths come in as `n`, the ring's
capacity. -/

namespace Sys2Proof.Machine

/-! ## What an operation inside a step can do (00_scope R15, R16) -/

/-- The end of an operation: it holds (the whole step then holds, R16), raises a fault with the writes made before it
kept (R301), or is done with a value. -/
inductive Res (σ α : Type) where
  | hold
  | raised (c : Cause) (s : σ)
  | done (a : α) (s : σ)
  deriving DecidableEq, Repr

/-- Go on after an operation, unless it held or raised. -/
def Res.bind {σ α β : Type} (r : Res σ α) (f : α → σ → Res σ β) : Res σ β :=
  match r with
  | .hold => .hold
  | .raised c s => .raised c s
  | .done a s => f a s

/-! ## Ring storage (R15: MemRead, MemWrite) -/

/-- `MemRead`: the byte in slot `a`. -/
def Memory.read : Memory → Nat → Byte
  | [], _ => Memory.unlisted
  | c :: rest, a => if a = c.1 then c.2 else Memory.read rest a

/-- `MemWrite`: put `v` in slot `a`, keeping the canonical form. -/
def Memory.write : Memory → Nat → Byte → Memory
  | [], a, v => if v = Memory.unlisted then [] else [(a, v)]
  | c :: rest, a, v =>
    if a < c.1 then (if v = Memory.unlisted then c :: rest else (a, v) :: c :: rest)
    else if a = c.1 then (if v = Memory.unlisted then rest else (a, v) :: rest)
    else c :: Memory.write rest a v

/-! ## Window (42_window_lookahead) -/

/-- WIN_PUSH (R161). -/
def Window.push (n : Nat) (w : Window) (v : Byte) : Window :=
  { buf := Memory.write w.buf w.head v, head := (w.head + 1) % n, count := min (w.count + 1) n }

/-- `slot(d) = (head - 1 - d) mod WSIZE` (R60), in naturals. -/
def Window.slot (n : Nat) (w : Window) (d : Nat) : Nat := (w.head + (n - 1 - d % n)) % n

/-- WIN_READ (R162): no byte where it raises `Fault(DIST_RANGE)`. -/
def Window.read (n : Nat) (w : Window) (d : Nat) : Option Byte :=
  if w.count ≤ d then none else some (Memory.read w.buf (w.slot n d))

/-- `hist`, the logical content, oldest first: position `q` is in slot `(head - count + q) mod WSIZE` (R23). -/
def Window.hist (n : Nat) (w : Window) : List Byte :=
  (List.range w.count).map fun q => Memory.read w.buf ((w.head + (n - w.count % n) + q) % n)

/-! ## Lookahead queue (42_window_lookahead) -/

/-- LA_ENQ (R168), for a queue that is not full. -/
def Queue.enq (n : Nat) (q : Queue) (v : Byte) : Queue :=
  { q with buf := Memory.write q.buf ((q.rd + q.count) % n) v, count := q.count + 1 }

/-- LA_POP (R169): nothing where it raises `Fault(LA_UNDERFLOW)`. -/
def Queue.pop (n : Nat) (q : Queue) : Option (Byte × Queue) :=
  if q.count = 0 then none
  else some (Memory.read q.buf q.rd, { q with rd := (q.rd + 1) % n, count := q.count - 1 })

/-- LA_PEEK (R170), for `i < count`. -/
def Queue.peek (n : Nat) (q : Queue) (i : Nat) : Byte := Memory.read q.buf ((q.rd + i) % n)

/-- `queue`, the logical content, oldest first (R30). -/
def Queue.content (n : Nat) (q : Queue) : List Byte := (List.range q.count).map (q.peek n)

/-! ## Bit-stream writer (41_bitwriter) -/

/-- ADD_BIT (R141): the writer after the bit, and the byte the bit completed, if it did. -/
def Writer.addBit (w : Writer) (b : Bool) : Writer × Option Byte :=
  let acc := w.acc ||| (Byte.ofBit b <<< (7 - w.n.val))
  if w.n = 7 then ({ acc := 0x00, n := 0 }, some acc) else ({ acc := acc, n := w.n + 1 }, none)

/-- ADD_BIT of several bits in order, and the bytes they completed, in order. -/
def Writer.addBits : Writer → List Bool → Writer × List Byte
  | w, [] => (w, [])
  | w, b :: bs =>
    let (w₁, e) := w.addBit b
    let (w₂, es) := Writer.addBits w₁ bs
    (w₂, e.toList ++ es)

/-- ADD_BYTE (R142): bits 7 down to 0 by ADD_BIT, which complete at most one byte. -/
def Writer.addByte (w : Writer) (v : Byte) : Writer × Option Byte :=
  let (w', es) := w.addBits (byteBits v)
  (w', es.head?)

/-- FLUSH_FINAL (R143): the padded byte, if any bit is pending. -/
def Writer.flush (w : Writer) : Writer × Option Byte :=
  if w.n = 0 then (w, none) else ({ acc := 0x00, n := 0 }, some w.acc)

/-- `pend`, the pending bits: `pend[j] = acc[7 - j]` (R31). -/
def Writer.pend (w : Writer) : List Bool := (List.range w.n.val).map fun j => w.acc.getLsbD (7 - j)

/-! ## Bit-stream reader (40_bitreader) -/

/-- Shift the lookahead one byte forward (R122, R123). -/
def Reader.shift (r : Reader) : Reader :=
  { r with slot0 := r.slot1, v0 := r.v1, slot1 := 0x00, v1 := false, shifted := r.shifted + 1 }

/-- READ_BIT (R122). `none` is NONE. -/
def Reader.readBit (eof : Bool) (r : Reader) : Res Reader (Option Bool) :=
  if r.v0 = false then (if eof then .done none r else .hold)
  else
    let bit := r.slot0.getLsbD (7 - r.off.val)
    if r.off = 7 then .done (some bit) { r.shift with off := 0 } else .done (some bit) { r with off := r.off + 1 }

/-- READ_BYTE (R123), with the zero fill of R124. -/
def Reader.readByte (eof : Bool) (r : Reader) : Res Reader (Option Byte) :=
  if r.v0 = false then (if eof then .done none r else .hold)
  else if r.off = 0 then .done (some r.slot0) r.shift
  else if r.v1 then .done (some ((r.slot0 <<< r.off.val) ||| (r.slot1 >>> (8 - r.off.val)))) r.shift
  else if eof then .done (some (r.slot0 <<< r.off.val)) r.shift
  else .hold

/-- The refill: slot0 if it is empty, else slot1 (R121, R275). -/
def Reader.put (r : Reader) (b : Byte) : Reader :=
  if r.v0 = false then { r with slot0 := b, v0 := true } else { r with slot1 := b, v1 := true }

/-- The bit cursor `pos = 8 x S + off` (R25). -/
def Reader.pos (r : Reader) : Nat := 8 * r.shifted + r.off.val

/-- The raw bytes the slots hold, first first (R126). -/
def Reader.held (r : Reader) : List Byte :=
  (if r.v0 then [r.slot0] else []) ++ (if r.v1 then [r.slot1] else [])

/-! ## Output register (45_host_interface) -/

/-- `emit(v)` (R273). -/
def OutReg.emit (_o : OutReg) (v : Byte) : OutReg := { valid := true, data := v }

/-- `emit` of a byte that an operation completed, if it did. -/
def OutReg.emit? (o : OutReg) : Option Byte → OutReg
  | some v => o.emit v
  | none => o

/-- The register after TAKE: empty, its data kept (R277). -/
def OutReg.taken (o : OutReg) : OutReg := { o with valid := false }

/-- What the register holds for the host. -/
def OutReg.held (o : OutReg) : List Byte := if o.valid then [o.data] else []

/-! ## Fault entry and the way back (60_exceptions R301, R309) -/

/-- The 2-bit code of a cause (R302). -/
def Cause.code : Cause → BitVec 2
  | .none => 0
  | .distRange => 1
  | .laUnderflow => 2

/-- `raise Fault(c)` in an encoder unit (R301). -/
def EncUnit.raise (c : Cause) (e : EncUnit) : EncUnit := { e with cause := c, ph := .fault }

/-- `raise Fault(c)` in a decoder unit (R301). -/
def DecUnit.raise (c : Cause) (d : DecUnit) : DecUnit := { d with cause := c, ph := .fault }

/-- Fault entry: "It sets `cause <- c` and `ph <- Fault`" and saves nothing (R301). -/
def State.raise (u : UnitId) (c : Cause) (s : State) : State :=
  match u with
  | .enc => { s with enc := s.enc.raise c }
  | .dec => { s with dec := s.dec.raise c }

/-- RESET, the return from a fault and from everything else (R309, R330): every element of the unit takes its reset
value, the configuration is kept (R8), and what the host has taken remains taken (R333). -/
def State.resetUnit (u : UnitId) (s : State) : State :=
  match u with
  | .enc => { s with enc := .reset s.enc.params }
  | .dec => { s with dec := .reset s.dec.params }

/-! ## A step's end -/

/-- The state after a step of the encoder unit: unchanged where the step held, in Fault where it raised. -/
def State.endEnc {α : Type} (s : State) (r : Res EncUnit α) : State :=
  match r with
  | .hold => s
  | .raised c e => ({ s with enc := e } : State).raise .enc c
  | .done _ e => { s with enc := e }

/-- The state after a step of the decoder unit. -/
def State.endDec {α : Type} (s : State) (r : Res DecUnit α) : State :=
  match r with
  | .hold => s
  | .raised c d => ({ s with dec := d } : State).raise .dec c
  | .done _ d => { s with dec := d }

end Sys2Proof.Machine
end

