-- ==== Sys2Proof/Machine/Operands.lean ====
section
/-! DEFINITION. The operand forms: which unit an instruction names, and the fields a token carries
(30_encoding R97, R98). -/

namespace Sys2Proof.Machine

/-- The configuration of a unit (R28). -/
def State.params (s : State) : UnitId → Params
  | .enc => s.enc.params
  | .dec => s.dec.params

/-- The window of the unit the caller names (42_window_lookahead, opening). -/
def State.window (s : State) : UnitId → Window
  | .enc => s.enc.win
  | .dec => s.dec.win

/-- That window written. -/
def State.setWindow (s : State) (u : UnitId) (w : Window) : State :=
  match u with
  | .enc => { s with enc := { s.enc with win := w } }
  | .dec => { s with dec := { s.dec with win := w } }

/-- The `eof` bit of a unit (R36). -/
def State.eofOf (s : State) : UnitId → Bool
  | .enc => s.enc.eof
  | .dec => s.dec.eof

/-- That bit set. -/
def State.setEof (s : State) : UnitId → State
  | .enc => { s with enc := { s.enc with eof := true } }
  | .dec => { s with dec := { s.dec with eof := true } }

/-- The output register of a unit (R35). -/
def State.outOf (s : State) : UnitId → OutReg
  | .enc => s.enc.out
  | .dec => s.dec.out

/-- The bytes the host has taken from a unit, in order. -/
def State.takenOf (s : State) : UnitId → List Byte
  | .enc => s.host.encTaken
  | .dec => s.host.decTaken

/-- TAKE's effect: the register's byte goes to the host and the register is empty, its data kept (R277). -/
def State.takeByte (s : State) : UnitId → State
  | .enc =>
    { s with enc := { s.enc with out := s.enc.out.taken },
             host := { s.host with encTaken := s.host.encTaken ++ [s.enc.out.data] } }
  | .dec =>
    { s with dec := { s.dec with out := s.dec.out.taken },
             host := { s.host with decTaken := s.host.decTaken ++ [s.dec.out.data] } }

/-- Every byte a unit has handed to the host or holds for it, in order: OUT as far as it has been produced (R62,
R284). -/
def State.output (s : State) (u : UnitId) : List Byte := s.takenOf u ++ (s.outOf u).held

/-- The distance operand of REF8: `d = zext_16(token bits 1..8)` (R97). -/
def ref8Distance (d : BitVec 8) : Dist := d.zeroExtend 16

/-- The length field of a length operand: it holds `n - 1` (R97). -/
def lengthField (n : Nat) : Nat := n - 1

end Sys2Proof.Machine
end

