-- ==== Sys2Proof/Machine/Flags.lean ====
section
/-! DEFINITION. The status outputs (10_state R27; 45_host_interface R270, R271) and the enabling conditions of steps
and host actions. The hardware has no arithmetic flags (R27). -/

namespace Sys2Proof.Machine

/-- The encoder is in neither terminal phase. -/
def EncUnit.running (e : EncUnit) : Bool := e.ph != .done && e.ph != .fault

/-- The decoder is in neither terminal phase. -/
def DecUnit.running (d : DecUnit) : Bool := d.ph != .done && d.ph != .fault

/-- `in_ready` of the encoder unit (R270). -/
def EncUnit.inReady (e : EncUnit) : Bool := !e.eof && e.la.count < e.params.lsize && e.running

/-- `in_ready` of the decoder unit (R271). -/
def DecUnit.inReady (d : DecUnit) : Bool := !d.eof && !d.rd.v1 && d.running

/-- `done` of the encoder unit (R27, R270). -/
def EncUnit.isDone (e : EncUnit) : Bool := e.ph == .done && !e.out.valid

/-- `done` of the decoder unit (R27, R271). -/
def DecUnit.isDone (d : DecUnit) : Bool := d.ph == .done && !d.out.valid

/-- `fault` of the encoder unit (R27, R270). -/
def EncUnit.isFault (e : EncUnit) : Bool := e.ph == .fault

/-- `fault` of the decoder unit (R27, R271). -/
def DecUnit.isFault (d : DecUnit) : Bool := d.ph == .fault

/-- What the host sees of a unit between actions (R284): the status outputs and the constants. -/
structure Status where
  inReady : Bool
  outValid : Bool
  outData : Byte
  done : Bool
  fault : Bool
  cause : BitVec 2
  params : Params
  deriving DecidableEq, Repr

/-- The ports of the encoder unit (R270). -/
def EncUnit.status (e : EncUnit) : Status :=
  { inReady := e.inReady, outValid := e.out.valid, outData := e.out.data, done := e.isDone, fault := e.isFault,
    cause := e.cause.code, params := e.params }

/-- The ports of the decoder unit (R271). -/
def DecUnit.status (d : DecUnit) : Status :=
  { inReady := d.inReady, outValid := d.out.valid, outData := d.out.data, done := d.isDone, fault := d.isFault,
    cause := d.cause.code, params := d.params }

/-- The ports of a unit. -/
def State.status (s : State) : UnitId → Status
  | .enc => s.enc.status
  | .dec => s.dec.status

/-- ENC_DECIDE is enabled: the queue is full, or the input is exhausted and the queue is not empty (R191, R192). -/
def EncUnit.decideEnabled (e : EncUnit) : Bool :=
  e.ph == .tokenStart && 0 < e.la.count && (e.la.count == e.params.lsize || e.eof)

/-- ENC_EMIT is enabled (R203). -/
def EncUnit.emitEnabled (e : EncUnit) : Bool := e.ph == .tokenEmit && !e.out.valid

/-- ENC_FLUSH is enabled (R204). -/
def EncUnit.flushEnabled (e : EncUnit) : Bool :=
  e.ph == .tokenStart && e.la.count == 0 && e.eof && !e.out.valid

/-- A host action is enabled (R272, R274-R278). -/
def State.allows (s : State) : HostAct → Bool
  | .putEnc _ => s.enc.inReady
  | .putDec _ => s.dec.inReady
  | .eof u => !s.eofOf u
  | .take u => (s.outOf u).valid
  | .reset _ => true

end Sys2Proof.Machine
end

