-- ==== Sys2Proof/Machine/Decoder.lean ====
section
/-! DEFINITION. The decoder's micro-steps: DEC_TAG, DEC_LIT, DEC_DIST, DEC_LEN, DEC_COPY (44_decoder). -/

namespace Sys2Proof.Machine

/-- A read inside a step of the decoder: a hold holds the step (R16), NONE ends it in `Done` and changes nothing else
(R246), and a value goes on to the rest of the step. -/
def DecUnit.reading {α : Type} (d : DecUnit) (r : Res Reader (Option α)) (f : α → DecUnit → Res DecUnit Unit) :
    Res DecUnit Unit :=
  match r with
  | .hold => .hold
  | .raised c rd => .raised c { d with rd := rd }
  | .done none rd => .done () { d with rd := rd, ph := .done }
  | .done (some a) rd => f a { d with rd := rd }

/-- `WIN_PUSH(v)` inside a step of the decoder (R161). -/
def DecUnit.winPush (d : DecUnit) (v : Byte) : DecUnit := { d with win := d.win.push d.params.wsize v }

/-- `WIN_PUSH(v) ; emit(v)`, the output of one byte (R232, R235). -/
def DecUnit.produce (d : DecUnit) (v : Byte) : DecUnit := { d.winPush v with out := d.out.emit v }

/-- DEC_TAG's body (R231). -/
def DecUnit.tag (d : DecUnit) : Res DecUnit Unit :=
  d.reading (d.rd.readBit d.eof) fun bit d =>
    if bit then .done () { d with ph := .literalByte }
    else .done () { d with dist := 0, k := false, ph := .refDistance }

/-- DEC_LIT's body (R232). -/
def DecUnit.literal (d : DecUnit) : Res DecUnit Unit :=
  d.reading (d.rd.readByte d.eof) fun v d => .done () { d.produce v with ph := .tagBit }

/-- DEC_DIST's body (R233). -/
def DecUnit.distance (d : DecUnit) : Res DecUnit Unit :=
  d.reading (d.rd.readByte d.eof) fun v d =>
    let d := { d with dist := (d.dist <<< 8) ||| v.zeroExtend 16 }
    if d.params.indexBits = 16 ∧ d.k = false then .done () { d with k := true }
    else .done () { d with lenv := 0, i := 0, ph := .refLength }

/-- The complete back-reference: the distance check (R240), then the copy's length (R234). -/
def DecUnit.complete (d : DecUnit) : Res DecUnit Unit :=
  if d.win.count ≤ d.dist.toNat then .raised .distRange d
  else .done () { d with rem := d.lenv + 1, ph := .refEmit }

/-- DEC_LEN's body (R234). The writes of `lenv` and `i` come before the check and remain after a fault (R301, PROG-4;
log 8). -/
def DecUnit.length (d : DecUnit) : Res DecUnit Unit :=
  d.reading (d.rd.readBit d.eof) fun bit d =>
    let d := { d with lenv := (d.lenv <<< 1) ||| bit.toNat, i := d.i + 1 }
    if d.i = d.params.L then d.complete else .done () d

/-- One byte of a copy (R235): read, push at once, emit, count down. -/
def DecUnit.copyByte (d : DecUnit) : Res DecUnit Unit :=
  match d.win.read d.params.wsize d.dist.toNat with
  | none => .raised .distRange d
  | some v => .done () { d.produce v with rem := d.rem - 1 }

/-- DEC_COPY's body (R235). -/
def DecUnit.copy (d : DecUnit) : Res DecUnit Unit :=
  d.copyByte.bind fun _ d => .done () (if d.rem = 0 then { d with ph := .tagBit } else d)

/-- DEC_TAG (R231). -/
def execDecTag (s : State) : Host.Outcome State Fault Refusal :=
  .next (s.endDec (if s.dec.ph = .tagBit then s.dec.tag else .hold))

/-- DEC_LIT (R232). -/
def execDecLit (s : State) : Host.Outcome State Fault Refusal :=
  .next (s.endDec (if s.dec.ph = .literalByte ∧ s.dec.out.valid = false then s.dec.literal else .hold))

/-- DEC_DIST (R233). -/
def execDecDist (s : State) : Host.Outcome State Fault Refusal :=
  .next (s.endDec (if s.dec.ph = .refDistance then s.dec.distance else .hold))

/-- DEC_LEN (R234). -/
def execDecLen (s : State) : Host.Outcome State Fault Refusal :=
  .next (s.endDec (if s.dec.ph = .refLength then s.dec.length else .hold))

/-- DEC_COPY (R235). -/
def execDecCopy (s : State) : Host.Outcome State Fault Refusal :=
  .next (s.endDec (if s.dec.ph = .refEmit ∧ s.dec.out.valid = false then s.dec.copy else .hold))

end Sys2Proof.Machine
end

