-- ==== Sys2Proof/Machine/Search.lean ====
section
/-! DEFINITION. The greedy match search (43_encoder R193-R199). -/

namespace Sys2Proof.Machine

/-- How many leading bytes two lists share. -/
def commonLength : List Byte → List Byte → Nat
  | a :: as, b :: bs => if a = b then commonLength as bs + 1 else 0
  | [], _ => 0
  | _ :: _, [] => 0

/-- `MATCH_LEN(h, p, T)` (R195): `S = h[p..] ++ T` against `T`, the first byte taken as equal. -/
def matchLen (h : List Byte) (p : Nat) (T : List Byte) : Nat :=
  1 + commonLength ((h.drop p ++ T).drop 1) (T.drop 1)

/-- `MIN_MATCH - 1`: the length a match must exceed to register (R196). -/
def matchThreshold : Nat := 2

/-- One candidate position against the best so far: only strict improvement replaces it (R194, R196, R197). -/
def matchStep (h : List Byte) (lit : Byte) (T : List Byte) (best : Nat × Option Nat) (p : Nat) : Nat × Option Nat :=
  if h[p]? = some lit then
    let m := matchLen h p T
    if best.1 < m then (m, some p) else best
  else best

/-- `MATCH(h, lit, q)` (R197), with the distance of R198. -/
def matchToken (h : List Byte) (lit : Byte) (q : List Byte) : Token :=
  match (List.range h.length).foldl (matchStep h lit (lit :: q)) (matchThreshold, none) with
  | (_, none) => .literal lit
  | (m, some p) => .backRef (h.length - 1 - p) m

end Sys2Proof.Machine
end

