-- ==== Sys2Proof/Machine/Writer.lean ====
section
/-! DEFINITION. The bit-stream writer's operations as instructions: ADD_BIT, ADD_BYTE, FLUSH_FINAL (41_bitwriter).
Each calls `emit` and so holds while the output register is full (00_scope R15; log 10). -/

namespace Sys2Proof.Machine

/-- The encoder unit after a writer operation: the writer as it left it, and the byte it completed emitted. -/
def EncUnit.endWrite (e : EncUnit) (r : Writer × Option Byte) : EncUnit :=
  { e with bw := r.1, out := e.out.emit? r.2 }

/-- A writer operation as an instruction: enabled only while `E.out.valid = 0` (R35). -/
def State.writeOp (s : State) (r : Writer × Option Byte) : State :=
  if s.enc.out.valid then s else { s with enc := s.enc.endWrite r }

/-- ADD_BIT (R141). -/
def execAddBit (b : Bool) (s : State) : Host.Outcome State Fault Refusal := .next (s.writeOp (s.enc.bw.addBit b))

/-- ADD_BYTE (R142). -/
def execAddByte (v : Byte) (s : State) : Host.Outcome State Fault Refusal := .next (s.writeOp (s.enc.bw.addByte v))

/-- FLUSH_FINAL (R143). -/
def execFlushFinal (s : State) : Host.Outcome State Fault Refusal := .next (s.writeOp s.enc.bw.flush)

end Sys2Proof.Machine
end

