-- ==== Sys2Proof/Machine/Encoder.lean ====
section
/-! DEFINITION. The encoder's micro-steps: ENC_DECIDE, ENC_EMIT, ENC_FLUSH (43_encoder). -/

namespace Sys2Proof.Machine

/-- `LA_POP()` inside a step of the encoder (R169). -/
def EncUnit.laPop (e : EncUnit) : Res EncUnit Byte :=
  match e.la.pop e.params.lsize with
  | none => .raised .laUnderflow e
  | some (v, la) => .done v { e with la := la }

/-- `WIN_PUSH(v)` inside a step of the encoder (R161). -/
def EncUnit.winPush (e : EncUnit) (v : Byte) : EncUnit := { e with win := e.win.push e.params.wsize v }

/-- `repeat k times: WIN_PUSH(LA_POP())` (R192, R201). -/
def EncUnit.popPush : Nat → EncUnit → Res EncUnit Unit
  | 0, e => .done () e
  | k + 1, e => e.laPop.bind fun v e' => EncUnit.popPush k (e'.winPush v)

/-- The token's bits loaded, and the phase (R192, R202). -/
def EncUnit.loadToken (e : EncUnit) (t : Token) : EncUnit :=
  { e with tok := encodeToken e.params t, ph := .tokenEmit }

/-- How many bytes a token commits beyond its first (R200, R201). -/
def extraBytes : Token → Nat
  | .literal _ => 0
  | .backRef _ n => n - 1

/-- ENC_DECIDE's body (R192): the search sees the window before any push and the queue after the first pop (R341). -/
def EncUnit.decide (e : EncUnit) : Res EncUnit Unit :=
  let h := e.win.hist e.params.wsize
  e.laPop.bind fun lit e₁ =>
    let t := matchToken h lit (e₁.la.content e.params.lsize)
    (EncUnit.popPush (extraBytes t) (e₁.winPush lit)).bind fun _ e₂ => .done () (e₂.loadToken t)

/-- ENC_EMIT's body (R203): the first bit of `E.tok` goes to the writer. -/
def EncUnit.emitBit (e : EncUnit) : EncUnit :=
  match e.tok with
  | [] => e
  | b :: rest =>
    let e' := ({ e with tok := rest } : EncUnit).endWrite (e.bw.addBit b)
    if rest = [] then { e' with ph := .tokenStart } else e'

/-- ENC_FLUSH's body (R204). -/
def EncUnit.flush (e : EncUnit) : EncUnit := { e.endWrite e.bw.flush with ph := .done }

/-- ENC_DECIDE (R192): holds where it is not enabled (R191). -/
def execEncDecide (s : State) : Host.Outcome State Fault Refusal :=
  .next (s.endEnc (if s.enc.decideEnabled then s.enc.decide else .hold))

/-- ENC_EMIT (R203): holds until the host's TAKE while the output register is full. -/
def execEncEmit (s : State) : Host.Outcome State Fault Refusal :=
  .next (if s.enc.emitEnabled then { s with enc := s.enc.emitBit } else s)

/-- ENC_FLUSH (R204). -/
def execEncFlush (s : State) : Host.Outcome State Fault Refusal :=
  .next (if s.enc.flushEnabled then { s with enc := s.enc.flush } else s)

end Sys2Proof.Machine
end

