-- ==== Sys2Proof/Machine/HostActions.lean ====
section
/-! DEFINITION. The host's actions: PUT to either unit, EOF, TAKE, RESET (45_host_interface). An action that is not
enabled waits (R7, R272). -/

namespace Sys2Proof.Machine

/-- PUT(b) to the encoder unit: LA_ENQ, and the input cursor rises by one (R274, R26). -/
def EncUnit.put (e : EncUnit) (b : Byte) : EncUnit :=
  { e with la := e.la.enq e.params.lsize b, consumedIn := e.consumedIn + 1 }

/-- PUT(b) to the decoder unit (R275). -/
def DecUnit.put (d : DecUnit) (b : Byte) : DecUnit := { d with rd := d.rd.put b }

/-- PUT to an encoder unit (R274). -/
def execPutEnc (b : Byte) (s : State) : Host.Outcome State Fault Refusal :=
  .next (if s.enc.inReady then { s with enc := s.enc.put b } else s)

/-- PUT to a decoder unit (R275). -/
def execPutDec (b : Byte) (s : State) : Host.Outcome State Fault Refusal :=
  .next (if s.dec.inReady then { s with dec := s.dec.put b } else s)

/-- EOF (R276): enabled when `eof = 0`. -/
def execEof (u : UnitId) (s : State) : Host.Outcome State Fault Refusal :=
  .next (if s.eofOf u then s else s.setEof u)

/-- TAKE (R277): enabled when `out.valid = 1`. -/
def execTake (u : UnitId) (s : State) : Host.Outcome State Fault Refusal :=
  .next (if (s.outOf u).valid then s.takeByte u else s)

/-- RESET (R278, R330): always enabled. -/
def execReset (u : UnitId) (s : State) : Host.Outcome State Fault Refusal := .next (s.resetUnit u)

end Sys2Proof.Machine
end

