-- ==== Sys2Proof/Machine/Reader.lean ====
section
/-! DEFINITION. The bit-stream reader's operations as instructions: READ_BIT, READ_BYTE (40_bitreader). What they
return stands in `result` (log 9). -/

namespace Sys2Proof.Machine

/-- `Option bit` as a returned value. -/
def resultOfBit : Option Bool → OpResult
  | none => .none
  | some b => .bit b

/-- `Option u8` as a returned value. -/
def resultOfByte : Option Byte → OpResult
  | none => .none
  | some v => .byte v

/-- The state after a reader operation executed as an instruction; `f` says what it returned. -/
def State.endRead {α : Type} (s : State) (f : α → OpResult) (r : Res Reader α) : State :=
  match r with
  | .hold => s
  | .raised c rd => ({ s with dec := { s.dec with rd := rd } } : State).raise .dec c
  | .done a rd => { s with dec := { s.dec with rd := rd }, result := f a }

/-- READ_BIT (R122). -/
def execReadBit (s : State) : Host.Outcome State Fault Refusal :=
  .next (s.endRead resultOfBit (s.dec.rd.readBit s.dec.eof))

/-- READ_BYTE (R123, R124). -/
def execReadByte (s : State) : Host.Outcome State Fault Refusal :=
  .next (s.endRead resultOfByte (s.dec.rd.readByte s.dec.eof))

end Sys2Proof.Machine
end

