-- ==== Sys2Proof/Machine/Storage.lean ====
section
/-! DEFINITION. The window's and the lookahead queue's operations as instructions: WIN_PUSH, WIN_READ, LA_ENQ, LA_POP,
LA_PEEK (42_window_lookahead). What they return stands in `result` (log 9). -/

namespace Sys2Proof.Machine

/-- WIN_PUSH (R161). -/
def execWinPush (u : UnitId) (v : Byte) (s : State) : Host.Outcome State Fault Refusal :=
  .next (s.setWindow u ((s.window u).push (s.params u).wsize v))

/-- WIN_READ (R162): `Fault(DIST_RANGE)` of the unit whose window it is when `d >= win.count`. -/
def execWinRead (u : UnitId) (d : Dist) (s : State) : Host.Outcome State Fault Refusal :=
  match (s.window u).read (s.params u).wsize d.toNat with
  | none => .next (s.raise u .distRange)
  | some v => .next { s with result := .byte v }

/-- LA_ENQ (R168): "A full queue holds the host" (log 10). -/
def execLaEnq (v : Byte) (s : State) : Host.Outcome State Fault Refusal :=
  if s.enc.la.count < s.enc.params.lsize then
    .next { s with enc := { s.enc with la := s.enc.la.enq s.enc.params.lsize v } }
  else .next s

/-- LA_POP (R169): `Fault(LA_UNDERFLOW)` on an empty queue. -/
def execLaPop (s : State) : Host.Outcome State Fault Refusal :=
  match s.enc.la.pop s.enc.params.lsize with
  | none => .next (s.raise .enc .laUnderflow)
  | some (v, la) => .next { s with enc := { s.enc with la := la }, result := .byte v }

/-- LA_PEEK (R170): a position that does not exist stops the machine (log 11). -/
def execLaPeek (i : Nat) (s : State) : Host.Outcome State Fault Refusal :=
  if i < s.enc.la.count then .next { s with result := .byte (s.enc.la.peek s.enc.params.lsize i) }
  else .fault .queuePosition

end Sys2Proof.Machine
end

