-- ==== Sys2Proof/Machine/Tokens.lean ====
section
/-! DEFINITION. The tokens as instructions of the decoder (44_decoder R236-R238): the effect of a whole token whose
bits have been read. An output waits for room in the output register, which only a TAKE of the host's own list makes
(45_host_interface R272, 70_reset_and_hazards R339; log 6). -/

namespace Sys2Proof.Machine

/-- Room for an output: where the decoder's output register is full, the host takes its next action, if that is TAKE
from the decoder unit (R277). -/
def State.makeRoom (s : State) : State :=
  if s.dec.out.valid then
    match s.host.pending with
    | .take .dec :: rest => ({ s with host := { s.host with pending := rest } } : State).takeByte .dec
    | _ => s
  else s

/-- One literal: `WIN_PUSH(b) ; output b` (R236); it holds on a full output register (R232, R339). -/
def State.tokenLiteral (b : Byte) (s : State) : State :=
  let s' := s.makeRoom
  if s'.dec.out.valid then s else { s' with dec := s'.dec.produce b }

/-- `repeat n times: v <- WIN_READ(d) ; WIN_PUSH(v) ; output v` (R237), as DEC_COPY does it in phase `RefEmit`; where
the register is full and the host does not take, the copy holds with `D.rem` bytes to go (R235, R339). -/
def State.tokenCopy : Nat → State → State
  | 0, s => s
  | n + 1, s =>
    if s.dec.ph = .refEmit then
      let s' := s.makeRoom
      if s'.dec.out.valid then s' else State.tokenCopy n (s'.endDec s'.dec.copy)
    else s

/-- The token registers once the fields are read: as DEC_TAG, DEC_DIST and DEC_LEN leave them (R231, R233, R234). -/
def DecUnit.loadRef (d : DecUnit) (k : Bool) (dist : Dist) (n : Nat) : DecUnit :=
  { d with k := k, dist := dist, lenv := lengthField n, i := d.params.L }

/-- One back-reference: the distance check, then the copy (R237). -/
def State.tokenRef (k : Bool) (dist : Dist) (n : Nat) (s : State) : State :=
  let s := { s with dec := s.dec.loadRef k dist n }
  State.tokenCopy n (s.endDec s.dec.complete)

/-- LIT b (R236). A token starts only in phase `TagBit`; elsewhere it holds. -/
def execLit (b : Byte) (s : State) : Host.Outcome State Fault Refusal :=
  .next (if s.dec.ph = .tagBit then s.tokenLiteral b else s)

/-- REF8 d, n (R237), on a unit whose tokens have an 8-bit index field (R95; log 12). -/
def execRef8 (d : BitVec 8) (n : Nat) (s : State) : Host.Outcome State Fault Refusal :=
  if s.dec.params.indexBits = 8 ∧ lengthOk s.dec.params n then
    .next (if s.dec.ph = .tagBit then s.tokenRef false (ref8Distance d) n else s)
  else .refused .notInConfiguration

/-- REF16 d, n (R238), on a unit whose tokens have a 16-bit index field (R96; log 12). -/
def execRef16 (d : Dist) (n : Nat) (s : State) : Host.Outcome State Fault Refusal :=
  if s.dec.params.indexBits = 16 ∧ lengthOk s.dec.params n then
    .next (if s.dec.ph = .tagBit then s.tokenRef true d n else s)
  else .refused .notInConfiguration

end Sys2Proof.Machine
end

