-- ==== Sys2Proof/Machine/Dispatch.lean ====
section
/-! DEFINITION. One arm per instruction. -/

namespace Sys2Proof.Machine

def exec (i : Instr) (s : State) : Host.Outcome State Fault Refusal :=
  match i with
  -- tokens (44_decoder R236-R238)
  | .lit b => Sys2Proof.Machine.execLit b s
  | .ref8 d n => Sys2Proof.Machine.execRef8 d n s
  | .ref16 d n => Sys2Proof.Machine.execRef16 d n s
  -- bit-stream reader (40_bitreader)
  | .readBit => Sys2Proof.Machine.execReadBit s
  | .readByte => Sys2Proof.Machine.execReadByte s
  -- bit-stream writer (41_bitwriter)
  | .addBit b => Sys2Proof.Machine.execAddBit b s
  | .addByte v => Sys2Proof.Machine.execAddByte v s
  | .flushFinal => Sys2Proof.Machine.execFlushFinal s
  -- window and lookahead queue (42_window_lookahead)
  | .winPush u v => Sys2Proof.Machine.execWinPush u v s
  | .winRead u d => Sys2Proof.Machine.execWinRead u d s
  | .laEnq v => Sys2Proof.Machine.execLaEnq v s
  | .laPop => Sys2Proof.Machine.execLaPop s
  | .laPeek k => Sys2Proof.Machine.execLaPeek k s
  -- encoder micro-steps (43_encoder)
  | .encDecide => Sys2Proof.Machine.execEncDecide s
  | .encEmit => Sys2Proof.Machine.execEncEmit s
  | .encFlush => Sys2Proof.Machine.execEncFlush s
  -- decoder micro-steps (44_decoder)
  | .decTag => Sys2Proof.Machine.execDecTag s
  | .decLit => Sys2Proof.Machine.execDecLit s
  | .decDist => Sys2Proof.Machine.execDecDist s
  | .decLen => Sys2Proof.Machine.execDecLen s
  | .decCopy => Sys2Proof.Machine.execDecCopy s
  -- host actions (45_host_interface)
  | .putEnc b => Sys2Proof.Machine.execPutEnc b s
  | .putDec b => Sys2Proof.Machine.execPutDec b s
  | .eof u => Sys2Proof.Machine.execEof u s
  | .take u => Sys2Proof.Machine.execTake u s
  | .reset u => Sys2Proof.Machine.execReset u s

end Sys2Proof.Machine
end

