-- ==== Sys2Proof/Machine/Fetch.lean ====
section
/-! DEFINITION. What a turn brings: the micro-step its unit's phase selects (10_state R24), the host's next action, or
the token at the decoder's bit cursor (00_scope R3, 10_state R25). -/

namespace Sys2Proof.Machine

/-- The turn to be taken: the next one listed, or a free agent's (R7, log 3). -/
def State.turn (s : State) : Turn :=
  match s.sched with
  | t :: _ => t
  | [] => (Config.freeAgent s.tick).turn

/-- The turn spent. -/
def State.spendTurn (s : State) : State :=
  match s.sched with
  | _ :: ts => { s with sched := ts }
  | [] => { s with tick := s.tick + 1 }

/-- The micro-step of the encoder's phase (R190, R191). -/
def EncUnit.selected (e : EncUnit) : Option Instr :=
  match e.ph with
  | .tokenStart => some (if e.la.count = 0 then .encFlush else .encDecide)
  | .tokenEmit => some .encEmit
  | .done => none
  | .fault => none

/-- The micro-step of the decoder's phase (R230). -/
def DecUnit.selected (d : DecUnit) : Option Instr :=
  match d.ph with
  | .tagBit => some .decTag
  | .literalByte => some .decLit
  | .refDistance => some .decDist
  | .refLength => some .decLen
  | .refEmit => some .decCopy
  | .done => none
  | .fault => none

/-- The next stream bit, as READ_BIT gives it (R122). -/
def DecUnit.heldBit (d : DecUnit) : Option (Bool × DecUnit) :=
  match d.rd.readBit d.eof with
  | .done (some b) rd => some (b, { d with rd := rd })
  | .done none _ => none
  | .hold => none
  | .raised _ _ => none

/-- The next stream bit; where the reader is empty, the host first puts the next byte of IN (R121; log 6). -/
def DecUnit.fetchBit (d : DecUnit) (pending : List HostAct) : Option (Bool × DecUnit × List HostAct) :=
  if d.rd.v0 then d.heldBit.map fun (b, d') => (b, d', pending)
  else
    match pending with
    | .putDec v :: rest => if d.inReady then (d.put v).heldBit.map fun (b, d') => (b, d', rest) else none
    | _ => none

/-- The next `n` stream bits. -/
def DecUnit.fetchBits : Nat → DecUnit → List HostAct → Option (List Bool × DecUnit × List HostAct)
  | 0, d, pending => some ([], d, pending)
  | n + 1, d, pending =>
    (d.fetchBit pending).bind fun (b, d₁, p₁) => (DecUnit.fetchBits n d₁ p₁).map fun (bs, d₂, p₂) => (b :: bs, d₂, p₂)

/-- The bits of the token at the cursor: the tag bit alone determines how many follow (R91). -/
def DecUnit.fetchTokenBits (d : DecUnit) (pending : List HostAct) : Option (List Bool × DecUnit × List HostAct) :=
  (d.fetchBit pending).bind fun (tag, d₁, p₁) =>
    (DecUnit.fetchBits (tokenLength d.params tag - 1) d₁ p₁).map fun (bs, d₂, p₂) => (tag :: bs, d₂, p₂)

/-- The register has room for the token: a literal's last micro-step is enabled only when it is empty (R232), and a
back-reference's micro-steps up to the copy need none (R231, R233, R234). -/
def State.tokenHasRoom (i : Instr) (s : State) : Bool :=
  match i.token? with
  | some (.literal _) => !s.makeRoom.dec.out.valid
  | some (.backRef _ _) => true
  | none => true

/-- The token at the cursor decoded, and the state with the cursor past it; nothing where its bits are not all there, or
where it has no room. -/
def State.fetchToken (s : State) : Option (Instr × State) :=
  match s.dec.fetchTokenBits s.host.pending with
  | none => none
  | some (bits, d, pending) =>
    match decodeBits s.dec.params bits with
    | .ok (i, _) =>
      let s' := { s with dec := d, host := { s.host with pending := pending } }
      if s'.tokenHasRoom i then some (i, s') else none
    | .error _ => none

/-- The host's next action, if it is enabled; else the host waits (R7, R272). -/
def State.fetchHost (s : State) : Option (Instr × State) :=
  match s.host.pending with
  | [] => none
  | a :: rest => if s.allows a then some (a.toInstr, { s with host := { s.host with pending := rest } }) else none

/-- The instruction this turn brings, and the state it runs in: the turn spent, and the host's action or the token's
bits consumed. Nothing where the agent of the turn has no step. -/
def State.fetch (s : State) : Option (Instr × State) :=
  match s.turn with
  | .encCore => s.enc.selected.map fun i => (i, s.spendTurn)
  | .decCore => s.dec.selected.map fun i => (i, s.spendTurn)
  | .host => s.spendTurn.fetchHost
  | .token => if s.dec.ph = .tagBit then s.spendTurn.fetchToken else none

/-- Bytes placed where the decoder fetches its next token (log 7): the first two in the reader's slots at offset 0, the
rest next to come from the host, the unit at the start of a token under the configuration `p`, open for input and with
the byte of its output register taken. -/
def State.placeToken (p : Params) (bytes : List Byte) (s : State) : State :=
  let s := if s.dec.out.valid then s.takeByte .dec else s
  let d := if s.dec.params = p then s.dec else .reset p
  let rd := { d.rd with slot0 := bytes.getD 0 0, v0 := true, slot1 := bytes.getD 1 0, v1 := true, off := 0 }
  { s with
    dec := { d with rd := rd, ph := .tagBit, eof := false, cause := .none }
    host := { s.host with pending := (bytes.drop 2).map .putDec ++ s.host.pending }
    sched := .token :: s.sched }

end Sys2Proof.Machine
end

