-- ==== Sys2Proof/Machine/Step.lean ====
section
/-! DEFINITION. One step of the machine: the turn's instruction is fetched and executed, or the turn passes. -/

namespace Sys2Proof.Machine

/-- One transition (00_scope R7): "A step that is not enabled is a hold" and only spends the turn (log 5). -/
def step (s : State) : Host.Outcome State Fault Refusal :=
  match s.fetch with
  | some (i, s') => exec i s'
  | none => .next s.spendTurn

/-- The table word's token placed where the very next step fetches (log 7). -/
def State.withFetchWord (s : State) (nbits w : Nat) : State := s.placeToken (tableParams nbits) (tableWordBytes w)

end Sys2Proof.Machine
end

