-- ==== Sys2Proof/Machine/Reference.lean ====
section
/-! DEFINITION. The functional references of the spec over whole streams: `encode(W, L, I)` (43_encoder R207) and
`decode(W, L, B)` (44_decoder R241). Statements compare the machine with them; no step calls them. -/

namespace Sys2Proof.Machine

/-- The last `n` elements of a list. -/
def lastN {α : Type} (n : Nat) (l : List α) : List α := l.drop (l.length - n)

/-- The tokens of R207's loop: `h` is the window and `rest` the input from the candidate literal on. At each decision
the queue holds the next `min(LSIZE, remaining)` bytes. `fuel` bounds the tokens, each covering at least one byte. -/
def refTokens (p : Params) : Nat → List Byte → List Byte → List Token
  | 0, _, _ => []
  | fuel + 1, h, rest =>
    match rest.take p.lsize with
    | [] => []
    | lit :: q =>
      let t := matchToken h lit q
      let k := extraBytes t + 1
      t :: refTokens p fuel (lastN p.wsize (h ++ rest.take k)) (rest.drop k)

/-- `encode(W, L, I)` (R207). -/
def refEncode (p : Params) (input : List Byte) : List Byte := encodeStream p (refTokens p input.length [] input)

/-- READ_BYTE on the bits left of a finished input: NONE when none is left, zero fill when fewer than eight are
(R126). -/
def refByte (bits : List Bool) : Option (Byte × List Bool) :=
  if bits = [] then none
  else some (BitVec.ofNat 8 (ofBits (bits.take 8 ++ List.replicate (8 - bits.length) false)), bits.drop 8)

/-- The distance field, `IW / 8` bytes (R241). -/
def refDistance (p : Params) (bits : List Bool) : Option (Nat × List Bool) :=
  (refByte bits).bind fun (hi, r) =>
    if p.indexBits = 16 then (refByte r).map fun (lo, r') => (256 * hi.toNat + lo.toNat, r') else some (hi.toNat, r)

/-- `L` bits, most significant first; NONE when fewer are left (R241). -/
def refField (p : Params) (bits : List Bool) : Option (Nat × List Bool) :=
  if bits.length < p.L then none else some (ofBits (bits.take p.L), bits.drop p.L)

/-- `repeat n times: x <- h[len(h) - 1 - d] ; h <- lastWSIZE(h ++ [x]) ; out <- out ++ [x]` (R241): the window and the
bytes copied. -/
def refCopy (p : Params) (d : Nat) : Nat → List Byte → List Byte × List Byte
  | 0, h => (h, [])
  | n + 1, h =>
    let x := h.getD (h.length - 1 - d) 0
    let r := refCopy p d n (lastN p.wsize (h ++ [x]))
    (r.1, x :: r.2)

/-- R241's loop on the bits left: the bytes output from here on, and whether the end is `Fault(DIST_RANGE)`. `fuel`
bounds the tokens. -/
def refDecodeLoop (p : Params) : Nat → List Byte → List Bool → List Byte × Bool
  | 0, _, _ => ([], false)
  | _ + 1, _, [] => ([], false)
  | fuel + 1, h, true :: bits =>
    match refByte bits with
    | none => ([], false)
    | some (v, rest) =>
      let r := refDecodeLoop p fuel (lastN p.wsize (h ++ [v])) rest
      (v :: r.1, r.2)
  | fuel + 1, h, false :: bits =>
    match (refDistance p bits).bind fun (d, r) => (refField p r).map fun (v, r') => (d, v, r') with
    | none => ([], false)
    | some (d, v, rest) =>
      if h.length ≤ d then ([], true)
      else
        let c := refCopy p d (v + 1) h
        let r := refDecodeLoop p fuel c.1 rest
        (c.2 ++ r.1, r.2)

/-- `decode(W, L, B)` (R241): the output, and whether it ends in `Fault(DIST_RANGE)` and not in `Done`. -/
def refDecode (p : Params) (bs : List Byte) : List Byte × Bool :=
  refDecodeLoop p (streamBits bs).length [] (streamBits bs)

/-- READ_BIT `n` times (R128): the bits in order and the reader after them; nothing where one of them holds or answers
NONE. -/
def Reader.readBits (eof : Bool) : Nat → Reader → Option (List Bool × Reader)
  | 0, r => some ([], r)
  | n + 1, r =>
    match r.readBit eof with
    | .done (some b) r' => (Reader.readBits eof n r').map fun (bs, r'') => (b :: bs, r'')
    | .done none _ => none
    | .hold => none
    | .raised _ _ => none

/-- The slots hold `src[S]` and `src[S+1]` where those exist, `src` being every byte put since reset (R126). -/
def Reader.tracks (src : List Byte) (r : Reader) : Prop := src.drop r.shifted = r.held

/-- The bytes an executed token puts out: a literal's byte, a copy's bytes (R236, R237). `none` where a distance is not
below the bytes in the window. -/
def tokenBytes (p : Params) (h : List Byte) : Token → Option (List Byte)
  | .literal b => some [b]
  | .backRef d n => if d < h.length then some (refCopy p d n h).2 else none

/-- The bytes a token program puts out, from window `h` on (R106). -/
def programBytes (p : Params) : List Byte → List Token → Option (List Byte)
  | _, [] => some []
  | h, t :: ts =>
    (tokenBytes p h t).bind fun o => (programBytes p (lastN p.wsize (h ++ o)) ts).map fun os => o ++ os

end Sys2Proof.Machine
end

