-- ==== Sys2Proof/Safety.lean ====
section
/-! DEFINITION. What counts as a sound state and a safe run: the invariants of 10_state R39 (with R23, R31, R32, R34)
and 45_host_interface R275, the states a run reaches, and the terms the statements use. -/

namespace Sys2Proof.Machine

/-- A window's ring is in canonical form inside its `n` slots, its pointer and count are in range (R21, R39), and until
it is full the next slot is the one after the bytes written (R161). -/
abbrev Window.Ok (n : Nat) (w : Window) : Prop :=
  Memory.wf w.buf = true ∧ (∀ c ∈ w.buf, c.1 < n) ∧ w.head < n ∧ w.count ≤ n ∧ (w.count < n → w.head = w.count)

/-- The queue's ring is in canonical form inside its `n` slots, its pointer and count are in range (R21, R39). -/
abbrev Queue.Ok (n : Nat) (q : Queue) : Prop :=
  Memory.wf q.buf = true ∧ (∀ c ∈ q.buf, c.1 < n) ∧ q.rd < n ∧ q.count ≤ n

/-- Every bit of the accumulator below the pending ones is 0 (R31, R144). -/
abbrev Writer.Ok (w : Writer) : Prop := ∀ j : Fin 8, w.n ≤ j → w.acc.getLsbD (7 - j.val) = false

/-- `v1 = 1 => v0 = 1` (R32, R39). -/
abbrev Reader.Ok (r : Reader) : Prop := r.v1 = true → r.v0 = true

/-- `TOKMAX`, the longest token in bits (R10). -/
def tokMax (p : Params) : Nat := 1 + p.indexBits + p.L

/-- The encoder unit's invariants (R39), with R206: it is never in `Fault`. -/
abbrev EncUnit.Ok (e : EncUnit) : Prop :=
  e.win.Ok e.params.wsize ∧ e.la.Ok e.params.lsize ∧ e.bw.Ok
  ∧ (e.ph = .tokenEmit ↔ e.tok ≠ []) ∧ e.tok.length ≤ tokMax e.params
  ∧ (e.ph = .done → e.eof = true ∧ e.la.count = 0 ∧ e.bw.n = 0)
  ∧ e.ph ≠ .fault ∧ e.cause = .none

/-- The decoder unit's invariants (R39), with R275 (offset 0 while the reader is empty before EOF), the length field in
its bits (R234), and the cause set exactly in `Fault` (R27, R302). -/
abbrev DecUnit.Ok (d : DecUnit) : Prop :=
  d.win.Ok d.params.wsize ∧ d.rd.Ok
  ∧ (d.eof = false → d.rd.v0 = false → d.rd.off = 0)
  ∧ (d.ph = .refLength → d.i < d.params.L ∧ d.lenv < 2 ^ d.i)
  ∧ (d.ph = .refEmit → 1 ≤ d.rem ∧ d.rem ≤ d.params.lsize ∧ d.dist.toNat < d.win.count)
  ∧ (d.ph = .done → d.eof = true ∧ d.rd.v0 = false)
  ∧ (d.ph = .fault → d.cause = .distRange) ∧ (d.ph ≠ .fault → d.cause = .none)

/-- The invariant of the whole machine. -/
abbrev State.Inv (s : State) : Prop := s.enc.Ok ∧ s.dec.Ok

/-- A system at the start of its run: newly built with any configurations, any host and any turns (R19, R281). -/
def State.start (pe pd : Params) (pending : List HostAct) (sched : List Turn) (tick : Nat) : State :=
  { State.built pe pd with host := { HostSide.idle with pending := pending }, sched := sched, tick := tick }

/-- The states a run reaches. -/
inductive Reachable : State → Prop where
  | start (pe pd : Params) (pending : List HostAct) (sched : List Turn) (tick : Nat) :
      Reachable (State.start pe pd pending sched tick)
  | step {s t : State} : Reachable s → Machine.step s = .next t → Reachable t

/-- `k` steps, stopping where the machine stops (Host.Core.run of this machine). -/
def runSteps : Nat → State → Host.Outcome State Fault Refusal
  | 0, s => .next s
  | k + 1, s =>
    match Machine.step s with
    | .next s' => runSteps k s'
    | .fault r => .fault r
    | .refused r => .refused r

/-- The unit a host action is for. -/
def actUnit : HostAct → UnitId
  | .putEnc _ => .enc
  | .putDec _ => .dec
  | .eof u => u
  | .take u => u
  | .reset u => u

/-- The action is a TAKE. -/
def actIsTake : HostAct → Bool
  | .putEnc _ => false
  | .putDec _ => false
  | .eof _ => false
  | .take _ => true
  | .reset _ => false

/-- The actions for one unit that are no TAKE: what decides the unit's input. -/
def inputActs (u : UnitId) (as : List HostAct) : List HostAct :=
  as.filter fun a => actUnit a == u && !actIsTake a

/-- The host's actions are one complete pass on the encoder unit (R282): the input put in order, then EOF, with any
TAKEs and any actions on the other unit in between. -/
def encPass (input : List Byte) (pending : List HostAct) : Prop :=
  inputActs .enc pending = input.map HostAct.putEnc ++ [.eof .enc]

/-- The same for the decoder unit. -/
def decPass (input : List Byte) (pending : List HostAct) : Prop :=
  inputActs .dec pending = input.map HostAct.putDec ++ [.eof .dec]

/-- The TAKEs from the decoder unit that the host takes next, in a row. -/
def State.takesReady (s : State) : Nat := (s.host.pending.takeWhile (· == .take .dec)).length

/-- A token that can be encoded: the distance in its field, the length in `1..2^L` (R98, R105). -/
def encodable (p : Params) : Token → Prop
  | .literal _ => True
  | .backRef d n => d < 2 ^ p.indexBits ∧ 1 ≤ n ∧ n ≤ p.lsize

end Sys2Proof.Machine
end

