-- ==== Sys2Proof/Certificates/Slice0/Obligations.lean ====
section
/-! DEFINITION. The statements for the provers. Each docstring names the rule of spec/ it formalises, or the log entry
where the statement is the model's own choice. -/

open Sys2Proof Sys2Proof.Machine Host.Outcome

/-! ## Encoding (30_encoding) -/

/-- R91, R94: the tag bit and the configuration determine every token's length, and there are no other token kinds. -/
def Obligations.TagBitSelectsTokenAndLength : Prop :=
  ∀ (p : Params) (rest : List Bool),
    (p.indexBits = if 8 ≤ p.W then 16 else 8)
    ∧ (8 ≤ rest.length → ∃ b, decodeToken p (true :: rest) = .ok (.literal b, rest.drop 8))
    ∧ (rest.length < 8 → decodeToken p (true :: rest) = .error .truncated)
    ∧ (p.indexBits + p.L ≤ rest.length →
        ∃ d n, decodeToken p (false :: rest) = .ok (.backRef d n, rest.drop (p.indexBits + p.L)))
    ∧ (rest.length < p.indexBits + p.L → decodeToken p (false :: rest) = .error .truncated)

/-- R97: how the operands are assembled from the token's bits, most significant first, high distance byte first. -/
def Obligations.OperandsAssembleMostSignificantFirst : Prop :=
  ∀ (p : Params) (b hi lo : Byte) (f : List Bool) (rest : List Bool), f.length = p.L →
    decodeBits p (true :: (byteBits b ++ rest)) = .ok (.lit b, rest)
    ∧ (p.W ≤ 7 → decodeBits p (false :: (byteBits lo ++ f ++ rest)) = .ok (.ref8 lo (ofBits f + 1), rest))
    ∧ (8 ≤ p.W → ∃ d : Dist, d.toNat = 256 * hi.toNat + lo.toNat
        ∧ decodeBits p (false :: (byteBits hi ++ byteBits lo ++ f ++ rest)) = .ok (.ref16 d (ofBits f + 1), rest))

/-- Decoding an encoded well-formed instruction gives it back, whatever follows it (R105, R106). -/
def Obligations.DecodeOfEncode : Prop :=
  ∀ (pe pd : Params) (i : Instr) (bits rest : List Bool), i.wf pe pd = true → encode pd i = some bits →
    decodeBits pd (bits ++ rest) = .ok (i, rest)

/-- Every bit the decoder reads is one the encoder writes: what it decodes is well-formed and encodes to the bits it was
read from (R100, R105). -/
def Obligations.EncodeOfDecode : Prop :=
  ∀ (p : Params) (bits rest : List Bool) (i : Instr), decodeBits p bits = .ok (i, rest) →
    i.wf p p = true ∧ ∃ e, encode p i = some e ∧ bits = e ++ rest

/-- R107: the worked encodings, in both directions. -/
def Obligations.WorkedEncodings : Prop :=
  encode .w4l4 (.lit 0x41) = some [true, false, true, false, false, false, false, false, true]
  ∧ encodeStream .w4l4 [.literal 0x41] = [0xA0, 0x80]
  ∧ encode .w4l4 (.ref8 2 3)
      = some [false, false, false, false, false, false, false, true, false, false, false, true, false]
  ∧ encode .w8l4 (.ref16 2 3)
      = some [false, false, false, false, false, false, false, false, false,
              false, false, false, false, false, false, true, false, false, false, true, false]
  ∧ encodeStream .w4l4 [.literal 0x41, .literal 0x42, .literal 0x43, .backRef 2 3] = [0xA0, 0xD0, 0xA8, 0x60, 0x22]
  ∧ (decodeBytes .w4l4 [0xA0, 0x80]).toOption.map Prod.fst = some (.lit 0x41)
  ∧ (decodeBits .w4l4 [false, false, false, false, false, false, false, true, false,
      false, false, true, false]).toOption = some (.ref8 2 3, [])
  ∧ (decodeBits .w8l4 [false, false, false, false, false, false, false, false, false,
      false, false, false, false, false, false, true, false, false, false, true, false]).toOption
      = some (.ref16 2 3, [])

/-- R9, R305: a configuration outside `1..16` is refused at construction, and there is no unit for it. -/
def Obligations.ConstructionRefusesOutOfRange : Prop :=
  ∀ We Le Wd Ld : Nat,
    ((Params.make? We Le).isSome = true ↔ (1 ≤ We ∧ We ≤ 16) ∧ (1 ≤ Le ∧ Le ≤ 16))
    ∧ (∀ p, Params.make? We Le = some p → p.W = We ∧ p.L = Le)
    ∧ ((State.construct? We Le Wd Ld).isSome = true ↔
        (1 ≤ We ∧ We ≤ 16) ∧ (1 ≤ Le ∧ Le ≤ 16) ∧ (1 ≤ Wd ∧ Wd ≤ 16) ∧ (1 ≤ Ld ∧ Ld ≤ 16))

/-! ## Tokens executed whole (44_decoder R236-R239) -/

/-- R236: `WIN_PUSH(b) ; output b`, and nothing else. Where the output register is full the host's next action, if it is a
TAKE, makes room, and else the token holds (R339; log 6). -/
def Obligations.LiteralTokenPushesAndOutputs : Prop :=
  ∀ (s : State) (b : Byte), s.dec.ph = .tagBit →
    let d := { s.dec with win := s.dec.win.push s.dec.params.wsize b, out := ⟨true, b⟩ }
    (s.dec.out.valid = false → exec (.lit b) s = next { s with dec := d })
    ∧ (∀ rest, s.dec.out.valid = true → s.host.pending = .take .dec :: rest →
      exec (.lit b) s = next { s with
        dec := d, host := { s.host with pending := rest, decTaken := s.host.decTaken ++ [s.dec.out.data] } })
    ∧ (s.dec.out.valid = true → s.host.pending.head? ≠ some (.take .dec) → exec (.lit b) s = next s)

/-- R239 with R237: as many bytes are copied as there is room for, `n` where the host's next actions are TAKEs enough
(R339; log 6); byte `k` is `(h ++ produced)[c - 1 - d + k]`; then the window, the token registers, the host's side and
the frame. `k₁` is `D.k` after the token. -/
def Sys2Proof.Machine.CopiesFrom (s : State) (i : Instr) (k₁ : Bool) (dist : Dist) (n : Nat) : Prop :=
  let h := s.dec.win.hist s.dec.params.wsize
  let free := if s.dec.out.valid = true then 0 else 1
  let m := min n (s.takesReady + free)
  ∃ t produced, exec i s = next t
    ∧ produced.length = m
    ∧ (∀ k, k < m → produced[k]? = (h ++ produced)[h.length - 1 - dist.toNat + k]?)
    ∧ t.output .dec = s.output .dec ++ produced ∧ t.dec.out.valid = true
    ∧ t.dec.win.hist s.dec.params.wsize = lastN s.dec.params.wsize (h ++ produced)
    ∧ t.dec = { s.dec with win := t.dec.win, out := t.dec.out, k := k₁, dist := dist, lenv := n - 1,
                           i := s.dec.params.L, rem := n - m, ph := if m = n then .tagBit else .refEmit }
    ∧ t = { s with dec := t.dec, host := { s.host with
        pending := s.host.pending.drop (m - free), decTaken := t.host.decTaken } }

/-- R237, R239: REF8 with a legal distance copies its bytes, lengths 1 and 2 (R243) and self-overlap included. -/
def Obligations.Ref8CopiesFromWindow : Prop :=
  ∀ (s : State) (d : BitVec 8) (n : Nat), s.dec.win.Ok s.dec.params.wsize → s.dec.ph = .tagBit →
    s.dec.params.W ≤ 7 → 1 ≤ n → n ≤ s.dec.params.lsize → d.toNat < s.dec.win.count →
    CopiesFrom s (.ref8 d n) false (d.zeroExtend 16) n

/-- R238, R239: REF16 likewise. -/
def Obligations.Ref16CopiesFromWindow : Prop :=
  ∀ (s : State) (d : Dist) (n : Nat), s.dec.win.Ok s.dec.params.wsize → s.dec.ph = .tagBit →
    8 ≤ s.dec.params.W → 1 ≤ n → n ≤ s.dec.params.lsize → d.toNat < s.dec.win.count →
    CopiesFrom s (.ref16 d n) true d n

/-- R237, R238: a back-reference whose distance is not below the window's count takes `Fault(DIST_RANGE)` before any byte
of it is output; only the token registers, the phase and the cause change. That `k`, `dist`, `lenv` and `i` stay written
after the fault is the model's reading (log 8). -/
def Obligations.BackReferenceOutOfRangeFaults : Prop :=
  ∀ (s : State) (n : Nat), s.dec.ph = .tagBit → 1 ≤ n → n ≤ s.dec.params.lsize →
    (∀ d : BitVec 8, s.dec.params.W ≤ 7 → s.dec.win.count ≤ d.toNat →
      exec (.ref8 d n) s = next { s with dec := { s.dec with k := false, dist := d.zeroExtend 16, lenv := n - 1, i := s.dec.params.L, ph := .fault, cause := .distRange } })
    ∧ (∀ d : Dist, 8 ≤ s.dec.params.W → s.dec.win.count ≤ d.toNat →
      exec (.ref16 d n) s = next { s with dec := { s.dec with k := true, dist := d, lenv := n - 1, i := s.dec.params.L, ph := .fault, cause := .distRange } })

/-- The model's choice (log 12): a token that the unit's configuration does not have is refused by name (R95, R96,
R98). -/
def Obligations.TokenOutsideConfigurationRefused : Prop :=
  ∀ (s : State) (n : Nat),
    (∀ d : BitVec 8, (8 ≤ s.dec.params.W ∨ n = 0 ∨ s.dec.params.lsize < n) →
      exec (.ref8 d n) s = refused .notInConfiguration)
    ∧ (∀ d : Dist, (s.dec.params.W ≤ 7 ∨ n = 0 ∨ s.dec.params.lsize < n) →
      exec (.ref16 d n) s = refused .notInConfiguration)

/-- R7, R272: a token turn is an abbreviation (log 6). It does nothing but what some turns of the agents do one after
the other, each a micro-step or an action of the host's own list; a literal whose bits the reader holds is `DEC_TAG`
then `DEC_LIT` (R236). -/
def Obligations.TokenTurnIsARunOfAgentTurns : Prop :=
  ∀ (s : State) (ts : List Turn),
    (∃ agents : List Agent,
      runSteps agents.length { s with sched := agents.map Agent.turn ++ ts } = step { s with sched := .token :: ts })
    ∧ (s.dec.ph = .tagBit → s.dec.out.valid = false → s.dec.rd.v0 = true → s.dec.rd.v1 = true →
      s.dec.rd.slot0.getLsbD (7 - s.dec.rd.off.val) = true →
      ∃ t, runSteps 1 { s with sched := .token :: ts } = next t
        ∧ runSteps 2 { s with sched := .decCore :: .decCore :: ts } = next t
        ∧ t.dec.ph = .tagBit ∧ t.dec.out.valid = true)

/-! ## Bit-stream reader (40_bitreader) -/

/-- R122: READ_BIT. -/
def Obligations.ReadBitResult : Prop :=
  ∀ s : State,
    (s.dec.rd.v0 = false → s.dec.eof = true → exec .readBit s = next { s with result := .none })
    ∧ (s.dec.rd.v0 = false → s.dec.eof = false → exec .readBit s = next s)
    ∧ (s.dec.rd.v0 = true → s.dec.rd.off = 7 →
        exec .readBit s = next { s with
          result := .bit (((s.dec.rd.slot0 >>> 0) &&& 1#8) == 1#8)
          dec := { s.dec with rd := { slot0 := s.dec.rd.slot1, v0 := s.dec.rd.v1, slot1 := 0x00, v1 := false, off := 0,
                                      shifted := s.dec.rd.shifted + 1 } } })
    ∧ (s.dec.rd.v0 = true → s.dec.rd.off ≠ 7 →
        exec .readBit s = next { s with
          result := .bit (((s.dec.rd.slot0 >>> (7 - s.dec.rd.off.val)) &&& 1#8) == 1#8)
          dec := { s.dec with rd := { s.dec.rd with off := s.dec.rd.off + 1 } } })

/-- The reader after READ_BYTE (R123): one byte-equivalent forward, the offset unchanged. -/
def Sys2Proof.Machine.byteForward (r : Reader) : Reader :=
  { slot0 := r.slot1, v0 := r.v1, slot1 := 0x00, v1 := false, off := r.off, shifted := r.shifted + 1 }

/-- R123: READ_BYTE, with the zero fill of R124. -/
def Obligations.ReadByteResult : Prop :=
  ∀ s : State,
    (s.dec.rd.v0 = false → s.dec.eof = true → exec .readByte s = next { s with result := .none })
    ∧ (s.dec.rd.v0 = false → s.dec.eof = false → exec .readByte s = next s)
    ∧ (s.dec.rd.v0 = true → s.dec.rd.off = 0 →
        exec .readByte s = next { s with
          result := .byte s.dec.rd.slot0, dec := { s.dec with rd := byteForward s.dec.rd } })
    ∧ (s.dec.rd.v0 = true → s.dec.rd.off ≠ 0 → s.dec.rd.v1 = true →
        exec .readByte s = next { s with
          result := .byte ((s.dec.rd.slot0 <<< s.dec.rd.off.val) ||| (s.dec.rd.slot1 >>> (8 - s.dec.rd.off.val)))
          dec := { s.dec with rd := byteForward s.dec.rd } })
    ∧ (s.dec.rd.v0 = true → s.dec.rd.off ≠ 0 → s.dec.rd.v1 = false → s.dec.eof = true →
        exec .readByte s = next { s with
          result := .byte (s.dec.rd.slot0 <<< s.dec.rd.off.val), dec := { s.dec with rd := byteForward s.dec.rd } })
    ∧ (s.dec.rd.v0 = true → s.dec.rd.off ≠ 0 → s.dec.rd.v1 = false → s.dec.eof = false →
        exec .readByte s = next s)

/-- R128: READ_BYTE and eight READ_BIT calls agree, in value and cursor, while the bits are there; at the end of the
input READ_BYTE zero-fills and the eight calls end with NONE. -/
def Obligations.ByteReadIsEightBitReads : Prop :=
  ∀ (r : Reader) (eof : Bool), r.v0 = true →
    (r.v1 = true ∨ r.off = 0 → ∃ bits r', r.readBits eof 8 = some (bits, r')
      ∧ r.readByte eof = .done (some (BitVec.ofNat 8 (ofBits bits))) r')
    ∧ (r.v1 = false → r.off ≠ 0 → r.readBits eof 8 = none
        ∧ r.readByte true = .done (some (r.slot0 <<< r.off.val)) r.shift)

/-- R126: over the bytes put since reset, READ_BIT answers stream bit `pos` and moves the cursor by 1, READ_BYTE answers
stream bits `pos .. pos + 7` with zeros past the end and moves it by 8, and both answer NONE or hold exactly where R126
says. -/
def Obligations.ReaderFollowsStream : Prop :=
  ∀ (src : List Byte) (r : Reader) (eof : Bool), r.Ok → r.tracks src →
    (if r.pos < 8 * src.length then
      ∃ b r', r.readBit eof = .done (some b) r' ∧ (streamBits src)[r.pos]? = some b ∧ r'.pos = r.pos + 1 ∧ r'.tracks src
     else r.readBit eof = if eof then .done none r else .hold)
    ∧ (if r.pos / 8 < src.length then
        (if r.pos % 8 = 0 ∨ r.pos / 8 + 1 < src.length ∨ eof = true then
          ∃ v r', r.readByte eof = .done (some v) r' ∧ r'.pos = r.pos + 8 ∧ r'.tracks src
            ∧ byteBits v = ((streamBits src).drop r.pos ++ List.replicate 8 false).take 8
         else r.readByte eof = .hold)
       else r.readByte eof = if eof then .done none r else .hold)

/-! ## Bit-stream writer (41_bitwriter) -/

/-- R141: ADD_BIT, while the output register is empty. -/
def Obligations.AddBitResult : Prop :=
  ∀ (s : State) (b : Bool), s.enc.out.valid = false →
    let acc := s.enc.bw.acc ||| ((if b then 1#8 else 0#8) <<< (7 - s.enc.bw.n.val))
    (s.enc.bw.n = 7 →
      exec (.addBit b) s = next { s with enc := { s.enc with bw := ⟨0x00, 0⟩, out := ⟨true, acc⟩ } })
    ∧ (s.enc.bw.n ≠ 7 →
      exec (.addBit b) s = next { s with enc := { s.enc with bw := ⟨acc, s.enc.bw.n + 1⟩ } })

/-- R142: ADD_BYTE completes exactly one byte and leaves as many bits pending as before; the bits come out in order. -/
def Obligations.AddByteCompletesOneByte : Prop :=
  ∀ (s : State) (v : Byte), s.enc.out.valid = false → s.enc.bw.Ok →
    ∃ w e, exec (.addByte v) s = next { s with enc := { s.enc with bw := w, out := ⟨true, e⟩ } }
      ∧ w.n = s.enc.bw.n ∧ w.Ok ∧ s.enc.bw.pend ++ byteBits v = byteBits e ++ w.pend

/-- R143: FLUSH_FINAL. -/
def Obligations.FlushFinalResult : Prop :=
  ∀ s : State, s.enc.out.valid = false →
    (s.enc.bw.n ≠ 0 →
      exec .flushFinal s = next { s with enc := { s.enc with bw := ⟨0x00, 0⟩, out := ⟨true, s.enc.bw.acc⟩ } })
    ∧ (s.enc.bw.n = 0 → exec .flushFinal s = next s)

/-- R145, R146: writing bits and flushing gives bytes whose bits are those bits and zeros to the next byte boundary;
after `k` bits, `k div 8` bytes are out and `k mod 8` bits pending. -/
def Obligations.WriterReproducesBits : Prop :=
  ∀ (bits : List Bool) (w : Writer) (out : List Byte), Writer.reset.addBits bits = (w, out) →
    out.length = bits.length / 8 ∧ w.n.val = bits.length % 8
    ∧ streamBits (out ++ w.flush.2.toList) = bits ++ List.replicate ((8 - bits.length % 8) % 8) false

/-! ## Window and lookahead queue (42_window_lookahead) -/

/-- R161: WIN_PUSH on either unit's window, with its frame: one slot of that window is written, and nothing else. -/
def Obligations.WinPushResult : Prop :=
  ∀ (s : State) (u : UnitId) (v : Byte), (s.window u).Ok (s.params u).wsize →
    ∃ t, exec (.winPush u v) s = next t ∧ t = s.setWindow u (t.window u)
      ∧ (t.window u).head = ((s.window u).head + 1) % (s.params u).wsize
      ∧ (t.window u).count = min ((s.window u).count + 1) (s.params u).wsize
      ∧ (t.window u).hist (s.params u).wsize
          = lastN (s.params u).wsize ((s.window u).hist (s.params u).wsize ++ [v])
      ∧ Memory.read (t.window u).buf (s.window u).head = v
      ∧ (∀ a, a ≠ (s.window u).head → Memory.read (t.window u).buf a = Memory.read (s.window u).buf a)

/-- R162: WIN_READ on either unit's window: the byte `d` before the newest, with no side effect, or
`Fault(DIST_RANGE)`. That a read of the encoder's window faults the encoder unit is the model's choice (log 16). -/
def Obligations.WinReadResult : Prop :=
  ∀ (s : State) (u : UnitId) (d : Dist), (s.window u).Ok (s.params u).wsize →
    (d.toNat < (s.window u).count →
      ∃ v, ((s.window u).hist (s.params u).wsize)[(s.window u).count - 1 - d.toNat]? = some v
        ∧ exec (.winRead u d) s = next { s with result := .byte v })
    ∧ ((s.window u).count ≤ d.toNat → exec (.winRead u d) s = next (match u with
        | .enc => { s with enc := { s.enc with cause := .distRange, ph := .fault } }
        | .dec => { s with dec := { s.dec with cause := .distRange, ph := .fault } }))

/-- R163: after any pushes since reset the window holds the last `min(t, WSIZE)` bytes, and distance `d` names byte
`t - d`. -/
def Obligations.PushesSinceReset : Prop :=
  ∀ (p : Params) (vs : List Byte),
    let w := vs.foldl (Window.push p.wsize) Window.reset
    w.hist p.wsize = lastN p.wsize vs
    ∧ (∀ d, d < min vs.length p.wsize → w.read p.wsize d = vs[vs.length - 1 - d]?)
    ∧ (∀ d, min vs.length p.wsize ≤ d → w.read p.wsize d = none)

/-- R168: LA_ENQ appends, while the queue is not full; one slot is written and nothing else changes. -/
def Obligations.LaEnqResult : Prop :=
  ∀ (s : State) (v : Byte), s.enc.la.Ok s.enc.params.lsize → s.enc.la.count < s.enc.params.lsize →
    ∃ q, exec (.laEnq v) s = next { s with enc := { s.enc with la := q } }
      ∧ q.rd = s.enc.la.rd ∧ q.count = s.enc.la.count + 1
      ∧ q.content s.enc.params.lsize = s.enc.la.content s.enc.params.lsize ++ [v]
      ∧ (∀ a, a ≠ (s.enc.la.rd + s.enc.la.count) % s.enc.params.lsize →
          Memory.read q.buf a = Memory.read s.enc.la.buf a)

/-- R169: LA_POP returns and removes the oldest byte, storing nothing; on an empty queue it takes
`Fault(LA_UNDERFLOW)`. -/
def Obligations.LaPopResult : Prop :=
  ∀ s : State, s.enc.la.Ok s.enc.params.lsize →
    (s.enc.la.count ≠ 0 → ∃ v q, exec .laPop s = next { s with enc := { s.enc with la := q }, result := .byte v }
      ∧ s.enc.la.content s.enc.params.lsize = v :: q.content s.enc.params.lsize
      ∧ q.buf = s.enc.la.buf ∧ q.count = s.enc.la.count - 1 ∧ q.rd = (s.enc.la.rd + 1) % s.enc.params.lsize)
    ∧ (s.enc.la.count = 0 →
        exec .laPop s = next { s with enc := { s.enc with cause := .laUnderflow, ph := .fault } })

/-- R170: LA_PEEK has no side effect; at a position that does not exist the model stops (log 11). -/
def Obligations.LaPeekResult : Prop :=
  ∀ (s : State) (i : Nat),
    (i < s.enc.la.count → ∃ v, (s.enc.la.content s.enc.params.lsize)[i]? = some v
      ∧ exec (.laPeek i) s = next { s with result := .byte v })
    ∧ (s.enc.la.count ≤ i → exec (.laPeek i) s = fault .queuePosition)

/-! ## Encoder (43_encoder) -/

/-- R195: the match length is the largest `m` with `1 <= m <= len(T)` and `S[k] = T[k]` for all `k < m`. -/
def Obligations.MatchLengthIsLargest : Prop :=
  ∀ (h : List Byte) (p : Nat) (lit : Byte) (q : List Byte), h[p]? = some lit →
    let T := lit :: q
    let S := h.drop p ++ T
    let m := matchLen h p T
    1 ≤ m ∧ m ≤ T.length ∧ (∀ k, k < m → S[k]? = T[k]?) ∧ (m < T.length → S[m]? ≠ T[m]?)

/-- R196, R197, R198: a literal where no candidate's match exceeds 2; else the longest match, at the earliest position
among equals, with distance `c - 1 - p`. -/
def Obligations.SearchKeepsEarliestLongest : Prop :=
  ∀ (h : List Byte) (lit : Byte) (q : List Byte),
    let len := fun p => matchLen h p (lit :: q)
    (matchToken h lit q = .literal lit ∧ ∀ p, h[p]? = some lit → len p ≤ 2)
    ∨ ∃ p, h[p]? = some lit ∧ 2 < len p ∧ matchToken h lit q = .backRef (h.length - 1 - p) (len p)
        ∧ (∀ p', h[p']? = some lit → len p' ≤ len p) ∧ (∀ p', p' < p → h[p']? = some lit → len p' < len p)

/-- R199: the bounds of a decided back-reference. -/
def Obligations.DecidedReferenceFitsFields : Prop :=
  ∀ (p : Params) (h : List Byte) (lit : Byte) (q : List Byte), h.length ≤ p.wsize → q.length + 1 ≤ p.lsize →
    ∀ d n, matchToken h lit q = .backRef d n →
      3 ≤ n ∧ n ≤ q.length + 1 ∧ n - 1 < 2 ^ p.L ∧ d + 1 ≤ h.length ∧ d < 2 ^ p.indexBits ∧ p.L ≠ 1

/-- R192: ENC_DECIDE, when it is enabled, takes the token of the search over the window before any push and the queue
after the pop, moves the token's bytes from the queue to the window, loads its bits, and changes nothing else; otherwise
it holds. -/
def Obligations.DecideCommitsToken : Prop :=
  ∀ s : State,
  ((s.enc.ph ≠ .tokenStart ∨ s.enc.la.count = 0 ∨ (s.enc.la.count ≠ s.enc.params.lsize ∧ s.enc.eof = false)) →
    exec .encDecide s = next s)
  ∧ (s.enc.win.Ok s.enc.params.wsize → s.enc.la.Ok s.enc.params.lsize → s.enc.ph = .tokenStart →
    s.enc.la.count ≠ 0 → (s.enc.la.count = s.enc.params.lsize ∨ s.enc.eof = true) →
    let h := s.enc.win.hist s.enc.params.wsize
    let la := s.enc.la.content s.enc.params.lsize
    ∃ lit q w la', la = lit :: q
      ∧ let tk := matchToken h lit q
        let k := match tk with
          | .literal _ => 1
          | .backRef _ n => n
        exec .encDecide s = next { s with enc := { s.enc with win := w, la := la', tok := encodeToken s.enc.params tk,
                                                              ph := .tokenEmit } }
        ∧ w.Ok s.enc.params.wsize ∧ w.hist s.enc.params.wsize = lastN s.enc.params.wsize (h ++ la.take k)
        ∧ la'.Ok s.enc.params.lsize ∧ la'.content s.enc.params.lsize = la.drop k ∧ la'.buf = s.enc.la.buf
        ∧ (∀ a, (∀ j, j < k → a ≠ (s.enc.win.head + j) % s.enc.params.wsize) →
            Memory.read w.buf a = Memory.read s.enc.win.buf a))

/-- R203: ENC_EMIT gives the first bit of `E.tok` to the writer, may emit a byte, and returns to `TokenStart` after the
last bit; it holds while the output register is full. -/
def Obligations.EmitGivesOneBit : Prop :=
  ∀ s : State,
    ((s.enc.ph ≠ .tokenEmit ∨ s.enc.out.valid = true) → exec .encEmit s = next s)
    ∧ ∀ b rest, s.enc.ph = .tokenEmit → s.enc.out.valid = false → s.enc.tok = b :: rest →
      let acc := s.enc.bw.acc ||| ((if b = true then 1#8 else 0#8) <<< (7 - s.enc.bw.n.val))
      let ph := if rest.length = 0 then EncPhase.tokenStart else EncPhase.tokenEmit
      (s.enc.bw.n = 7 → exec .encEmit s
        = next { s with enc := { s.enc with tok := rest, bw := ⟨0x00, 0⟩, out := ⟨true, acc⟩, ph := ph } })
      ∧ (s.enc.bw.n ≠ 7 → exec .encEmit s
        = next { s with enc := { s.enc with tok := rest, bw := ⟨acc, s.enc.bw.n + 1⟩, ph := ph } })

/-- R204: ENC_FLUSH emits the padded byte, if any bit is pending, and ends the pass; it holds while it is not enabled. -/
def Obligations.FlushEndsPass : Prop :=
  ∀ s : State,
    ((s.enc.ph ≠ .tokenStart ∨ s.enc.la.count ≠ 0 ∨ s.enc.eof = false ∨ s.enc.out.valid = true) →
      exec .encFlush s = next s)
    ∧ (s.enc.ph = .tokenStart → s.enc.la.count = 0 → s.enc.eof = true → s.enc.out.valid = false →
      (s.enc.bw.n ≠ 0 → exec .encFlush s
        = next { s with enc := { s.enc with bw := ⟨0x00, 0⟩, out := ⟨true, s.enc.bw.acc⟩, ph := .done } })
      ∧ (s.enc.bw.n = 0 → exec .encFlush s = next { s with enc := { s.enc with ph := .done } }))

/-- The model's choice (log 10): the writer's operations and LA_ENQ, executed as instructions of their own, wait while
their precondition fails (R35: a step that emits is enabled only when the output register is empty; R168: a full queue
holds the host). -/
def Obligations.OperationsWait : Prop :=
  ∀ s : State,
    (s.enc.out.valid = true →
      exec .flushFinal s = next s ∧ (∀ b, exec (.addBit b) s = next s) ∧ ∀ v, exec (.addByte v) s = next s)
    ∧ (s.enc.params.lsize ≤ s.enc.la.count → ∀ v, exec (.laEnq v) s = next s)

/-! ## Decoder (44_decoder) -/

/-- R231: DEC_TAG holds, ends the stream, or reads the tag bit and selects the next phase. -/
def Obligations.TagBitSelectsPhase : Prop :=
  ∀ s : State,
    ((s.dec.ph ≠ .tagBit ∨ s.dec.rd.readBit s.dec.eof = .hold) → exec .decTag s = next s)
    ∧ (s.dec.ph = .tagBit → s.dec.rd.readBit s.dec.eof = .done none s.dec.rd →
      exec .decTag s = next { s with dec := { s.dec with ph := .done } })
    ∧ ∀ b rd, s.dec.ph = .tagBit → s.dec.rd.readBit s.dec.eof = .done (some b) rd →
      exec .decTag s = next { s with dec := if b = true then { s.dec with rd := rd, ph := .literalByte }
        else { s.dec with rd := rd, dist := 0, k := false, ph := .refDistance } }

/-- R232: DEC_LIT holds, ends the stream, or pushes and emits a byte, with its frame: the window's one slot, the output
register, the reader and the phase. -/
def Obligations.LiteralStepPushesAndEmits : Prop :=
  ∀ s : State,
    ((s.dec.ph ≠ .literalByte ∨ s.dec.out.valid = true ∨ s.dec.rd.readByte s.dec.eof = .hold) →
      exec .decLit s = next s)
    ∧ (s.dec.ph = .literalByte → s.dec.out.valid = false → s.dec.rd.readByte s.dec.eof = .done none s.dec.rd →
      exec .decLit s = next { s with dec := { s.dec with ph := .done } })
    ∧ ∀ v rd, s.dec.win.Ok s.dec.params.wsize → s.dec.ph = .literalByte → s.dec.out.valid = false →
      s.dec.rd.readByte s.dec.eof = .done (some v) rd →
      ∃ w, exec .decLit s = next { s with dec := { s.dec with rd := rd, win := w, out := ⟨true, v⟩, ph := .tagBit } }
        ∧ w.hist s.dec.params.wsize = lastN s.dec.params.wsize (s.dec.win.hist s.dec.params.wsize ++ [v])
        ∧ (∀ a, a ≠ s.dec.win.head → Memory.read w.buf a = Memory.read s.dec.win.buf a)

/-- R233: DEC_DIST holds, ends the stream, or extends the distance by a byte; a 16-bit distance takes a second one. -/
def Obligations.DistanceStepAssembles : Prop :=
  ∀ s : State,
    ((s.dec.ph ≠ .refDistance ∨ s.dec.rd.readByte s.dec.eof = .hold) → exec .decDist s = next s)
    ∧ (s.dec.ph = .refDistance → s.dec.rd.readByte s.dec.eof = .done none s.dec.rd →
      exec .decDist s = next { s with dec := { s.dec with ph := .done } })
    ∧ ∀ v rd, s.dec.ph = .refDistance → s.dec.rd.readByte s.dec.eof = .done (some v) rd →
      ∃ d : Dist, d.toNat = (256 * s.dec.dist.toNat + v.toNat) % 65536
        ∧ exec .decDist s = next { s with dec :=
            if 8 ≤ s.dec.params.W ∧ s.dec.k = false then { s.dec with rd := rd, dist := d, k := true }
            else { s.dec with rd := rd, dist := d, lenv := 0, i := 0, ph := .refLength } }

/-- R234: DEC_LEN holds, ends the stream, or extends the length field by a bit; at its last bit the distance is checked,
and the copy starts or `Fault(DIST_RANGE)` is taken, saving nothing but the cause. That `lenv`, `i` and the reader keep
what the step wrote before the fault is the model's reading (log 8). -/
def Obligations.LengthStepChecksDistance : Prop :=
  ∀ s : State,
    ((s.dec.ph ≠ .refLength ∨ s.dec.rd.readBit s.dec.eof = .hold) → exec .decLen s = next s)
    ∧ (s.dec.ph = .refLength → s.dec.rd.readBit s.dec.eof = .done none s.dec.rd →
      exec .decLen s = next { s with dec := { s.dec with ph := .done } })
    ∧ ∀ b rd, s.dec.ph = .refLength → s.dec.rd.readBit s.dec.eof = .done (some b) rd →
      let v := 2 * s.dec.lenv + b.toNat
      (s.dec.i + 1 ≠ s.dec.params.L →
        exec .decLen s = next { s with dec := { s.dec with rd := rd, lenv := v, i := s.dec.i + 1 } })
      ∧ (s.dec.i + 1 = s.dec.params.L → s.dec.dist.toNat < s.dec.win.count →
        exec .decLen s
          = next { s with dec := { s.dec with rd := rd, lenv := v, i := s.dec.i + 1, rem := v + 1, ph := .refEmit } })
      ∧ (s.dec.i + 1 = s.dec.params.L → s.dec.win.count ≤ s.dec.dist.toNat →
        exec .decLen s = next { s with dec := { s.dec with rd := rd, lenv := v, i := s.dec.i + 1, cause := .distRange,
                                                           ph := .fault } })

/-- R235: DEC_COPY reads one byte at the distance, pushes it at once, emits it and counts down, with its frame; it holds
while the output register is full. -/
def Obligations.CopyStepReadsPushesEmits : Prop :=
  ∀ s : State,
    ((s.dec.ph ≠ .refEmit ∨ s.dec.out.valid = true) → exec .decCopy s = next s)
    ∧ (s.dec.win.Ok s.dec.params.wsize → s.dec.ph = .refEmit → s.dec.out.valid = false →
      s.dec.dist.toNat < s.dec.win.count →
      let h := s.dec.win.hist s.dec.params.wsize
      ∃ v w, h[h.length - 1 - s.dec.dist.toNat]? = some v
        ∧ exec .decCopy s = next { s with dec := { s.dec with win := w, out := ⟨true, v⟩, rem := s.dec.rem - 1, ph := if s.dec.rem - 1 = 0 then .tagBit else .refEmit } }
        ∧ w.hist s.dec.params.wsize = lastN s.dec.params.wsize (h ++ [v])
        ∧ (∀ a, a ≠ s.dec.win.head → Memory.read w.buf a = Memory.read s.dec.win.buf a))

/-- R246, on the machine: with the input exhausted, the decoder's turn in every phase that reads goes to `Done` and
changes nothing else. -/
def Obligations.InputEndIsSoft : Prop :=
  ∀ s : State, s.turn = .decCore → s.dec.rd.v0 = false → s.dec.eof = true →
    (s.dec.ph = .tagBit ∨ (s.dec.ph = .literalByte ∧ s.dec.out.valid = false) ∨ s.dec.ph = .refDistance
      ∨ s.dec.ph = .refLength) →
    step s = next { s.spendTurn with dec := { s.dec with ph := .done } }

/-- The model's choice (log 6): a token starts only in phase `TagBit`; in every other phase it holds. -/
def Obligations.TokensHoldOutsideTagBit : Prop :=
  ∀ s : State, s.dec.ph ≠ .tagBit →
    (∀ b, exec (.lit b) s = next s)
    ∧ ∀ n, 1 ≤ n → n ≤ s.dec.params.lsize →
      (s.dec.params.W ≤ 7 → ∀ d, exec (.ref8 d n) s = next s)
      ∧ (8 ≤ s.dec.params.W → ∀ d, exec (.ref16 d n) s = next s)

/-! ## Host interface (45_host_interface) and reset (70_reset_and_hazards) -/

/-- R274: PUT to the encoder unit enqueues the byte, in `TokenStart` and `TokenEmit` alike; it waits while it is not
enabled. -/
def Obligations.PutToEncoderEnqueues : Prop :=
  ∀ (s : State) (b : Byte),
    ((s.enc.eof = true ∨ s.enc.params.lsize ≤ s.enc.la.count ∨ s.enc.ph = .done ∨ s.enc.ph = .fault) →
      exec (.putEnc b) s = next s)
    ∧ (s.enc.la.Ok s.enc.params.lsize → s.enc.eof = false →
      s.enc.la.count < s.enc.params.lsize → s.enc.ph ≠ .done → s.enc.ph ≠ .fault →
      ∃ q, exec (.putEnc b) s = next { s with enc := { s.enc with la := q, consumedIn := s.enc.consumedIn + 1 } }
        ∧ q.content s.enc.params.lsize = s.enc.la.content s.enc.params.lsize ++ [b]
        ∧ q.rd = s.enc.la.rd ∧ q.count = s.enc.la.count + 1
        ∧ (∀ a, a ≠ (s.enc.la.rd + s.enc.la.count) % s.enc.params.lsize →
            Memory.read q.buf a = Memory.read s.enc.la.buf a))

/-- R275: PUT to the decoder unit fills slot0, then slot1; it waits while it is not enabled. -/
def Obligations.PutToDecoderFillsSlots : Prop :=
  ∀ (s : State) (b : Byte),
    ((s.dec.eof = true ∨ s.dec.rd.v1 = true ∨ s.dec.ph = .done ∨ s.dec.ph = .fault) → exec (.putDec b) s = next s)
    ∧ (s.dec.eof = false → s.dec.rd.v1 = false → s.dec.ph ≠ .done → s.dec.ph ≠ .fault →
      (s.dec.rd.v0 = false → exec (.putDec b) s
        = next { s with dec := { s.dec with rd := { s.dec.rd with slot0 := b, v0 := true } } })
      ∧ (s.dec.rd.v0 = true → exec (.putDec b) s
        = next { s with dec := { s.dec with rd := { s.dec.rd with slot1 := b, v1 := true } } }))

/-- R276: EOF sets the bit and nothing else, in every phase; a second one waits. -/
def Obligations.EofSetsBit : Prop :=
  ∀ s : State,
    (s.enc.eof = false → exec (.eof .enc) s = next { s with enc := { s.enc with eof := true } })
    ∧ (s.dec.eof = false → exec (.eof .dec) s = next { s with dec := { s.dec with eof := true } })
    ∧ (∀ u, s.eofOf u = true → exec (.eof u) s = next s)

/-- R277: TAKE hands the byte to the host and empties the register, its data kept, in every phase; it waits while the
register is empty. -/
def Obligations.TakeDeliversByte : Prop :=
  ∀ s : State,
    (s.enc.out.valid = true → exec (.take .enc) s = next { s with
      enc := { s.enc with out := ⟨false, s.enc.out.data⟩ }
      host := { s.host with encTaken := s.host.encTaken ++ [s.enc.out.data] } })
    ∧ (s.dec.out.valid = true → exec (.take .dec) s = next { s with
      dec := { s.dec with out := ⟨false, s.dec.out.data⟩ }
      host := { s.host with decTaken := s.host.decTaken ++ [s.dec.out.data] } })
    ∧ (∀ u, (s.outOf u).valid = false → exec (.take u) s = next s)

/-- R27, R270, R271, R302: the status outputs of both units. -/
def Obligations.StatusOutputs : Prop :=
  ∀ s : State,
    ((s.status .enc).inReady = true ↔
      s.enc.eof = false ∧ s.enc.la.count < s.enc.params.lsize ∧ s.enc.ph ≠ .done ∧ s.enc.ph ≠ .fault)
    ∧ ((s.status .dec).inReady = true ↔
      s.dec.eof = false ∧ s.dec.rd.v1 = false ∧ s.dec.ph ≠ .done ∧ s.dec.ph ≠ .fault)
    ∧ ((s.status .enc).done = true ↔ s.enc.ph = .done ∧ s.enc.out.valid = false)
    ∧ ((s.status .dec).done = true ↔ s.dec.ph = .done ∧ s.dec.out.valid = false)
    ∧ ((s.status .enc).fault = true ↔ s.enc.ph = .fault) ∧ ((s.status .dec).fault = true ↔ s.dec.ph = .fault)
    ∧ (s.status .enc).outValid = s.enc.out.valid ∧ (s.status .enc).outData = s.enc.out.data
    ∧ (s.status .dec).outValid = s.dec.out.valid ∧ (s.status .dec).outData = s.dec.out.data
    ∧ (s.status .enc).cause = s.enc.cause.code ∧ (s.status .dec).cause = s.dec.cause.code
    ∧ Cause.none.code = 0 ∧ Cause.distRange.code = 1 ∧ Cause.laUnderflow.code = 2

/-- R279, R36: once EOF is set, only RESET clears it and no step accepts another byte. The bytes an encoder unit has
accepted are `consumed_in`; those a decoder unit has accepted have been shifted out or are in its slots. -/
def Obligations.NoInputAfterEof : Prop :=
  ∀ s t : State, step s = next t →
    (s.enc.eof = true → t.enc = EncUnit.reset s.enc.params
      ∨ (t.enc.eof = true ∧ t.enc.consumedIn = s.enc.consumedIn ∧ t.enc.la.count ≤ s.enc.la.count))
    ∧ (s.dec.eof = true → t.dec = DecUnit.reset s.dec.params
      ∨ (t.dec.eof = true
        ∧ t.dec.rd.shifted + t.dec.rd.held.length = s.dec.rd.shifted + s.dec.rd.held.length))

/-- R330: RESET gives every element of the unit the value the rule states, keeps the configuration (R8), leaves the
other unit alone (R322), and what the host has taken remains taken (R333); the status outputs after it. -/
def Obligations.ResetSetsEveryElement : Prop :=
  ∀ s : State,
    exec (.reset .enc) s = next { s with enc := { params := s.enc.params, win := ⟨[], 0, 0⟩, la := ⟨[], 0, 0⟩, eof := false, bw := ⟨0x00, 0⟩, tok := [], ph := .tokenStart, out := ⟨false, 0x00⟩, cause := .none, consumedIn := 0 } }
    ∧ exec (.reset .dec) s = next { s with dec := { params := s.dec.params, win := ⟨[], 0, 0⟩, rd := ⟨0x00, false, 0x00, false, 0, 0⟩, eof := false, ph := .tagBit, k := false, dist := 0, lenv := 0, i := 0, rem := 0, out := ⟨false, 0x00⟩, cause := .none } }
    ∧ (∀ a, Memory.read [] a = 0x00)
    ∧ ∀ u t, exec (.reset u) s = next t → (t.status u).inReady = true ∧ (t.status u).outValid = false
      ∧ (t.status u).done = false ∧ (t.status u).fault = false ∧ (t.status u).cause = 0

/-- R332: a newly built unit is in the state RESET gives, and two RESETs are one. -/
def Obligations.ResetIsConstruction : Prop :=
  ∀ (s t : State) (u : UnitId), exec (.reset u) s = next t →
    exec (.reset u) t = next t
    ∧ (match u with
        | .enc => t.enc = (State.built s.enc.params s.dec.params).enc
        | .dec => t.dec = (State.built s.enc.params s.dec.params).dec)

/-! ## The machine -/

/-- A step executes the instruction its turn brings, in the state with the turn spent and, for a host action or a token,
with the action or the token's bits consumed; a turn that brings none only passes; each phase selects its micro-step;
and the free choice is among the agents (R7, R24, R190, R230; log 3, 4, 5, 6). -/
def Obligations.StepRunsSelectedInstruction : Prop :=
  ∀ (s : State) (i : Instr),
    s.enc.selected = (match s.enc.ph with
      | .tokenStart => if s.enc.la.count = 0 then some .encFlush else some .encDecide
      | .tokenEmit => some .encEmit
      | .done => none
      | .fault => none)
    ∧ s.dec.selected = (match s.dec.ph with
      | .tagBit => some .decTag
      | .literalByte => some .decLit
      | .refDistance => some .decDist
      | .refLength => some .decLen
      | .refEmit => some .decCopy
      | .done => none
      | .fault => none)
    ∧ (s.turn = .encCore → s.enc.selected = some i → step s = exec i s.spendTurn)
    ∧ (s.turn = .decCore → s.dec.selected = some i → step s = exec i s.spendTurn)
    ∧ (∀ a rest, s.turn = .host → s.host.pending = a :: rest → s.spendTurn.allows a = true →
        step s = exec a.toInstr { s.spendTurn with host := { s.host with pending := rest } })
    ∧ (∀ a rest, s.turn = .host → s.host.pending = a :: rest → s.spendTurn.allows a = false →
        step s = next s.spendTurn)
    ∧ (∀ bits d pending rest, s.turn = .token → s.dec.ph = .tagBit →
        s.dec.fetchTokenBits s.host.pending = some (bits, d, pending) →
        decodeBits s.dec.params bits = .ok (i, rest) →
        let s' := { s.spendTurn with dec := d, host := { s.host with pending := pending } }
        step s = if s'.tokenHasRoom i = true then exec i s' else next s.spendTurn)
    ∧ (s.sched = [] → s.turn ≠ .token)
    ∧ (s.fetch = none → step s = next s.spendTurn)

/-- No state stops the machine: a step always answers a next state, the faults of the spec being states of a unit. -/
def Obligations.StepAlwaysAnswersNext : Prop := ∀ s : State, ∃ t, step s = next t

/-- R39, R206: every step keeps the invariants, whatever the turn. -/
def Obligations.StepKeepsInvariants : Prop := ∀ s t : State, s.Inv → step s = next t → t.Inv

/-- R39: the invariants hold at the start of every run, and at `State.reset`. -/
def Obligations.InvariantsHoldAtStart : Prop :=
  State.reset.Inv ∧ ∀ pe pd pending sched tick, (State.start pe pd pending sched tick).Inv

/-- R205, R248, R286, R309, R310: `Fault` and `Done` are left only by RESET: a step keeps the phase, the cause, the
storage, the token registers and the bytes put out; only `eof` and the output register's valid bit can change. -/
def Obligations.EndPhasesAreLeftOnlyByReset : Prop :=
  ∀ s t : State, step s = next t →
    ((s.dec.ph = .fault ∨ s.dec.ph = .done) →
      t.dec = DecUnit.reset s.dec.params
      ∨ (t.dec = { s.dec with eof := t.dec.eof, out := ⟨t.dec.out.valid, s.dec.out.data⟩ }
          ∧ t.output .dec = s.output .dec))
    ∧ ((s.enc.ph = .fault ∨ s.enc.ph = .done) →
      t.enc = EncUnit.reset s.enc.params
      ∨ (t.enc = { s.enc with eof := t.enc.eof, out := ⟨t.enc.out.valid, s.enc.out.data⟩ }
          ∧ t.output .enc = s.output .enc))

/-- R273, R72: an emitted byte is never overwritten, lost or reordered: unless a step resets the unit, the bytes the unit
has put out only grow at the end, and by at most one byte in a step of an agent. R272, R339: a byte goes to the host
exactly with a TAKE that leaves the host's list. -/
def Obligations.EmittedBytesAreNeverLost : Prop :=
  ∀ s t : State, step s = next t →
    (s.output .enc <+: t.output .enc ∨ t.enc = EncUnit.reset s.enc.params)
    ∧ (s.output .dec <+: t.output .dec ∨ t.dec = DecUnit.reset s.dec.params)
    ∧ (s.turn ≠ .token → (t.output .enc).length ≤ (s.output .enc).length + 1
        ∧ (t.output .dec).length ≤ (s.output .dec).length + 1)
    ∧ ∃ acts, s.host.pending = acts ++ t.host.pending
      ∧ t.host.encTaken.length = s.host.encTaken.length + acts.count (.take .enc)
      ∧ t.host.decTaken.length = s.host.decTaken.length + acts.count (.take .dec)

/-- R322: units share nothing: a micro-step of one leaves the other alone, and two units' steps commute. -/
def Obligations.UnitsShareNothing : Prop :=
  ∀ (s : State) (i j : Instr), s.enc.selected = some i → s.dec.selected = some j →
    ∃ a b t, exec i s = next a ∧ exec j s = next b ∧ a.dec = s.dec ∧ b.enc = s.enc ∧ a.host = s.host ∧ b.host = s.host
      ∧ exec j a = next t ∧ exec i b = next t ∧ t.enc = a.enc ∧ t.dec = b.dec

/-! ## Whole streams -/

/-- R207, R285, R345: whatever the turns, a pass in which the host puts the input and signals EOF emits `encode(W, L, I)`:
what has been emitted so far is always an initial part of it, and in `Done` all of it. -/
def Obligations.EncoderPassEmitsReference : Prop :=
  ∀ (pe pd : Params) (input : List Byte) (pending : List HostAct) (sched : List Turn) (tick k : Nat) (s : State),
    encPass input pending → runSteps k (State.start pe pd pending sched tick) = next s →
    s.output .enc <+: refEncode pe input ∧ (s.enc.ph = .done → s.output .enc = refEncode pe input)

/-- R241, R285: likewise the decoder unit outputs `decode(W, L, B)` and ends as it says, in `Done` or in
`Fault(DIST_RANGE)`. -/
def Obligations.DecoderPassOutputsReference : Prop :=
  ∀ (pe pd : Params) (input : List Byte) (pending : List HostAct) (sched : List Turn) (tick k : Nat) (s : State),
    decPass input pending → runSteps k (State.start pe pd pending sched tick) = next s →
    s.output .dec <+: (refDecode pd input).1
    ∧ (s.dec.ph = .done → refDecode pd input = (s.output .dec, false))
    ∧ (s.dec.ph = .fault → refDecode pd input = (s.output .dec, true))

/-- R106, R247: decoding the stream of a token program whose distances are legal executes exactly its tokens and ends
without a fault: the padding adds nothing. -/
def Obligations.StreamDecodesToItsTokens : Prop :=
  ∀ (p : Params) (ts : List Token) (out : List Byte), (∀ t ∈ ts, encodable p t) → programBytes p [] ts = some out →
    refDecode p (encodeStream p ts) = (out, false)

/-- R208: `decode(encode(S)) == S` for all byte sequences and all valid `(W, L)`. -/
def Obligations.RoundTrip : Prop := ∀ (p : Params) (input : List Byte), refDecode p (refEncode p input) = (input, false)

/-- R351: once the input has ended, an encoder whose output is taken reaches `Done`: some turns of the encoder core and the
host, in which the host does nothing but TAKE from the encoder, take it there. No byte put before is dropped: the unit is
not reset on the way, since `consumed_in` is kept. -/
def Obligations.EncoderReachesDone : Prop :=
  ∀ s : State, s.Inv → s.enc.eof = true →
    ∃ (takes : Nat) (turns : List Turn) (t : State), (∀ u ∈ turns, u = .encCore ∨ u = .host)
      ∧ runSteps turns.length
          { s with host := { s.host with pending := List.replicate takes (.take .enc) }, sched := turns } = next t
      ∧ t.enc.isDone = true ∧ t.enc.consumedIn = s.enc.consumedIn ∧ t.host.pending = [] ∧ t.dec = s.dec
      ∧ s.output .enc <+: t.output .enc
end

