-- ==== Sys2Proof/Laws/Bits.lean ====
section
/-! SUPPORT. Bit strings and the token encoding's small lemmas (00_scope R13, R14; 30_encoding R91, R105). -/

namespace Sys2Proof

@[simp] theorem bitsN_length (k v : Nat) : (bitsN k v).length = k := by
  induction k generalizing v with
  | zero => rfl
  | succ k ih => simp [bitsN, ih]

@[simp] theorem byteBits_length (b : Byte) : (byteBits b).length = 8 := bitsN_length 8 _

/-- The value of a bit string continued from a value already read. -/
theorem foldl_ofBits (l : List Bool) (a : Nat) :
    l.foldl (fun v b => 2 * v + b.toNat) a = a * 2 ^ l.length + ofBits l := by
  induction l generalizing a with
  | nil => simp [ofBits]
  | cons b l ih =>
    have h : ofBits (b :: l) = l.foldl (fun v b => 2 * v + b.toNat) b.toNat := by simp [ofBits]
    rw [List.foldl_cons, ih, h, ih, List.length_cons, pow_succ]
    ring

theorem ofBits_cons (b : Bool) (l : List Bool) : ofBits (b :: l) = b.toNat * 2 ^ l.length + ofBits l := by
  have := foldl_ofBits l b.toNat
  simpa [ofBits] using this

theorem ofBits_append (l m : List Bool) : ofBits (l ++ m) = ofBits l * 2 ^ m.length + ofBits m := by
  rw [ofBits, List.foldl_append, foldl_ofBits]
  rfl

theorem ofBits_lt (l : List Bool) : ofBits l < 2 ^ l.length := by
  induction l with
  | nil => simp [ofBits]
  | cons b l ih =>
    rw [ofBits_cons, List.length_cons, pow_succ]
    cases b <;> simp <;> omega

/-- Reading back `bitsN` gives the low bits of the value (R14). -/
theorem ofBits_bitsN (k v : Nat) : ofBits (bitsN k v) = v % 2 ^ k := by
  induction k with
  | zero => simp [bitsN, ofBits, Nat.mod_one]
  | succ k ih =>
    rw [bitsN, ofBits_cons, ih, bitsN_length, Nat.testBit_eq_decide_div_mod_eq, Nat.mod_pow_succ]
    have : (decide (v / 2 ^ k % 2 = 1)).toNat = v / 2 ^ k % 2 := by
      rcases Nat.mod_two_eq_zero_or_one (v / 2 ^ k) with h | h <;> simp [h]
    rw [this]
    ring

theorem ofBits_bitsN_of_lt {k v : Nat} (h : v < 2 ^ k) : ofBits (bitsN k v) = v := by
  rw [ofBits_bitsN, Nat.mod_eq_of_lt h]

/-- `bitsN` looks at the low bits only. -/
theorem bitsN_mod {k m : Nat} (h : k ≤ m) (v : Nat) : bitsN k (v % 2 ^ m) = bitsN k v := by
  induction k with
  | zero => rfl
  | succ k ih =>
    rw [bitsN, bitsN, ih (by omega), Nat.testBit_mod_two_pow]
    simp [show k < m by omega]

/-- A bit string is `bitsN` of its value. -/
theorem bitsN_ofBits (l : List Bool) : bitsN l.length (ofBits l) = l := by
  induction l with
  | nil => rfl
  | cons b l ih =>
    have hlt := ofBits_lt l
    have hdiv : (b.toNat * 2 ^ l.length + ofBits l) / 2 ^ l.length = b.toNat := by
      rw [Nat.add_comm, Nat.add_mul_div_right _ _ (Nat.two_pow_pos _), Nat.div_eq_of_lt hlt, Nat.zero_add]
    have hmod : (b.toNat * 2 ^ l.length + ofBits l) % 2 ^ l.length = ofBits l := by
      rw [Nat.add_comm, Nat.add_mul_mod_self_right, Nat.mod_eq_of_lt hlt]
    rw [List.length_cons, ofBits_cons, bitsN, ← bitsN_mod (le_refl l.length), hmod, ih,
      Nat.testBit_eq_decide_div_mod_eq, hdiv]
    cases b <;> rfl

@[simp] theorem byte_ofBits_byteBits (b : Byte) : BitVec.ofNat 8 (ofBits (byteBits b)) = b := by
  rw [byteBits, ofBits_bitsN_of_lt b.isLt, BitVec.ofNat_toNat, BitVec.setWidth_eq]

/-- `IW` is 8 or 16, as `W <= 7` or `W >= 8` (R94). -/
theorem indexBits_eq (p : Params) : p.indexBits = if p.W ≤ 7 then 8 else 16 := by
  obtain ⟨W, L, hW, hL⟩ := p
  obtain ⟨h1, h2⟩ := hW
  unfold Params.indexBits
  interval_cases W <;> simp

theorem encodeToken_length (p : Params) (t : Token) :
    (encodeToken p t).length = match t with
      | .literal _ => 9
      | .backRef _ _ => 1 + p.indexBits + p.L := by
  cases t with
  | literal b => simp [encodeToken]
  | backRef d n => simp [encodeToken]; omega

end Sys2Proof
end

