-- ==== Sys2Proof/Laws/Memory.lean ====
section
/-! SUPPORT. Ring storage: a read after a write, and the canonical form, which every memory operation keeps. -/

namespace Sys2Proof.Machine

@[simp] theorem memory_read_nil (a : Nat) : Memory.read [] a = Memory.unlisted := rfl

/-- The canonical form read off the first entry. -/
theorem memory_wf_cons (c : Host.Cell) (rest : Memory) :
    Memory.wf (c :: rest) = true ↔
      c.2 ≠ Memory.unlisted ∧ (∀ d ∈ rest.head?, c.1 < d.1) ∧ Memory.wf rest = true := by
  cases rest with
  | nil => simp [Memory.wf]
  | cons d rest => simp [Memory.wf, and_assoc]

/-- In canonical form every later slot is above the first. -/
theorem memory_wf_above {c : Host.Cell} {rest : Memory} (h : Memory.wf (c :: rest) = true) :
    ∀ d ∈ rest, c.1 < d.1 := by
  induction rest generalizing c with
  | nil => simp
  | cons e rest ih =>
    obtain ⟨-, hlt, hrest⟩ := (memory_wf_cons c (e :: rest)).1 h
    have hce : c.1 < e.1 := hlt e (by simp)
    intro d hd
    rcases List.mem_cons.1 hd with rfl | hd
    · exact hce
    · exact lt_trans hce (ih hrest d hd)

/-- A slot below the first entry of a canonical memory is unlisted. -/
theorem memory_read_below (m : Memory) (a : Nat) (h : ∀ d ∈ m, a < d.1) : Memory.read m a = Memory.unlisted := by
  induction m with
  | nil => rfl
  | cons c rest ih =>
    have hc : a < c.1 := h c (by simp)
    simp only [Memory.read, if_neg (Nat.ne_of_lt hc)]
    exact ih fun d hd => h d (by simp [hd])

/-- A read after a write to the same slot gives the value written. -/
theorem memory_read_write_same (m : Memory) (a : Nat) (v : Byte) (hwf : Memory.wf m = true) :
    Memory.read (Memory.write m a v) a = v := by
  induction m with
  | nil =>
    by_cases hv : v = Memory.unlisted <;> simp [Memory.write, Memory.read, hv]
  | cons c rest ih =>
    have habove := memory_wf_above hwf
    have hrest := ((memory_wf_cons c rest).1 hwf).2.2
    by_cases hlt : a < c.1
    · by_cases hv : v = Memory.unlisted
      · simp only [Memory.write, if_pos hlt, if_pos hv]
        rw [hv]
        exact memory_read_below _ _ fun d hd => by
          rcases List.mem_cons.1 hd with rfl | hd
          · exact hlt
          · exact lt_trans hlt (habove d hd)
      · simp [Memory.write, hlt, hv, Memory.read]
    · by_cases heq : a = c.1
      · by_cases hv : v = Memory.unlisted
        · simp only [Memory.write, if_neg hlt, if_pos heq, if_pos hv]
          rw [hv]
          exact memory_read_below _ _ fun d hd => heq ▸ habove d hd
        · simp [Memory.write, heq, hv, Memory.read]
      · simp only [Memory.write, if_neg hlt, if_neg heq, Memory.read]
        exact ih hrest

/-- A write leaves every other slot alone. -/
theorem memory_read_write_other (m : Memory) (a b : Nat) (v : Byte) (hab : b ≠ a) (hwf : Memory.wf m = true) :
    Memory.read (Memory.write m a v) b = Memory.read m b := by
  induction m with
  | nil =>
    by_cases hv : v = Memory.unlisted <;> simp [Memory.write, Memory.read, hv, hab]
  | cons c rest ih =>
    have hrest := ((memory_wf_cons c rest).1 hwf).2.2
    by_cases hlt : a < c.1
    · by_cases hv : v = Memory.unlisted <;> simp [Memory.write, hlt, hv, Memory.read, hab]
    · by_cases heq : a = c.1
      · have hbc : b ≠ c.1 := heq ▸ hab
        by_cases hv : v = Memory.unlisted <;> simp [Memory.write, heq, hv, Memory.read, hbc]
      · simp only [Memory.write, if_neg hlt, if_neg heq, Memory.read, ih hrest]

/-- What a write can list: the slot written, or a slot listed before. -/
theorem memory_mem_write (m : Memory) (a : Nat) (v : Byte) :
    ∀ d ∈ Memory.write m a v, d.1 = a ∨ d ∈ m := by
  induction m with
  | nil => by_cases hv : v = Memory.unlisted <;> simp [Memory.write, hv]
  | cons c rest ih =>
    intro d hd
    simp only [Memory.write] at hd
    split at hd
    · split at hd <;> simp_all <;> grind
    · split at hd
      · split at hd <;> simp_all <;> grind
      · rcases List.mem_cons.1 hd with rfl | hd
        · simp
        · rcases ih d hd with h | h
          · exact .inl h
          · exact .inr (by simp [h])

/-- Every memory operation keeps the canonical form: the only one that changes a memory is the write. -/
theorem memory_write_wf (m : Memory) (a : Nat) (v : Byte) (hwf : Memory.wf m = true) :
    Memory.wf (Memory.write m a v) = true := by
  induction m with
  | nil => by_cases hv : v = Memory.unlisted <;> simp [Memory.write, Memory.wf, hv]
  | cons c rest ih =>
    obtain ⟨hc, hhead, hrest⟩ := (memory_wf_cons c rest).1 hwf
    have habove := memory_wf_above hwf
    simp only [Memory.write]
    split
    · split
      · exact hwf
      · exact (memory_wf_cons _ _).2 ⟨by assumption, by simpa using ‹a < c.1›, hwf⟩
    · split
      · split
        · exact hrest
        · exact (memory_wf_cons _ _).2 ⟨by assumption, fun d hd => ‹a = c.1› ▸ hhead d hd, hrest⟩
      · refine (memory_wf_cons _ _).2 ⟨hc, fun d hd => ?_, ih hrest⟩
        rcases memory_mem_write rest a v d (List.mem_of_mem_head? hd) with h | h
        · omega
        · exact habove d h

/-- A write inside the ring lists only slots of the ring. -/
theorem memory_write_slots (m : Memory) (n a : Nat) (v : Byte) (ha : a < n) (hm : ∀ c ∈ m, c.1 < n) :
    ∀ c ∈ Memory.write m a v, c.1 < n := by
  intro c hc
  rcases memory_mem_write m a v c hc with h | h
  · omega
  · exact hm c h

end Sys2Proof.Machine
end

