-- ==== Sys2Proof/Laws/PerInstr.lean ====
section
/-! SUPPORT. Per-instruction families. EncodedLength: an instruction that has an encoding has the length the opcode
map gives its row, and an operation has no encoding (30_encoding R103). -/

namespace Sys2Proof.Laws.EncodedLength

/-- The length of the instruction's encoding, where it has one. -/
def length? (p : Params) : Instr → Option Nat
  | .lit _ => some 9
  | .ref8 _ _ => some (1 + p.indexBits + p.L)
  | .ref16 _ _ => some (1 + p.indexBits + p.L)
  | .readBit => none
  | .readByte => none
  | .addBit _ => none
  | .addByte _ => none
  | .flushFinal => none
  | .winPush _ _ => none
  | .winRead _ _ => none
  | .laEnq _ => none
  | .laPop => none
  | .laPeek _ => none
  | .encDecide => none
  | .encEmit => none
  | .encFlush => none
  | .decTag => none
  | .decLit => none
  | .decDist => none
  | .decLen => none
  | .decCopy => none
  | .putEnc _ => none
  | .putDec _ => none
  | .eof _ => none
  | .take _ => none
  | .reset _ => none

/-- The encoding has the row's length. -/
def Statement (i : Instr) : Prop := ∀ p : Params, (encode p i).map List.length = length? p i

theorem lit (b : Byte) : Statement (.lit b) := fun p => by simp [encode, Instr.token?, length?, encodeToken_length]
theorem ref8 (d : BitVec 8) (n : Nat) : Statement (.ref8 d n) := fun p => by
  simp [encode, Instr.token?, length?, encodeToken_length]
theorem ref16 (d : Dist) (n : Nat) : Statement (.ref16 d n) := fun p => by
  simp [encode, Instr.token?, length?, encodeToken_length]
theorem readBit : Statement .readBit := fun _ => rfl
theorem readByte : Statement .readByte := fun _ => rfl
theorem addBit (b : Bool) : Statement (.addBit b) := fun _ => rfl
theorem addByte (v : Byte) : Statement (.addByte v) := fun _ => rfl
theorem flushFinal : Statement .flushFinal := fun _ => rfl
theorem winPush (u : UnitId) (v : Byte) : Statement (.winPush u v) := fun _ => rfl
theorem winRead (u : UnitId) (d : Dist) : Statement (.winRead u d) := fun _ => rfl
theorem laEnq (v : Byte) : Statement (.laEnq v) := fun _ => rfl
theorem laPop : Statement .laPop := fun _ => rfl
theorem laPeek (i : Nat) : Statement (.laPeek i) := fun _ => rfl
theorem encDecide : Statement .encDecide := fun _ => rfl
theorem encEmit : Statement .encEmit := fun _ => rfl
theorem encFlush : Statement .encFlush := fun _ => rfl
theorem decTag : Statement .decTag := fun _ => rfl
theorem decLit : Statement .decLit := fun _ => rfl
theorem decDist : Statement .decDist := fun _ => rfl
theorem decLen : Statement .decLen := fun _ => rfl
theorem decCopy : Statement .decCopy := fun _ => rfl
theorem putEnc (b : Byte) : Statement (.putEnc b) := fun _ => rfl
theorem putDec (b : Byte) : Statement (.putDec b) := fun _ => rfl
theorem eof (u : UnitId) : Statement (.eof u) := fun _ => rfl
theorem take (u : UnitId) : Statement (.take u) := fun _ => rfl
theorem reset (u : UnitId) : Statement (.reset u) := fun _ => rfl

end Sys2Proof.Laws.EncodedLength
end

