-- ==== Sys2Proof/Laws/Ring.lean ====
section
/-! SUPPORT. The window and the queue against their abstract views (10_state R23, R30, R40; 42_window_lookahead). -/

namespace Sys2Proof.Machine

theorem params_wsize_pos (p : Params) : 0 < p.wsize := Nat.two_pow_pos p.W

theorem params_lsize_pos (p : Params) : 0 < p.lsize := Nat.two_pow_pos p.L

/-! ## Remainders of ring addresses -/

theorem mod_of_between {a n : Nat} (h₁ : n ≤ a) (h₂ : a < 2 * n) : a % n = a - n := by
  rw [Nat.mod_eq_sub_mod h₁, Nat.mod_eq_of_lt (by omega)]

/-- A ring address one lap up or not. -/
theorem ring_mod {a n : Nat} (h : a < 2 * n) : a % n = if a < n then a else a - n := by
  split
  · exact Nat.mod_eq_of_lt ‹_›
  · exact mod_of_between (by omega) h

/-! ## Window -/

@[simp] theorem hist_length (n : Nat) (w : Window) : (w.hist n).length = w.count := by simp [Window.hist]

/-- The slot of logical position `q` (R23). -/
def histSlot (n : Nat) (w : Window) (q : Nat) : Nat := (w.head + (n - w.count % n) + q) % n

theorem hist_getElem (n : Nat) (w : Window) (q : Nat) (h : q < (w.hist n).length) :
    (w.hist n)[q] = Memory.read w.buf (histSlot n w q) := by
  simp [Window.hist, histSlot]

/-- Until the window is full, logical position `q` is slot `q`. -/
theorem histSlot_filling {n : Nat} {w : Window} (hok : w.Ok n) (hlt : w.count < n) {q : Nat} (hq : q < n) :
    histSlot n w q = q := by
  obtain ⟨-, -, -, -, hh⟩ := hok
  have := hh hlt
  rw [histSlot, Nat.mod_eq_of_lt hlt, this, ring_mod (by omega)]
  split <;> omega

/-- Once it is full, logical position `q` is `q` slots after the pointer. -/
theorem histSlot_full {n : Nat} {w : Window} (hok : w.Ok n) (hfull : w.count = n) {q : Nat} (hq : q < n) :
    histSlot n w q = if w.head + q < n then w.head + q else w.head + q - n := by
  obtain ⟨-, -, hhead, -, -⟩ := hok
  rw [histSlot, hfull, Nat.mod_self, Nat.sub_zero, Nat.add_right_comm, Nat.add_mod_right, ring_mod (by omega)]

theorem slot_eq_histSlot {n : Nat} {w : Window} (hok : w.Ok n) {d : Nat} (hd : d < w.count) :
    w.slot n d = histSlot n w (w.count - 1 - d) := by
  have hcount := hok.2.2.2.1
  have hhead := hok.2.2.1
  have hdn : d % n = d := Nat.mod_eq_of_lt (by omega)
  rcases Nat.lt_or_ge w.count n with hlt | hge
  · have := hok.2.2.2.2 hlt
    rw [histSlot_filling hok hlt (by omega), Window.slot, hdn, ring_mod (by omega)]
    split <;> omega
  · rw [histSlot_full hok (by omega) (by omega), Window.slot, hdn, ring_mod (by omega)]
    split <;> split <;> omega

/-- WIN_READ in the abstract view: `hist[len(hist) - 1 - d]` (R162). -/
theorem window_read_hist {n : Nat} {w : Window} (hok : w.Ok n) {d : Nat} (hd : d < w.count) :
    w.read n d = (w.hist n)[w.count - 1 - d]? := by
  rw [List.getElem?_eq_getElem (by simp; omega), hist_getElem, Window.read, if_neg (by omega), slot_eq_histSlot hok hd]

/-- WIN_READ raises exactly at `d >= count` (R162). -/
theorem window_read_none {n : Nat} {w : Window} {d : Nat} : w.read n d = none ↔ w.count ≤ d := by
  unfold Window.read
  split <;> simp_all

/-- WIN_PUSH keeps the window's invariants (R39). -/
theorem window_push_ok {n : Nat} {w : Window} (hok : w.Ok n) (v : Byte) : (w.push n v).Ok n := by
  obtain ⟨hwf, hslots, hhead, hcount, hfill⟩ := hok
  refine ⟨memory_write_wf _ _ _ hwf, memory_write_slots _ _ _ _ hhead hslots, Nat.mod_lt _ (by omega), ?_, ?_⟩
  · simp [Window.push]
  · intro hlt
    simp only [Window.push] at hlt ⊢
    have hc : w.count < n := by omega
    have := hfill hc
    rw [Nat.mod_eq_of_lt (by omega)]
    omega

/-- WIN_PUSH in the abstract view: `hist <- last WSIZE elements of (hist ++ [v])` (R161). -/
theorem window_push_hist {n : Nat} {w : Window} (hok : w.Ok n) (v : Byte) :
    (w.push n v).hist n = lastN n (w.hist n ++ [v]) := by
  have hok' := window_push_ok hok v
  obtain ⟨hwf, -, hhead, hcount, hfill⟩ := id hok
  apply List.ext_getElem
  · simp [Window.push, lastN]
    omega
  · intro q h₁ h₂
    have hq : q < min (w.count + 1) n := by simpa [Window.push] using h₁
    rw [hist_getElem]
    simp only [lastN, List.getElem_drop, hist_length, List.length_append, List.length_singleton]
    rcases Nat.lt_or_ge w.count n with hlt | hge
    · -- filling: slot q, and the pushed byte is in slot `count`
      have hslot : histSlot n (w.push n v) q = q := by
        rcases Nat.lt_or_ge (w.count + 1) n with h | h
        · exact histSlot_filling hok' (by simp [Window.push]; omega) (by omega)
        · have hfull : (w.push n v).count = n := by simp [Window.push]; omega
          have hh : (w.push n v).head = 0 := by
            have := hfill hlt
            simp only [Window.push]
            rw [this, show w.count + 1 = n by omega, Nat.mod_self]
          rw [histSlot_full hok' hfull (by omega), hh]
          simp; omega
      have hz : w.count + 1 - n = 0 := by omega
      rw [hslot]
      simp only [hz, Nat.zero_add]
      rcases Nat.lt_or_ge q w.count with hqc | hqc
      · rw [List.getElem_append_left (by simpa using hqc), hist_getElem, histSlot_filling hok hlt (by omega)]
        exact memory_read_write_other _ _ _ _ (by have := hfill hlt; omega) hwf
      · have hqe : q = w.count := by omega
        rw [List.getElem_append_right (by simpa using hqc)]
        simp only [List.getElem_singleton]
        have := hfill hlt
        rw [show q = w.head by omega]
        exact memory_read_write_same _ _ _ hwf
    · -- full: everything moves one position down
      have hfull : w.count = n := by omega
      have hfull' : (w.push n v).count = n := by simp [Window.push]; omega
      have hhead' : (w.push n v).head = if w.head + 1 < n then w.head + 1 else 0 := by
        simp only [Window.push]
        rw [ring_mod (by omega)]
        split <;> omega
      have hd : w.count + 1 - n = 1 := by omega
      simp only [hd]
      rw [histSlot_full hok' hfull' (by omega), hhead']
      rcases Nat.lt_or_ge (1 + q) w.count with hqc | hqc
      · rw [List.getElem_append_left (by simpa using hqc), hist_getElem, histSlot_full hok hfull (by omega)]
        have : (if (if w.head + 1 < n then w.head + 1 else 0) + q < n then (if w.head + 1 < n then w.head + 1 else 0) + q
            else (if w.head + 1 < n then w.head + 1 else 0) + q - n) =
            if w.head + (1 + q) < n then w.head + (1 + q) else w.head + (1 + q) - n := by
          split <;> split <;> split <;> omega
        rw [this]
        exact memory_read_write_other _ _ _ _ (by split <;> omega) hwf
      · rw [List.getElem_append_right (by simpa using hqc)]
        simp only [List.getElem_singleton]
        have : (if (if w.head + 1 < n then w.head + 1 else 0) + q < n then (if w.head + 1 < n then w.head + 1 else 0) + q
            else (if w.head + 1 < n then w.head + 1 else 0) + q - n) = w.head := by
          split <;> split <;> omega
        rw [this]
        exact memory_read_write_same _ _ _ hwf

/-- A window that RESET left is sound and empty. -/
theorem window_reset_ok {n : Nat} (hn : 0 < n) : Window.reset.Ok n := by
  simp [Window.Ok, Window.reset, Memory.wf, hn]

/-! ## Lookahead queue -/

@[simp] theorem content_length (n : Nat) (q : Queue) : (q.content n).length = q.count := by simp [Queue.content]

theorem content_getElem (n : Nat) (q : Queue) (i : Nat) (h : i < (q.content n).length) :
    (q.content n)[i] = Memory.read q.buf ((q.rd + i) % n) := by
  simp [Queue.content, Queue.peek]

theorem content_getElem? (n : Nat) (q : Queue) {i : Nat} (h : i < q.count) : (q.content n)[i]? = some (q.peek n i) := by
  rw [List.getElem?_eq_getElem (by simpa using h), content_getElem]
  rfl

/-- LA_ENQ keeps the queue's invariants while it is not full. -/
theorem queue_enq_ok {n : Nat} {q : Queue} (hok : q.Ok n) (hroom : q.count < n) (v : Byte) : (q.enq n v).Ok n := by
  obtain ⟨hwf, hslots, hrd, -⟩ := hok
  exact ⟨memory_write_wf _ _ _ hwf, memory_write_slots _ _ _ _ (Nat.mod_lt _ (by omega)) hslots, hrd, hroom⟩

/-- LA_ENQ in the abstract view: `queue <- queue ++ [v]` (R168). -/
theorem queue_enq_content {n : Nat} {q : Queue} (hok : q.Ok n) (hroom : q.count < n) (v : Byte) :
    (q.enq n v).content n = q.content n ++ [v] := by
  obtain ⟨hwf, -, hrd, -⟩ := hok
  apply List.ext_getElem
  · simp [Queue.enq]
  · intro i h₁ h₂
    have hi : i < q.count + 1 := by simpa [Queue.enq] using h₁
    rw [content_getElem]
    simp only [Queue.enq]
    rcases Nat.lt_or_ge i q.count with h | h
    · rw [List.getElem_append_left (by simpa using h), content_getElem]
      refine memory_read_write_other _ _ _ _ ?_ hwf
      rw [ring_mod (by omega), ring_mod (by omega)]
      split <;> split <;> omega
    · rw [List.getElem_append_right (by simpa using h)]
      simp only [List.getElem_singleton]
      rw [show i = q.count by omega]
      exact memory_read_write_same _ _ _ hwf

/-- LA_POP keeps the queue's invariants. -/
theorem queue_pop_ok {n : Nat} {q q' : Queue} {v : Byte} (hok : q.Ok n) (h : q.pop n = some (v, q')) : q'.Ok n := by
  obtain ⟨hwf, hslots, hrd, hcount⟩ := hok
  unfold Queue.pop at h
  split at h
  · cases h
  · cases h
    exact ⟨hwf, hslots, Nat.mod_lt _ (by omega), by simp only; omega⟩

/-- LA_POP raises exactly on an empty queue (R169). -/
theorem queue_pop_none {n : Nat} {q : Queue} : q.pop n = none ↔ q.count = 0 := by
  unfold Queue.pop
  split <;> simp_all

/-- LA_POP in the abstract view: `v = queue[0]; queue <- queue[1..]` (R169). -/
theorem queue_pop_content {n : Nat} {q q' : Queue} {v : Byte} (hok : q.Ok n) (h : q.pop n = some (v, q')) :
    q.content n = v :: q'.content n := by
  obtain ⟨-, -, hrd, hcount⟩ := hok
  unfold Queue.pop at h
  split at h
  · cases h
  · cases h
    apply List.ext_getElem
    · simp; omega
    · intro i h₁ h₂
      have hi : i < q.count := by simpa using h₁
      rw [content_getElem]
      cases i with
      | zero => simp [Nat.mod_eq_of_lt hrd]
      | succ i =>
        rw [List.getElem_cons_succ, content_getElem, Nat.add_mod ((q.rd + 1) % n), Nat.mod_mod, ← Nat.add_mod]
        congr 2
        omega

/-- A queue that RESET left is sound and empty. -/
theorem queue_reset_ok {n : Nat} (hn : 0 < n) : Queue.reset.Ok n := by
  simp [Queue.Ok, Queue.reset, Memory.wf, hn]

end Sys2Proof.Machine
end

