-- ==== Sys2Proof/Laws/State.lean ====
section
/-! SUPPORT. One lemma per field per update of State, true by rfl, so that no proof unfolds a record update. -/

namespace Sys2Proof.Machine

@[simp] theorem setWindow_enc_enc (s : State) (w : Window) : (s.setWindow .enc w).enc = { s.enc with win := w } := rfl
@[simp] theorem setWindow_enc_dec (s : State) (w : Window) : (s.setWindow .enc w).dec = s.dec := rfl
@[simp] theorem setWindow_enc_host (s : State) (w : Window) : (s.setWindow .enc w).host = s.host := rfl
@[simp] theorem setWindow_enc_sched (s : State) (w : Window) : (s.setWindow .enc w).sched = s.sched := rfl
@[simp] theorem setWindow_enc_tick (s : State) (w : Window) : (s.setWindow .enc w).tick = s.tick := rfl
@[simp] theorem setWindow_enc_result (s : State) (w : Window) : (s.setWindow .enc w).result = s.result := rfl
@[simp] theorem setEof_enc_enc (s : State) : (s.setEof .enc).enc = { s.enc with eof := true } := rfl
@[simp] theorem setEof_enc_dec (s : State) : (s.setEof .enc).dec = s.dec := rfl
@[simp] theorem setEof_enc_host (s : State) : (s.setEof .enc).host = s.host := rfl
@[simp] theorem setEof_enc_sched (s : State) : (s.setEof .enc).sched = s.sched := rfl
@[simp] theorem setEof_enc_tick (s : State) : (s.setEof .enc).tick = s.tick := rfl
@[simp] theorem setEof_enc_result (s : State) : (s.setEof .enc).result = s.result := rfl
@[simp] theorem takeByte_enc_enc (s : State) : (s.takeByte .enc).enc = { s.enc with out := s.enc.out.taken } := rfl
@[simp] theorem takeByte_enc_host (s : State) : (s.takeByte .enc).host = { s.host with encTaken := s.host.encTaken ++ [s.enc.out.data] } := rfl
@[simp] theorem takeByte_enc_dec (s : State) : (s.takeByte .enc).dec = s.dec := rfl
@[simp] theorem takeByte_enc_sched (s : State) : (s.takeByte .enc).sched = s.sched := rfl
@[simp] theorem takeByte_enc_tick (s : State) : (s.takeByte .enc).tick = s.tick := rfl
@[simp] theorem takeByte_enc_result (s : State) : (s.takeByte .enc).result = s.result := rfl
@[simp] theorem raise_enc_enc (s : State) (c : Cause) : (s.raise .enc c).enc = s.enc.raise c := rfl
@[simp] theorem raise_enc_dec (s : State) (c : Cause) : (s.raise .enc c).dec = s.dec := rfl
@[simp] theorem raise_enc_host (s : State) (c : Cause) : (s.raise .enc c).host = s.host := rfl
@[simp] theorem raise_enc_sched (s : State) (c : Cause) : (s.raise .enc c).sched = s.sched := rfl
@[simp] theorem raise_enc_tick (s : State) (c : Cause) : (s.raise .enc c).tick = s.tick := rfl
@[simp] theorem raise_enc_result (s : State) (c : Cause) : (s.raise .enc c).result = s.result := rfl
@[simp] theorem resetUnit_enc_enc (s : State) : (s.resetUnit .enc).enc = EncUnit.reset s.enc.params := rfl
@[simp] theorem resetUnit_enc_dec (s : State) : (s.resetUnit .enc).dec = s.dec := rfl
@[simp] theorem resetUnit_enc_host (s : State) : (s.resetUnit .enc).host = s.host := rfl
@[simp] theorem resetUnit_enc_sched (s : State) : (s.resetUnit .enc).sched = s.sched := rfl
@[simp] theorem resetUnit_enc_tick (s : State) : (s.resetUnit .enc).tick = s.tick := rfl
@[simp] theorem resetUnit_enc_result (s : State) : (s.resetUnit .enc).result = s.result := rfl
@[simp] theorem window_enc (s : State) : s.window .enc = s.enc.win := rfl
@[simp] theorem params_enc (s : State) : s.params .enc = s.enc.params := rfl
@[simp] theorem eofOf_enc (s : State) : s.eofOf .enc = s.enc.eof := rfl
@[simp] theorem outOf_enc (s : State) : s.outOf .enc = s.enc.out := rfl
@[simp] theorem takenOf_enc (s : State) : s.takenOf .enc = s.host.encTaken := rfl
@[simp] theorem status_enc (s : State) : s.status .enc = s.enc.status := rfl

@[simp] theorem setWindow_dec_dec (s : State) (w : Window) : (s.setWindow .dec w).dec = { s.dec with win := w } := rfl
@[simp] theorem setWindow_dec_enc (s : State) (w : Window) : (s.setWindow .dec w).enc = s.enc := rfl
@[simp] theorem setWindow_dec_host (s : State) (w : Window) : (s.setWindow .dec w).host = s.host := rfl
@[simp] theorem setWindow_dec_sched (s : State) (w : Window) : (s.setWindow .dec w).sched = s.sched := rfl
@[simp] theorem setWindow_dec_tick (s : State) (w : Window) : (s.setWindow .dec w).tick = s.tick := rfl
@[simp] theorem setWindow_dec_result (s : State) (w : Window) : (s.setWindow .dec w).result = s.result := rfl
@[simp] theorem setEof_dec_dec (s : State) : (s.setEof .dec).dec = { s.dec with eof := true } := rfl
@[simp] theorem setEof_dec_enc (s : State) : (s.setEof .dec).enc = s.enc := rfl
@[simp] theorem setEof_dec_host (s : State) : (s.setEof .dec).host = s.host := rfl
@[simp] theorem setEof_dec_sched (s : State) : (s.setEof .dec).sched = s.sched := rfl
@[simp] theorem setEof_dec_tick (s : State) : (s.setEof .dec).tick = s.tick := rfl
@[simp] theorem setEof_dec_result (s : State) : (s.setEof .dec).result = s.result := rfl
@[simp] theorem takeByte_dec_dec (s : State) : (s.takeByte .dec).dec = { s.dec with out := s.dec.out.taken } := rfl
@[simp] theorem takeByte_dec_host (s : State) : (s.takeByte .dec).host = { s.host with decTaken := s.host.decTaken ++ [s.dec.out.data] } := rfl
@[simp] theorem takeByte_dec_enc (s : State) : (s.takeByte .dec).enc = s.enc := rfl
@[simp] theorem takeByte_dec_sched (s : State) : (s.takeByte .dec).sched = s.sched := rfl
@[simp] theorem takeByte_dec_tick (s : State) : (s.takeByte .dec).tick = s.tick := rfl
@[simp] theorem takeByte_dec_result (s : State) : (s.takeByte .dec).result = s.result := rfl
@[simp] theorem raise_dec_dec (s : State) (c : Cause) : (s.raise .dec c).dec = s.dec.raise c := rfl
@[simp] theorem raise_dec_enc (s : State) (c : Cause) : (s.raise .dec c).enc = s.enc := rfl
@[simp] theorem raise_dec_host (s : State) (c : Cause) : (s.raise .dec c).host = s.host := rfl
@[simp] theorem raise_dec_sched (s : State) (c : Cause) : (s.raise .dec c).sched = s.sched := rfl
@[simp] theorem raise_dec_tick (s : State) (c : Cause) : (s.raise .dec c).tick = s.tick := rfl
@[simp] theorem raise_dec_result (s : State) (c : Cause) : (s.raise .dec c).result = s.result := rfl
@[simp] theorem resetUnit_dec_dec (s : State) : (s.resetUnit .dec).dec = DecUnit.reset s.dec.params := rfl
@[simp] theorem resetUnit_dec_enc (s : State) : (s.resetUnit .dec).enc = s.enc := rfl
@[simp] theorem resetUnit_dec_host (s : State) : (s.resetUnit .dec).host = s.host := rfl
@[simp] theorem resetUnit_dec_sched (s : State) : (s.resetUnit .dec).sched = s.sched := rfl
@[simp] theorem resetUnit_dec_tick (s : State) : (s.resetUnit .dec).tick = s.tick := rfl
@[simp] theorem resetUnit_dec_result (s : State) : (s.resetUnit .dec).result = s.result := rfl
@[simp] theorem window_dec (s : State) : s.window .dec = s.dec.win := rfl
@[simp] theorem params_dec (s : State) : s.params .dec = s.dec.params := rfl
@[simp] theorem eofOf_dec (s : State) : s.eofOf .dec = s.dec.eof := rfl
@[simp] theorem outOf_dec (s : State) : s.outOf .dec = s.dec.out := rfl
@[simp] theorem takenOf_dec (s : State) : s.takenOf .dec = s.host.decTaken := rfl
@[simp] theorem status_dec (s : State) : s.status .dec = s.dec.status := rfl

@[simp] theorem enc_raise_params (e : EncUnit) (c : Cause) : (e.raise c).params = e.params := rfl
@[simp] theorem enc_raise_win (e : EncUnit) (c : Cause) : (e.raise c).win = e.win := rfl
@[simp] theorem enc_raise_la (e : EncUnit) (c : Cause) : (e.raise c).la = e.la := rfl
@[simp] theorem enc_raise_eof (e : EncUnit) (c : Cause) : (e.raise c).eof = e.eof := rfl
@[simp] theorem enc_raise_bw (e : EncUnit) (c : Cause) : (e.raise c).bw = e.bw := rfl
@[simp] theorem enc_raise_tok (e : EncUnit) (c : Cause) : (e.raise c).tok = e.tok := rfl
@[simp] theorem enc_raise_ph (e : EncUnit) (c : Cause) : (e.raise c).ph = .fault := rfl
@[simp] theorem enc_raise_out (e : EncUnit) (c : Cause) : (e.raise c).out = e.out := rfl
@[simp] theorem enc_raise_cause (e : EncUnit) (c : Cause) : (e.raise c).cause = c := rfl
@[simp] theorem enc_raise_consumedIn (e : EncUnit) (c : Cause) : (e.raise c).consumedIn = e.consumedIn := rfl
@[simp] theorem dec_raise_params (d : DecUnit) (c : Cause) : (d.raise c).params = d.params := rfl
@[simp] theorem dec_raise_win (d : DecUnit) (c : Cause) : (d.raise c).win = d.win := rfl
@[simp] theorem dec_raise_rd (d : DecUnit) (c : Cause) : (d.raise c).rd = d.rd := rfl
@[simp] theorem dec_raise_eof (d : DecUnit) (c : Cause) : (d.raise c).eof = d.eof := rfl
@[simp] theorem dec_raise_ph (d : DecUnit) (c : Cause) : (d.raise c).ph = .fault := rfl
@[simp] theorem dec_raise_k (d : DecUnit) (c : Cause) : (d.raise c).k = d.k := rfl
@[simp] theorem dec_raise_dist (d : DecUnit) (c : Cause) : (d.raise c).dist = d.dist := rfl
@[simp] theorem dec_raise_lenv (d : DecUnit) (c : Cause) : (d.raise c).lenv = d.lenv := rfl
@[simp] theorem dec_raise_i (d : DecUnit) (c : Cause) : (d.raise c).i = d.i := rfl
@[simp] theorem dec_raise_rem (d : DecUnit) (c : Cause) : (d.raise c).rem = d.rem := rfl
@[simp] theorem dec_raise_out (d : DecUnit) (c : Cause) : (d.raise c).out = d.out := rfl
@[simp] theorem dec_raise_cause (d : DecUnit) (c : Cause) : (d.raise c).cause = c := rfl
@[simp] theorem enc_winPush_params (e : EncUnit) (v : Byte) : (e.winPush v).params = e.params := rfl
@[simp] theorem enc_winPush_win (e : EncUnit) (v : Byte) : (e.winPush v).win = e.win.push e.params.wsize v := rfl
@[simp] theorem enc_winPush_la (e : EncUnit) (v : Byte) : (e.winPush v).la = e.la := rfl
@[simp] theorem enc_winPush_eof (e : EncUnit) (v : Byte) : (e.winPush v).eof = e.eof := rfl
@[simp] theorem enc_winPush_bw (e : EncUnit) (v : Byte) : (e.winPush v).bw = e.bw := rfl
@[simp] theorem enc_winPush_tok (e : EncUnit) (v : Byte) : (e.winPush v).tok = e.tok := rfl
@[simp] theorem enc_winPush_ph (e : EncUnit) (v : Byte) : (e.winPush v).ph = e.ph := rfl
@[simp] theorem enc_winPush_out (e : EncUnit) (v : Byte) : (e.winPush v).out = e.out := rfl
@[simp] theorem enc_winPush_cause (e : EncUnit) (v : Byte) : (e.winPush v).cause = e.cause := rfl
@[simp] theorem enc_winPush_consumedIn (e : EncUnit) (v : Byte) : (e.winPush v).consumedIn = e.consumedIn := rfl
@[simp] theorem dec_winPush_params (d : DecUnit) (v : Byte) : (d.winPush v).params = d.params := rfl
@[simp] theorem dec_winPush_win (d : DecUnit) (v : Byte) : (d.winPush v).win = d.win.push d.params.wsize v := rfl
@[simp] theorem dec_winPush_rd (d : DecUnit) (v : Byte) : (d.winPush v).rd = d.rd := rfl
@[simp] theorem dec_winPush_eof (d : DecUnit) (v : Byte) : (d.winPush v).eof = d.eof := rfl
@[simp] theorem dec_winPush_ph (d : DecUnit) (v : Byte) : (d.winPush v).ph = d.ph := rfl
@[simp] theorem dec_winPush_k (d : DecUnit) (v : Byte) : (d.winPush v).k = d.k := rfl
@[simp] theorem dec_winPush_dist (d : DecUnit) (v : Byte) : (d.winPush v).dist = d.dist := rfl
@[simp] theorem dec_winPush_lenv (d : DecUnit) (v : Byte) : (d.winPush v).lenv = d.lenv := rfl
@[simp] theorem dec_winPush_i (d : DecUnit) (v : Byte) : (d.winPush v).i = d.i := rfl
@[simp] theorem dec_winPush_rem (d : DecUnit) (v : Byte) : (d.winPush v).rem = d.rem := rfl
@[simp] theorem dec_winPush_out (d : DecUnit) (v : Byte) : (d.winPush v).out = d.out := rfl
@[simp] theorem dec_winPush_cause (d : DecUnit) (v : Byte) : (d.winPush v).cause = d.cause := rfl
@[simp] theorem dec_produce_params (d : DecUnit) (v : Byte) : (d.produce v).params = d.params := rfl
@[simp] theorem dec_produce_win (d : DecUnit) (v : Byte) : (d.produce v).win = d.win.push d.params.wsize v := rfl
@[simp] theorem dec_produce_rd (d : DecUnit) (v : Byte) : (d.produce v).rd = d.rd := rfl
@[simp] theorem dec_produce_eof (d : DecUnit) (v : Byte) : (d.produce v).eof = d.eof := rfl
@[simp] theorem dec_produce_ph (d : DecUnit) (v : Byte) : (d.produce v).ph = d.ph := rfl
@[simp] theorem dec_produce_k (d : DecUnit) (v : Byte) : (d.produce v).k = d.k := rfl
@[simp] theorem dec_produce_dist (d : DecUnit) (v : Byte) : (d.produce v).dist = d.dist := rfl
@[simp] theorem dec_produce_lenv (d : DecUnit) (v : Byte) : (d.produce v).lenv = d.lenv := rfl
@[simp] theorem dec_produce_i (d : DecUnit) (v : Byte) : (d.produce v).i = d.i := rfl
@[simp] theorem dec_produce_rem (d : DecUnit) (v : Byte) : (d.produce v).rem = d.rem := rfl
@[simp] theorem dec_produce_out (d : DecUnit) (v : Byte) : (d.produce v).out = ⟨true, v⟩ := rfl
@[simp] theorem dec_produce_cause (d : DecUnit) (v : Byte) : (d.produce v).cause = d.cause := rfl
@[simp] theorem enc_loadToken_params (e : EncUnit) (t : Token) : (e.loadToken t).params = e.params := rfl
@[simp] theorem enc_loadToken_win (e : EncUnit) (t : Token) : (e.loadToken t).win = e.win := rfl
@[simp] theorem enc_loadToken_la (e : EncUnit) (t : Token) : (e.loadToken t).la = e.la := rfl
@[simp] theorem enc_loadToken_eof (e : EncUnit) (t : Token) : (e.loadToken t).eof = e.eof := rfl
@[simp] theorem enc_loadToken_bw (e : EncUnit) (t : Token) : (e.loadToken t).bw = e.bw := rfl
@[simp] theorem enc_loadToken_tok (e : EncUnit) (t : Token) : (e.loadToken t).tok = encodeToken e.params t := rfl
@[simp] theorem enc_loadToken_ph (e : EncUnit) (t : Token) : (e.loadToken t).ph = .tokenEmit := rfl
@[simp] theorem enc_loadToken_out (e : EncUnit) (t : Token) : (e.loadToken t).out = e.out := rfl
@[simp] theorem enc_loadToken_cause (e : EncUnit) (t : Token) : (e.loadToken t).cause = e.cause := rfl
@[simp] theorem enc_loadToken_consumedIn (e : EncUnit) (t : Token) : (e.loadToken t).consumedIn = e.consumedIn := rfl
@[simp] theorem enc_endWrite_params (e : EncUnit) (r : Writer × Option Byte) : (e.endWrite r).params = e.params := rfl
@[simp] theorem enc_endWrite_win (e : EncUnit) (r : Writer × Option Byte) : (e.endWrite r).win = e.win := rfl
@[simp] theorem enc_endWrite_la (e : EncUnit) (r : Writer × Option Byte) : (e.endWrite r).la = e.la := rfl
@[simp] theorem enc_endWrite_eof (e : EncUnit) (r : Writer × Option Byte) : (e.endWrite r).eof = e.eof := rfl
@[simp] theorem enc_endWrite_bw (e : EncUnit) (r : Writer × Option Byte) : (e.endWrite r).bw = r.1 := rfl
@[simp] theorem enc_endWrite_tok (e : EncUnit) (r : Writer × Option Byte) : (e.endWrite r).tok = e.tok := rfl
@[simp] theorem enc_endWrite_ph (e : EncUnit) (r : Writer × Option Byte) : (e.endWrite r).ph = e.ph := rfl
@[simp] theorem enc_endWrite_out (e : EncUnit) (r : Writer × Option Byte) : (e.endWrite r).out = e.out.emit? r.2 := rfl
@[simp] theorem enc_endWrite_cause (e : EncUnit) (r : Writer × Option Byte) : (e.endWrite r).cause = e.cause := rfl
@[simp] theorem enc_endWrite_consumedIn (e : EncUnit) (r : Writer × Option Byte) : (e.endWrite r).consumedIn = e.consumedIn := rfl
@[simp] theorem enc_put_params (e : EncUnit) (b : Byte) : (e.put b).params = e.params := rfl
@[simp] theorem enc_put_win (e : EncUnit) (b : Byte) : (e.put b).win = e.win := rfl
@[simp] theorem enc_put_la (e : EncUnit) (b : Byte) : (e.put b).la = e.la.enq e.params.lsize b := rfl
@[simp] theorem enc_put_eof (e : EncUnit) (b : Byte) : (e.put b).eof = e.eof := rfl
@[simp] theorem enc_put_bw (e : EncUnit) (b : Byte) : (e.put b).bw = e.bw := rfl
@[simp] theorem enc_put_tok (e : EncUnit) (b : Byte) : (e.put b).tok = e.tok := rfl
@[simp] theorem enc_put_ph (e : EncUnit) (b : Byte) : (e.put b).ph = e.ph := rfl
@[simp] theorem enc_put_out (e : EncUnit) (b : Byte) : (e.put b).out = e.out := rfl
@[simp] theorem enc_put_cause (e : EncUnit) (b : Byte) : (e.put b).cause = e.cause := rfl
@[simp] theorem enc_put_consumedIn (e : EncUnit) (b : Byte) : (e.put b).consumedIn = e.consumedIn + 1 := rfl
@[simp] theorem dec_put_params (d : DecUnit) (b : Byte) : (d.put b).params = d.params := rfl
@[simp] theorem dec_put_win (d : DecUnit) (b : Byte) : (d.put b).win = d.win := rfl
@[simp] theorem dec_put_rd (d : DecUnit) (b : Byte) : (d.put b).rd = d.rd.put b := rfl
@[simp] theorem dec_put_eof (d : DecUnit) (b : Byte) : (d.put b).eof = d.eof := rfl
@[simp] theorem dec_put_ph (d : DecUnit) (b : Byte) : (d.put b).ph = d.ph := rfl
@[simp] theorem dec_put_k (d : DecUnit) (b : Byte) : (d.put b).k = d.k := rfl
@[simp] theorem dec_put_dist (d : DecUnit) (b : Byte) : (d.put b).dist = d.dist := rfl
@[simp] theorem dec_put_lenv (d : DecUnit) (b : Byte) : (d.put b).lenv = d.lenv := rfl
@[simp] theorem dec_put_i (d : DecUnit) (b : Byte) : (d.put b).i = d.i := rfl
@[simp] theorem dec_put_rem (d : DecUnit) (b : Byte) : (d.put b).rem = d.rem := rfl
@[simp] theorem dec_put_out (d : DecUnit) (b : Byte) : (d.put b).out = d.out := rfl
@[simp] theorem dec_put_cause (d : DecUnit) (b : Byte) : (d.put b).cause = d.cause := rfl
@[simp] theorem dec_loadRef_params (d : DecUnit) (k : Bool) (dist : Dist) (n : Nat) : (d.loadRef k dist n).params = d.params := rfl
@[simp] theorem dec_loadRef_win (d : DecUnit) (k : Bool) (dist : Dist) (n : Nat) : (d.loadRef k dist n).win = d.win := rfl
@[simp] theorem dec_loadRef_rd (d : DecUnit) (k : Bool) (dist : Dist) (n : Nat) : (d.loadRef k dist n).rd = d.rd := rfl
@[simp] theorem dec_loadRef_eof (d : DecUnit) (k : Bool) (dist : Dist) (n : Nat) : (d.loadRef k dist n).eof = d.eof := rfl
@[simp] theorem dec_loadRef_ph (d : DecUnit) (k : Bool) (dist : Dist) (n : Nat) : (d.loadRef k dist n).ph = d.ph := rfl
@[simp] theorem dec_loadRef_k (d : DecUnit) (k : Bool) (dist : Dist) (n : Nat) : (d.loadRef k dist n).k = k := rfl
@[simp] theorem dec_loadRef_dist (d : DecUnit) (k : Bool) (dist : Dist) (n : Nat) : (d.loadRef k dist n).dist = dist := rfl
@[simp] theorem dec_loadRef_lenv (d : DecUnit) (k : Bool) (dist : Dist) (n : Nat) : (d.loadRef k dist n).lenv = n - 1 := rfl
@[simp] theorem dec_loadRef_i (d : DecUnit) (k : Bool) (dist : Dist) (n : Nat) : (d.loadRef k dist n).i = d.params.L := rfl
@[simp] theorem dec_loadRef_rem (d : DecUnit) (k : Bool) (dist : Dist) (n : Nat) : (d.loadRef k dist n).rem = d.rem := rfl
@[simp] theorem dec_loadRef_out (d : DecUnit) (k : Bool) (dist : Dist) (n : Nat) : (d.loadRef k dist n).out = d.out := rfl
@[simp] theorem dec_loadRef_cause (d : DecUnit) (k : Bool) (dist : Dist) (n : Nat) : (d.loadRef k dist n).cause = d.cause := rfl

@[simp] theorem outReg_emit (o : OutReg) (v : Byte) : o.emit v = ⟨true, v⟩ := rfl
@[simp] theorem outReg_emit_some (o : OutReg) (v : Byte) : o.emit? (some v) = ⟨true, v⟩ := rfl
@[simp] theorem outReg_emit_none (o : OutReg) : o.emit? none = o := rfl
@[simp] theorem outReg_taken_valid (o : OutReg) : o.taken.valid = false := rfl
@[simp] theorem outReg_taken_data (o : OutReg) : o.taken.data = o.data := rfl
@[simp] theorem outReg_held_full (v : Byte) : OutReg.held ⟨true, v⟩ = [v] := rfl
@[simp] theorem outReg_held_empty (v : Byte) : OutReg.held ⟨false, v⟩ = [] := rfl
@[simp] theorem spendTurn_enc (s : State) : s.spendTurn.enc = s.enc := by unfold State.spendTurn; split <;> rfl
@[simp] theorem spendTurn_dec (s : State) : s.spendTurn.dec = s.dec := by unfold State.spendTurn; split <;> rfl
@[simp] theorem spendTurn_host (s : State) : s.spendTurn.host = s.host := by unfold State.spendTurn; split <;> rfl
@[simp] theorem spendTurn_result (s : State) : s.spendTurn.result = s.result := by unfold State.spendTurn; split <;> rfl

end Sys2Proof.Machine
end

