-- ==== Sys2Proof/Laws/Steps.lean ====
section
/-! SUPPORT. Said once: what the reader can answer, how a step of a unit ends, and what a step of the machine can
do. -/

namespace Sys2Proof.Machine

/-! ## The reader (40_bitreader R122-R125) -/

/-- READ_BIT holds, answers NONE, or answers the bit under the cursor. -/
theorem readBit_cases (eof : Bool) (r : Reader) :
    (r.v0 = false ∧ eof = false ∧ r.readBit eof = .hold) ∨
    (r.v0 = false ∧ eof = true ∧ r.readBit eof = .done none r) ∨
    (r.v0 = true ∧ r.off = 7 ∧
      r.readBit eof = .done (some (r.slot0.getLsbD (7 - r.off.val))) { r.shift with off := 0 }) ∨
    (r.v0 = true ∧ r.off ≠ 7 ∧
      r.readBit eof = .done (some (r.slot0.getLsbD (7 - r.off.val))) { r with off := r.off + 1 }) := by
  cases hv : r.v0 <;> cases eof <;> by_cases ho : r.off = 7 <;> simp [Reader.readBit, hv, ho]

/-- READ_BYTE holds, answers NONE, or answers a byte and shifts. -/
theorem readByte_cases (eof : Bool) (r : Reader) :
    (eof = false ∧ (r.v0 = false ∨ r.off ≠ 0 ∧ r.v1 = false) ∧ r.readByte eof = .hold) ∨
    (r.v0 = false ∧ eof = true ∧ r.readByte eof = .done none r) ∨
    (r.v0 = true ∧ r.off = 0 ∧ r.readByte eof = .done (some r.slot0) r.shift) ∨
    (r.v0 = true ∧ r.off ≠ 0 ∧ r.v1 = true ∧
      r.readByte eof = .done (some ((r.slot0 <<< r.off.val) ||| (r.slot1 >>> (8 - r.off.val)))) r.shift) ∨
    (r.v0 = true ∧ r.off ≠ 0 ∧ r.v1 = false ∧ eof = true ∧
      r.readByte eof = .done (some (r.slot0 <<< r.off.val)) r.shift) := by
  cases hv : r.v0 <;> cases hw : r.v1 <;> cases eof <;> by_cases ho : r.off = 0 <;>
    simp [Reader.readByte, hv, hw, ho]

/-! ## The end of a step of a unit (00_scope R16, 60_exceptions R301) -/

@[simp] theorem endEnc_hold {α : Type} (s : State) : s.endEnc (.hold : Res EncUnit α) = s := rfl
@[simp] theorem endEnc_raised {α : Type} (s : State) (c : Cause) (e : EncUnit) :
    s.endEnc (.raised c e : Res EncUnit α) = { s with enc := e.raise c } := rfl
@[simp] theorem endEnc_done {α : Type} (s : State) (a : α) (e : EncUnit) :
    s.endEnc (.done a e) = { s with enc := e } := rfl
@[simp] theorem endDec_hold {α : Type} (s : State) : s.endDec (.hold : Res DecUnit α) = s := rfl
@[simp] theorem endDec_raised {α : Type} (s : State) (c : Cause) (d : DecUnit) :
    s.endDec (.raised c d : Res DecUnit α) = { s with dec := d.raise c } := rfl
@[simp] theorem endDec_done {α : Type} (s : State) (a : α) (d : DecUnit) :
    s.endDec (.done a d) = { s with dec := d } := rfl

@[simp] theorem bind_hold {σ α β : Type} (f : α → σ → Res σ β) : (Res.hold : Res σ α).bind f = .hold := rfl
@[simp] theorem bind_raised {σ α β : Type} (c : Cause) (s : σ) (f : α → σ → Res σ β) :
    (Res.raised c s : Res σ α).bind f = .raised c s := rfl
@[simp] theorem bind_done {σ α β : Type} (a : α) (s : σ) (f : α → σ → Res σ β) :
    (Res.done a s).bind f = f a s := rfl

/-- A read inside a step of the decoder holds, ends in `Done`, or goes on; the reader itself never raises. -/
theorem reading_bit_cases (d : DecUnit) (f : Bool → DecUnit → Res DecUnit Unit) :
    (d.rd.v0 = false ∧ d.eof = false ∧ d.reading (d.rd.readBit d.eof) f = .hold) ∨
    (d.rd.v0 = false ∧ d.eof = true ∧ d.reading (d.rd.readBit d.eof) f = .done () { d with ph := .done }) ∨
    (d.rd.v0 = true ∧ ∃ b rd, d.rd.readBit d.eof = .done (some b) rd ∧
      d.reading (d.rd.readBit d.eof) f = f b { d with rd := rd }) := by
  rcases readBit_cases d.eof d.rd with ⟨h₁, h₂, h⟩ | ⟨h₁, h₂, h⟩ | ⟨h₁, -, h⟩ | ⟨h₁, -, h⟩ <;> rw [h]
  · exact .inl ⟨h₁, h₂, rfl⟩
  · exact .inr (.inl ⟨h₁, h₂, rfl⟩)
  · exact .inr (.inr ⟨h₁, _, _, rfl, rfl⟩)
  · exact .inr (.inr ⟨h₁, _, _, rfl, rfl⟩)

theorem reading_byte_cases (d : DecUnit) (f : Byte → DecUnit → Res DecUnit Unit) :
    (d.eof = false ∧ d.reading (d.rd.readByte d.eof) f = .hold) ∨
    (d.rd.v0 = false ∧ d.eof = true ∧ d.reading (d.rd.readByte d.eof) f = .done () { d with ph := .done }) ∨
    (d.rd.v0 = true ∧ ∃ v, d.rd.readByte d.eof = .done (some v) d.rd.shift ∧
      d.reading (d.rd.readByte d.eof) f = f v { d with rd := d.rd.shift }) := by
  rcases readByte_cases d.eof d.rd with ⟨h₁, -, h⟩ | ⟨h₁, h₂, h⟩ | ⟨h₁, -, h⟩ | ⟨h₁, -, -, h⟩ | ⟨h₁, -, -, -, h⟩ <;>
    rw [h]
  · exact .inl ⟨h₁, rfl⟩
  · exact .inr (.inl ⟨h₁, h₂, rfl⟩)
  · exact .inr (.inr ⟨h₁, _, rfl, rfl⟩)
  · exact .inr (.inr ⟨h₁, _, rfl, rfl⟩)
  · exact .inr (.inr ⟨h₁, _, rfl, rfl⟩)

/-! ## The encoder's pops and pushes -/

theorem lastN_append {α : Type} (n : Nat) (l m : List α) : lastN n (lastN n l ++ m) = lastN n (l ++ m) := by
  unfold lastN
  rcases Nat.le_total n l.length with h | h
  · have hlen : (List.drop (l.length - n) l ++ m).length - n = m.length := by
      rw [List.length_append, List.length_drop]; omega
    rw [hlen, ← List.drop_append_of_le_length (by omega), List.drop_drop, List.length_append,
      show l.length - n + m.length = l.length + m.length - n by omega]
  · rw [show l.length - n = 0 by omega, List.drop_zero]

theorem lastN_of_le {α : Type} {n : Nat} {l : List α} (h : l.length ≤ n) : lastN n l = l := by
  simp [lastN, Nat.sub_eq_zero_of_le h]

/-- `repeat k times: WIN_PUSH(LA_POP())` with `k` bytes queued: it is done, the bytes have moved from the front of the
queue to the end of the window, and nothing else of the unit has changed (R201). -/
theorem popPush_spec (k : Nat) (e : EncUnit) (hw : e.win.Ok e.params.wsize) (hl : e.la.Ok e.params.lsize)
    (hk : k ≤ e.la.count) :
    ∃ w q, EncUnit.popPush k e = .done () { e with win := w, la := q } ∧
      w.Ok e.params.wsize ∧ q.Ok e.params.lsize ∧
      w.hist e.params.wsize = lastN e.params.wsize (e.win.hist e.params.wsize ++ (e.la.content e.params.lsize).take k) ∧
      q.content e.params.lsize = (e.la.content e.params.lsize).drop k := by
  induction k generalizing e with
  | zero =>
    refine ⟨e.win, e.la, rfl, hw, hl, ?_, by simp⟩
    rw [List.take_zero, List.append_nil, lastN_of_le]
    simpa using hw.2.2.2.1
  | succ k ih =>
    obtain ⟨⟨v, q₁⟩, hpop⟩ := Option.ne_none_iff_exists'.1
      (fun h => by have := queue_pop_none.1 h; omega : e.la.pop e.params.lsize ≠ none)
    have hcont := queue_pop_content hl hpop
    have hq₁ : q₁.count = e.la.count - 1 := by
      have := congrArg List.length hcont
      simp only [content_length, List.length_cons] at this
      omega
    let e₁ : EncUnit := { e with la := q₁, win := e.win.push e.params.wsize v }
    obtain ⟨w, q, hrun, hw', hq', hhist, hcont'⟩ :=
      ih e₁ (window_push_ok hw v) (queue_pop_ok hl hpop) (by simp only [e₁]; omega)
    refine ⟨w, q, ?_, hw', hq', ?_, ?_⟩
    · simpa [EncUnit.popPush, EncUnit.laPop, hpop, EncUnit.winPush, e₁] using hrun
    · rw [hhist]
      simp only [e₁]
      rw [window_push_hist hw, lastN_append, hcont, List.take_succ_cons, List.append_assoc]
      rfl
    · rw [hcont', hcont, List.drop_succ_cons]

/-! ## Tokens (44_decoder R236-R238) -/

/-- The register has room, or the host's next action makes room, or the register stays full (R272, R339). -/
theorem makeRoom_cases (s : State) :
    (s.dec.out.valid = false ∧ s.makeRoom = s) ∨
    (s.dec.out.valid = true ∧ ∃ rest, s.host.pending = .take .dec :: rest ∧
      s.makeRoom = ({ s with host := { s.host with pending := rest } } : State).takeByte .dec) ∨
    (s.dec.out.valid = true ∧ s.host.pending.head? ≠ some (.take .dec) ∧ s.makeRoom = s) := by
  unfold State.makeRoom
  cases hv : s.dec.out.valid
  · exact .inl ⟨rfl, rfl⟩
  · rw [if_pos rfl]
    split
    · exact .inr (.inl ⟨rfl, _, ‹_›, rfl⟩)
    · refine .inr (.inr ⟨rfl, fun h => ?_, rfl⟩)
      obtain ⟨rest, hp⟩ := List.head?_eq_some_iff.1 h
      exact ‹∀ rest, s.host.pending = .take .dec :: rest → False› rest hp

/-- Making room touches the register's valid bit and the host's side only. -/
@[simp] theorem makeRoom_enc (s : State) : s.makeRoom.enc = s.enc := by
  rcases makeRoom_cases s with ⟨-, h⟩ | ⟨-, _, -, h⟩ | ⟨-, -, h⟩
  · rw [h]
  · rw [h]; rfl
  · rw [h]
theorem makeRoom_dec (s : State) :
    s.makeRoom.dec = { s.dec with out := ⟨s.makeRoom.dec.out.valid, s.dec.out.data⟩ } := by
  rcases makeRoom_cases s with ⟨-, h⟩ | ⟨-, _, -, h⟩ | ⟨-, -, h⟩
  · rw [h]
  · rw [h]; rfl
  · rw [h]

/-- Making room neither loses nor reorders a byte. -/
@[simp] theorem makeRoom_output (s : State) (u : UnitId) : s.makeRoom.output u = s.output u := by
  rcases makeRoom_cases s with ⟨-, h⟩ | ⟨hv, _, -, h⟩ | ⟨-, -, h⟩ <;> rw [h]
  cases u
  · rfl
  · simp [State.output, State.takenOf, State.outOf, State.takeByte, OutReg.held, OutReg.taken, hv]

/-- What a token turn fetches: a token decoded from bits that are all there, with room for it. -/
theorem fetchToken_cases {s s' : State} {i : Instr} (h : s.fetchToken = some (i, s')) :
    ∃ bits d pending rest, s.dec.fetchTokenBits s.host.pending = some (bits, d, pending) ∧
      decodeBits s.dec.params bits = .ok (i, rest) ∧
      s' = { s with dec := d, host := { s.host with pending := pending } } ∧ s'.tokenHasRoom i = true := by
  unfold State.fetchToken at h
  split at h
  · cases h
  · split at h
    · dsimp only at h
      split at h
      · cases h
        exact ⟨_, _, _, _, ‹_›, ‹_›, rfl, ‹_›⟩
      · cases h
    · cases h

/-- No agent's turn is a token turn. -/
theorem agent_turn_ne_token (a : Agent) : a.turn ≠ .token := by cases a <;> decide

/-! ## One step of the machine (00_scope R7) -/

/-- A step either passes the turn or executes the instruction the turn brings. -/
theorem step_cases (s : State) :
    (s.fetch = none ∧ Machine.step s = .next s.spendTurn) ∨
    ∃ i s', s.fetch = some (i, s') ∧ Machine.step s = exec i s' := by
  unfold Machine.step
  rcases h : s.fetch with _ | ⟨i, s'⟩
  · exact .inl ⟨rfl, rfl⟩
  · exact .inr ⟨i, s', rfl, rfl⟩

/-- What a turn can bring: a micro-step of a core, the host's next action, or a token. -/
theorem fetch_cases {s s' : State} {i : Instr} (h : s.fetch = some (i, s')) :
    (s.turn = .encCore ∧ s.enc.selected = some i ∧ s' = s.spendTurn) ∨
    (s.turn = .decCore ∧ s.dec.selected = some i ∧ s' = s.spendTurn) ∨
    (s.turn = .host ∧ ∃ a rest, s.host.pending = a :: rest ∧ s.spendTurn.allows a = true ∧ i = a.toInstr ∧
      s' = { s.spendTurn with host := { s.host with pending := rest } }) ∨
    (s.turn = .token ∧ s.dec.ph = .tagBit ∧ s.spendTurn.fetchToken = some (i, s')) := by
  unfold State.fetch at h
  split at h
  · obtain ⟨j, hj, heq⟩ := Option.map_eq_some_iff.1 h
    cases heq
    exact .inl ⟨‹_›, hj, rfl⟩
  · obtain ⟨j, hj, heq⟩ := Option.map_eq_some_iff.1 h
    cases heq
    exact .inr (.inl ⟨‹_›, hj, rfl⟩)
  · unfold State.fetchHost at h
    rw [spendTurn_host] at h
    split at h
    · cases h
    · split at h
      · cases h
        exact .inr (.inr (.inl ⟨‹_›, _, _, ‹_›, ‹_›, rfl, rfl⟩))
      · cases h
  · split at h
    · exact .inr (.inr (.inr ⟨‹_›, ‹_›, h⟩))
    · cases h

/-- A property that holds at every start of a run and that every step keeps holds of every state a run reaches. -/
theorem reachable_induction {P : State → Prop} (h₀ : ∀ pe pd pending sched tick, P (State.start pe pd pending sched tick))
    (h₁ : ∀ s t, P s → Machine.step s = .next t → P t) {s : State} (h : Reachable s) : P s := by
  induction h with
  | start pe pd pending sched tick => exact h₀ pe pd pending sched tick
  | step _ hst ih => exact h₁ _ _ ih hst

/-- `runSteps` is the host's run of this machine. -/
theorem runSteps_host (k : Nat) (s : State) : runSteps k s = Host.Core.run
    { State := State, Fault := Fault, Refusal := Refusal, step := Machine.step, reset := State.reset } k s := by
  induction k generalizing s with
  | zero => rfl
  | succ k ih =>
    simp only [runSteps, Host.Core.run]
    split <;> simp_all

/-- Reset's memories have the canonical form. -/
theorem reset_memories_wf : Memory.wf State.reset.enc.win.buf = true ∧ Memory.wf State.reset.enc.la.buf = true ∧
    Memory.wf State.reset.dec.win.buf = true := by decide

end Sys2Proof.Machine
end

