-- ==== Sys2Proof/Tests/Slice0.lean ====
section
/-! SUPPORT. Tests of one step each, with expected results from spec/95_test_vectors.md and the rules' examples (named at
each test), and for every obligation with hypotheses a witness that meets them, clause by clause. -/

namespace Sys2Proof.Tests

open Sys2Proof Sys2Proof.Machine

/-! ## Helpers -/

/-- Small configurations. -/
def p11 : Params := ⟨1, 1, by decide, by decide⟩
def p14 : Params := ⟨1, 4, by decide, by decide⟩
def p22 : Params := ⟨2, 2, by decide, by decide⟩
def p41 : Params := ⟨4, 1, by decide, by decide⟩
def p74 : Params := ⟨7, 4, by decide, by decide⟩

/-- The state after an instruction, where it answers one. -/
def after (i : Instr) (s : State) : Option State :=
  match exec i s with
  | .next t => some t
  | .fault _ => none
  | .refused _ => none

/-- The state after a step, where it answers one. -/
def afterStep (s : State) : Option State :=
  match step s with
  | .next t => some t
  | .fault _ => none
  | .refused _ => none

/-- A system of two new units of one configuration. -/
def new (p : Params) : State := State.built p p

/-- A state with another encoder unit. -/
def onEnc (f : EncUnit → EncUnit) (s : State) : State := { s with enc := f s.enc }

/-- A state with another decoder unit. -/
def onDec (f : DecUnit → DecUnit) (s : State) : State := { s with dec := f s.dec }

/-- A host whose next actions are `n` TAKEs from the decoder. -/
def taking (n : Nat) (s : State) : State := { s with host := { s.host with pending := List.replicate n (.take .dec) } }

/-- The window after these pushes. -/
def pushed (p : Params) (vs : List Byte) : Window := vs.foldl (Window.push p.wsize) Window.reset

/-- The queue after these bytes. -/
def queued (p : Params) (vs : List Byte) : Queue := vs.foldl (Queue.enq p.lsize) Queue.reset

/-- A reader with both slots given. -/
def slots (a : Byte) (v0 : Bool) (b : Byte) (v1 : Bool) (off : Fin 8) : Reader := ⟨a, v0, b, v1, off, 0⟩

/-! ## WellFormed: an ill-formed term for each check -/

theorem test_wf_refuses_ref8_on_wide_window : Instr.wf .w8l4 .w8l4 (.ref8 0 1) = false := by decide
theorem test_wf_refuses_ref16_on_narrow_window : Instr.wf p74 p74 (.ref16 0 1) = false := by decide
theorem test_wf_refuses_ref8_length_zero : Instr.wf .w4l4 .w4l4 (.ref8 0 0) = false := by decide
theorem test_wf_refuses_ref8_length_above_lsize : Instr.wf .w4l4 .w4l4 (.ref8 0 17) = false := by decide
theorem test_wf_refuses_ref16_length_zero : Instr.wf .w8l4 .w8l4 (.ref16 0 0) = false := by decide
theorem test_wf_refuses_ref16_length_above_lsize : Instr.wf .w8l4 .w8l4 (.ref16 0 17) = false := by decide
theorem test_wf_refuses_position_at_lsize : Instr.wf .w4l4 .w4l4 (.laPeek 16) = false := by decide
theorem test_wf_accepts_longest : Instr.wf .w4l4 .w4l4 (.ref8 255 16) = true ∧ Instr.wf .w8l4 .w8l4 (.ref16 0xFFFF 16) = true
    ∧ Instr.wf .w4l4 .w4l4 (.laPeek 15) = true := by decide
/-- R9: `1 <= W <= 16` and `1 <= L <= 16`. -/
theorem test_construction_range :
    [(0, 4), (17, 4), (4, 0), (4, 17), (1, 1), (16, 16)].map (fun (w, l) => (Params.make? w l).isSome)
      = [false, false, false, false, true, true] := by decide

/-! ## Decoding: words written out bit by bit from 30_encoding -/

/-- LIT: `1 bbbbbbbb` (R92). -/
theorem test_decode_lit : (decodeBits .w4l4 [true, false, true, false, false, false, false, true, true]).toOption
    = some (.lit 0x43, []) := by decide
/-- REF8: `0 dddddddd llll` (R95). -/
theorem test_decode_ref8 :
    (decodeBits .w4l4 [false, true, false, false, false, false, true, true, false, true, true, true, true]).toOption
      = some (.ref8 0x86 16, []) := by decide
/-- REF16: `0 d[15:8] d[7:0] llll` (R96). -/
theorem test_decode_ref16 :
    (decodeBits .w8l4 [false, false, false, false, false, false, false, false, true,
        true, false, false, false, false, false, true, false, false, false, false, true, true]).toOption
      = some (.ref16 0x0182 2, [true]) := by decide
/-- R94, C2: the index field has 8 bits at `W = 7` and 16 at `W = 8`. -/
theorem test_index_field_switch : p74.indexBits = 8 ∧ Params.w8l4.indexBits = 16 := by decide
theorem test_decode_truncated : (decodeBits .w4l4 [true, false]).toOption = none ∧ (decodeBits .w4l4 []).toOption = none := by
  decide
/-- Table words: bit `j` is stream bit `j`, operand bits above the tag zero, then LIT 'A' and REF 2, 3 (R107). -/
theorem test_table_word : decodeTableWord 8 1 = some (.lit 0) ∧ decodeTableWord 16 0x105 = some (.lit 0x41)
    ∧ decodeTableWord 8 0 = some (.ref8 0 1) ∧ decodeTableWord 16 (2 ^ 7 + 2 ^ 11) = some (.ref8 2 3)
    ∧ decodeTableWord 24 0 = some (.ref16 0 1) ∧ decodeTableWord 24 (2 ^ 15 + 2 ^ 19) = some (.ref16 2 3) := by decide
/-- The step after withFetchWord runs the table word's token: a literal is output, a reference on the empty window
faults (R237, R238). -/
theorem test_withFetchWord_lit :
    (afterStep (State.reset.withFetchWord 16 0x105)).map (fun t => (t.dec.out, t.dec.ph, t.dec.rd.pos))
      = some (⟨true, 0x41⟩, .tagBit, 9) := by decide
theorem test_withFetchWord_ref :
    [8, 24].map (fun n => (afterStep (State.reset.withFetchWord n 0)).map (fun t => (t.dec.ph, t.dec.cause, t.dec.rd.pos)))
      = [some (.fault, .distRange, 13), some (.fault, .distRange, 21)] := by decide

/-! ## Tokens -/

/-- DEC-1. -/
theorem test_lit_first : (after (.lit 0x41) (new .w4l4)).map (fun t => (t.output .dec, t.dec.win.hist 16, t.dec.ph))
    = some ([0x41], [0x41], .tagBit) := by decide
/-- DEC-5: the second literal, the first still in the output register, goes on when the host takes, and holds when it
does not (R339). -/
theorem test_lit_second :
    [1, 0].map (fun n =>
      (after (.lit 0xAB) (taking n (onDec (fun d => { d with win := pushed .w4l4 [0x11], out := ⟨true, 0x11⟩ }) (new .w4l4)))).map
        (fun t => (t.host.decTaken, t.dec.out, t.dec.win.hist 16)))
      = [some ([0x11], ⟨true, 0xAB⟩, [0x11, 0xAB]), some ([], ⟨true, 0x11⟩, [0x11])] := by decide
/-- DEC-5: `REF 1, 5` on `[11 AB]`. -/
theorem test_ref8_self_overlap :
    (after (.ref8 1 5) (taking 4 (onDec (fun d => { d with win := pushed .w4l4 [0x11, 0xAB] }) (new .w4l4)))).map
      (fun t => (t.output .dec, t.dec.ph, t.host.pending)) = some ([0x11, 0xAB, 0x11, 0xAB, 0x11], .tagBit, []) := by decide
/-- HI-5: `REF 0, 5` after the literal, and a host that does not take. -/
theorem test_ref8_backpressure :
    (after (.ref8 0 5) (onDec (fun d => { d with win := pushed .w4l4 [0xAB], out := ⟨true, 0xAB⟩ }) (new .w4l4))).map
      (fun t => (t.output .dec, t.dec.ph, t.dec.rem, t.dec.dist)) = some ([0xAB], .refEmit, 5, 0) := by decide
/-- ENC-8's last token. -/
theorem test_ref16_copies :
    (after (.ref16 2 3) (taking 2 (onDec (fun d => { d with win := pushed .w8l4 [0x41, 0x42, 0x43] }) (new .w8l4)))).map
      (fun t => (t.output .dec, t.dec.win.hist 256))
      = some ([0x41, 0x42, 0x43], [0x41, 0x42, 0x43, 0x41, 0x42, 0x43]) := by decide
/-- DEC-10: `REF 256, 3` on `[41 42]`. -/
theorem test_ref16_out_of_range :
    (after (.ref16 256 3) (onDec (fun d => { d with win := pushed .w8l4 [0x41, 0x42] }) (new .w8l4))).map
      (fun t => (t.output .dec, t.dec.ph, t.dec.cause)) = some ([], .fault, .distRange) := by decide

/-! ## Reader -/

/-- RD-6. -/
theorem test_readBit_last_bit :
    (after .readBit (onDec (fun d => { d with rd := slots 0xA5 true 0 false 7 }) (new .w4l4))).map
      (fun t => (t.result, t.dec.rd.v0, t.dec.rd.off)) = some (.bit true, false, 0) := by decide
/-- RD-8. -/
theorem test_readBit_none :
    (after .readBit (onDec (fun d => { d with eof := true }) (new .w4l4))).map (fun t => (t.result, t.dec.rd))
      = some (.none, Reader.reset) := by decide
/-- RD-2 at offset 3. -/
theorem test_readByte_straddles :
    (after .readByte (onDec (fun d => { d with rd := slots 0xA5 true 0x3C true 3, eof := true }) (new .w4l4))).map
      (fun t => (t.result, t.dec.rd.slot0, t.dec.rd.off, t.dec.rd.v1)) = some (.byte 0x29, 0x3C, 3, false) := by decide
/-- RD-4: zero fill after EOF, a hold before it. -/
theorem test_readByte_zero_fill :
    [true, false].map (fun e => (after .readByte (onDec (fun d => { d with rd := slots 0xA5 true 0 false 3, eof := e })
      (new .w4l4))).map (fun t => (t.result, t.dec.rd.v0)))
      = [some (.byte 0x28, false), some (.nothing, true)] := by decide

/-! ## Writer -/

/-- WR-5: the eighth bit. -/
theorem test_addBit_completes :
    (after (.addBit false) (onEnc (fun e => { e with bw := ⟨0xA0, 7⟩ }) (new .w4l4))).map (fun t => (t.enc.out, t.enc.bw))
      = some (⟨true, 0xA0⟩, ⟨0x00, 0⟩) := by decide
theorem test_addBit_third :
    (after (.addBit true) (onEnc (fun e => { e with bw := ⟨0x80, 2⟩ }) (new .w4l4))).map (fun t => (t.enc.out.valid, t.enc.bw))
      = some (false, ⟨0xA0, 3⟩) := by decide
/-- WR-6 and WR-3. -/
theorem test_addByte_pending :
    (after (.addByte 0xFF) (onEnc (fun e => { e with bw := ⟨0xA0, 3⟩ }) (new .w4l4))).map (fun t => (t.enc.out.data, t.enc.bw))
      = some (0xBF, ⟨0xE0, 3⟩) := by decide
theorem test_addByte_seven_pending :
    (after (.addByte 0x00) (onEnc (fun e => { e with bw := ⟨0xFE, 7⟩ }) (new .w4l4))).map (fun t => (t.enc.out.data, t.enc.bw))
      = some (0xFE, ⟨0x00, 7⟩) := by decide
/-- WR-1 and WR-4. -/
theorem test_flushFinal_pads :
    (after .flushFinal (onEnc (fun e => { e with bw := ⟨0xA0, 3⟩ }) (new .w4l4))).map (fun t => (t.enc.out, t.enc.bw))
      = some (⟨true, 0xA0⟩, ⟨0x00, 0⟩) := by decide
theorem test_flushFinal_empty : (after .flushFinal (new .w4l4)).map (fun t => t.enc.out.valid) = some false := by decide

/-! ## Window and lookahead queue -/

/-- WIN-1: the fifth push. -/
theorem test_winPush_wraps :
    (after (.winPush .dec 0x45) (onDec (fun d => { d with win := pushed p22 [0x41, 0x42, 0x43, 0x44] }) (new p22))).map
      (fun t => (t.dec.win.hist 4, t.dec.win.head, t.dec.win.count, t.dec.win.buf))
      = some ([0x42, 0x43, 0x44, 0x45], 1, 4, [(0, 0x45), (1, 0x42), (2, 0x43), (3, 0x44)]) := by decide
/-- WIN-4, on an encoder's window. -/
theorem test_winPush_enc :
    (after (.winPush .enc 0x43) (onEnc (fun e => { e with win := pushed p14 [0x41, 0x42] }) (new p14))).map
      (fun t => (t.enc.win.hist 2, t.enc.win.head, t.dec.win)) = some ([0x42, 0x43], 1, Window.reset) := by decide
/-- WIN-2. -/
theorem test_winRead :
    [0, 3].map (fun d => (after (.winRead .dec d)
      (onDec (fun u => { u with win := pushed p22 [0x41, 0x42, 0x43, 0x44, 0x45] }) (new p22))).map (·.result))
      = [some (.byte 0x45), some (.byte 0x42)] := by decide
/-- WIN-3. -/
theorem test_winRead_fault :
    (after (.winRead .dec 0) (new .w4l4)).map (fun t => (t.dec.ph, t.dec.cause, t.enc.ph))
      = some (.fault, .distRange, .tokenStart) := by decide
/-- LA-3: the physical slot wraps. -/
theorem test_laEnq_wraps :
    (after (.laEnq 0x43) (onEnc (fun e => { e with la := ⟨[(0, 0x41), (1, 0x42)], 1, 1⟩ }) (new p41))).map
      (fun t => (t.enc.la.content 2, t.enc.la.rd, t.enc.la.buf)) = some ([0x42, 0x43], 1, [(0, 0x43), (1, 0x42)]) := by
  decide
/-- LA-1. -/
theorem test_laPop :
    (after .laPop (onEnc (fun e => { e with la := queued p22 [0x41, 0x42] }) (new p22))).map
      (fun t => (t.result, t.enc.la.count, t.enc.la.rd)) = some (.byte 0x41, 1, 1) := by decide
/-- LA-4. -/
theorem test_laPop_underflow :
    (after .laPop (new .w4l4)).map (fun t => (t.enc.ph, t.enc.cause, t.dec.ph)) = some (.fault, .laUnderflow, .tagBit) := by
  decide
/-- R170's example. -/
theorem test_laPeek :
    (after (.laPeek 1) (onEnc (fun e => { e with la := queued p22 [0x41, 0x42] }) (new p22))).map (·.result)
      = some (.byte 0x42) := by decide

/-! ## Encoder -/

/-- R192's example. -/
theorem test_encDecide_reference :
    (after .encDecide (onEnc (fun e => { e with win := pushed .w4l4 [0x41, 0x42, 0x43], la := queued .w4l4 [0x41, 0x42, 0x43], eof := true }) (new .w4l4))).map
      (fun t => (t.enc.tok, t.enc.la.count, t.enc.ph, t.enc.win.hist 16))
      = some ([false, false, false, false, false, false, false, true, false, false, false, true, false], 0, .tokenEmit,
          [0x41, 0x42, 0x43, 0x41, 0x42, 0x43]) := by decide
/-- PROG-5: the tie-break, `REF 7, 3`. -/
theorem test_encDecide_tie_break :
    (after .encDecide (onEnc (fun e => { e with win := pushed .w4l4 [0x41, 0x42, 0x43, 0x58, 0x41, 0x42, 0x43, 0x59], la := queued .w4l4 [0x41, 0x42, 0x43], eof := true }) (new .w4l4))).map
      (fun t => t.enc.tok)
      = some [false, false, false, false, false, false, true, true, true, false, false, true, false] := by decide
/-- HI-1: the ninth bit of `LIT 0x41`. -/
theorem test_encEmit_last :
    (after .encEmit (onEnc (fun e => { e with tok := [true], ph := .tokenEmit }) (new p41))).map
      (fun t => (t.enc.bw, t.enc.ph, t.enc.tok)) = some (⟨0x80, 1⟩, .tokenStart, []) := by decide
/-- HI-1: the eighth bit emits `A0`. -/
theorem test_encEmit_eighth :
    (after .encEmit (onEnc (fun e => { e with tok := [false, true], ph := .tokenEmit, bw := ⟨0xA0, 7⟩ }) (new p41))).map
      (fun t => (t.enc.out, t.enc.ph)) = some (⟨true, 0xA0⟩, .tokenEmit) := by decide
/-- R204's example, and R210. -/
theorem test_encFlush :
    (after .encFlush (onEnc (fun e => { e with eof := true, bw := ⟨0x80, 1⟩ }) (new .w4l4))).map
      (fun t => (t.enc.out, t.enc.ph, t.enc.bw.n)) = some (⟨true, 0x80⟩, .done, 0) := by decide
theorem test_encFlush_empty_input :
    (after .encFlush (onEnc (fun e => { e with eof := true }) (new .w4l4))).map (fun t => (t.output .enc, t.enc.isDone))
      = some ([], true) := by decide

/-! ## Decoder -/

/-- HI-3. -/
theorem test_decTag_literal :
    (after .decTag (onDec (fun d => { d with rd := slots 0xA0 true 0 false 0 }) (new .w4l4))).map
      (fun t => (t.dec.ph, t.dec.rd.off)) = some (.literalByte, 1) := by decide
/-- R231: tag `0` clears the distance and `k`. -/
theorem test_decTag_reference :
    (after .decTag (onDec (fun d => { d with rd := slots 0x00 true 0 false 0, dist := 7, k := true }) (new .w4l4))).map
      (fun t => (t.dec.ph, t.dec.dist, t.dec.k)) = some (.refDistance, 0, false) := by decide
/-- HI-3. -/
theorem test_decLit :
    (after .decLit (onDec (fun d => { d with rd := slots 0xA0 true 0x80 true 1, ph := .literalByte }) (new .w4l4))).map
      (fun t => (t.dec.out, t.dec.rd.slot0, t.dec.rd.v1, t.dec.rd.off, t.dec.ph))
      = some (⟨true, 0x41⟩, 0x80, false, 1, .tagBit) := by decide
/-- R233: the two bytes of a 16-bit distance, high byte first. -/
theorem test_decDist_high :
    (after .decDist (onDec (fun d => { d with rd := slots 0x01 true 0 false 0, ph := .refDistance }) (new .w8l4))).map
      (fun t => (t.dec.dist, t.dec.k, t.dec.ph)) = some (1, true, .refDistance) := by decide
theorem test_decDist_low :
    (after .decDist (onDec (fun d => { d with rd := slots 0x82 true 0 false 0, ph := .refDistance, dist := 1, k := true }) (new .w8l4))).map
      (fun t => (t.dec.dist, t.dec.ph)) = some (0x182, .refLength) := by decide
/-- PROG-4: the last length bit of `REF 1, 1` on `[41]`. -/
theorem test_decLen_fault :
    (after .decLen (onDec (fun d => { d with win := pushed .w4l4 [0x41], rd := slots 0x40 true 0 false 5, ph := .refLength, dist := 1, i := 3 }) (new .w4l4))).map
      (fun t => (t.dec.ph, t.dec.cause, t.dec.i, t.dec.lenv, t.dec.rem, t.dec.rd.off))
      = some (.fault, .distRange, 4, 0, 0, 6) := by decide
/-- DEC-12: length field `11` at `L = 2`. -/
theorem test_decLen_complete :
    (after .decLen (onDec (fun d => { d with win := pushed p22 [0x5A], rd := slots 0x30 true 0 false 3, ph := .refLength, i := 1, lenv := 1 }) (new p22))).map
      (fun t => (t.dec.ph, t.dec.rem)) = some (.refEmit, 4) := by decide
/-- PROG-2 and PROG-3: a copy, and the last one of a token at distance `WSIZE - 1` of a full window. -/
theorem test_decCopy :
    (after .decCopy (onDec (fun d => { d with win := pushed .w4l4 [0xAB], ph := .refEmit, rem := 5 }) (new .w4l4))).map
      (fun t => (t.dec.out, t.dec.rem, t.dec.ph, t.dec.win.hist 16)) = some (⟨true, 0xAB⟩, 4, .refEmit, [0xAB, 0xAB]) := by
  decide
theorem test_decCopy_last :
    (after .decCopy (onDec (fun d => { d with win := pushed p22 [0x41, 0x42, 0x43, 0x44], ph := .refEmit, rem := 1, dist := 3 }) (new p22))).map
      (fun t => (t.dec.out, t.dec.rem, t.dec.ph, t.dec.win.hist 4))
      = some (⟨true, 0x41⟩, 0, .tagBit, [0x42, 0x43, 0x44, 0x41]) := by decide

/-! ## Host actions -/

/-- HI-1, LA-2. -/
theorem test_putEnc_fills :
    (after (.putEnc 0x42) (onEnc (fun e => { e with la := queued p41 [0x41], consumedIn := 1 }) (new p41))).map
      (fun t => (t.enc.la.content 2, (t.status .enc).inReady, t.enc.consumedIn)) = some ([0x41, 0x42], false, 2) := by decide
/-- HI-4. -/
theorem test_putDec_fills_slot1 :
    (after (.putDec 0x80) (onDec (fun d => { d with rd := slots 0xD5 true 0 false 0 }) (new .w4l4))).map
      (fun t => (t.dec.rd.slot1, t.dec.rd.v1, (t.status .dec).inReady)) = some (0x80, true, false) := by decide
/-- R276: `in_ready = 0` after it. -/
theorem test_eof : (after (.eof .enc) (new .w4l4)).map (fun t => (t.enc.eof, (t.status .enc).inReady, t.dec.eof))
    = some (true, false, false) := by decide
/-- HI-3: `done` rises with the TAKE of the last byte. -/
theorem test_take_raises_done :
    (after (.take .dec) (onDec (fun d => { d with ph := .done, eof := true, out := ⟨true, 0x41⟩ }) (new .w4l4))).map
      (fun t => (t.host.decTaken, t.dec.out, (t.status .dec).done)) = some ([0x41], ⟨false, 0x41⟩, true) := by decide
/-- HI-7: the byte in the output register is lost. -/
theorem test_reset :
    (after (.reset .enc) (onEnc (fun e => { e with ph := .tokenEmit, tok := [true], out := ⟨true, 0xA0⟩, eof := true, win := pushed p41 [0x41] }) (new p41)))
      = some (new p41) := by decide

/-! ## Witnesses: each obligation's hypotheses met together, clause by clause, at the edge of their range -/

/-- A bit list of this length. -/
def zeros (n : Nat) : List Bool := List.replicate n false

theorem witness_TagBitSelectsTokenAndLength :
    8 ≤ (zeros 8).length ∧ (zeros 7).length < 8 ∧ Params.w4l4.indexBits + Params.w4l4.L ≤ (zeros 12).length
    ∧ (zeros 11).length < Params.w4l4.indexBits + Params.w4l4.L
    ∧ Params.w8l4.indexBits + Params.w8l4.L ≤ (zeros 20).length
    ∧ (zeros 19).length < Params.w8l4.indexBits + Params.w8l4.L := by decide

theorem witness_OperandsAssembleMostSignificantFirst :
    ((zeros 4).length = p74.L ∧ p74.W ≤ 7) ∧ ((zeros 4).length = Params.w8l4.L ∧ 8 ≤ Params.w8l4.W) := by decide

theorem witness_DecodeOfEncode :
    (Instr.wf .w4l4 .w4l4 (.lit 0xFF) = true ∧ encode .w4l4 (.lit 0xFF) = some (List.replicate 9 true))
    ∧ (Instr.wf p74 p74 (.ref8 0 16) = true
        ∧ encode p74 (.ref8 0 16) = some (zeros 9 ++ List.replicate 4 true))
    ∧ (Instr.wf .w8l4 .w8l4 (.ref16 0 1) = true ∧ encode .w8l4 (.ref16 0 1) = some (zeros 21)) := by decide

theorem witness_EncodeOfDecode :
    decodeBits .w4l4 (List.replicate 9 true) = .ok (.lit 0xFF, [])
    ∧ decodeBits .w4l4 (zeros 13) = .ok (.ref8 0 1, []) ∧ decodeBits .w8l4 (zeros 21) = .ok (.ref16 0 1, []) :=
  ⟨rfl, rfl, rfl⟩

theorem witness_ConstructionRefusesOutOfRange :
    Params.make? 16 1 = some ⟨16, 1, by decide, by decide⟩ := by decide

/-- Room, room by the host's TAKE, and no room. -/
theorem witness_LiteralTokenPushesAndOutputs :
    let f := fun n => taking n (onDec (fun d => { d with out := ⟨true, 0x11⟩ }) (new .w4l4))
    ((new .w4l4).dec.ph = .tagBit ∧ (new .w4l4).dec.out.valid = false)
    ∧ ((f 1).dec.ph = .tagBit ∧ (f 1).dec.out.valid = true ∧ (f 1).host.pending = [.take .dec])
    ∧ ((f 0).dec.ph = .tagBit ∧ (f 0).dec.out.valid = true ∧ (f 0).host.pending.head? ≠ some (.take .dec)) := by decide

/-- The newest and the oldest byte, the shortest and the longest copy; TAKEs enough for it, and none. -/
theorem witness_Ref8CopiesFromWindow :
    let s := onDec (fun d => { d with win := pushed p74 [0x41, 0x42] }) (new p74)
    (taking 15 s).takesReady = 15 ∧ s.takesReady = 0 ∧ s.dec.win.Ok s.dec.params.wsize ∧ s.dec.ph = .tagBit ∧ s.dec.params.W ≤ 7
    ∧ (1 ≤ 1 ∧ 1 ≤ s.dec.params.lsize ∧ (0 : BitVec 8).toNat < s.dec.win.count)
    ∧ (1 ≤ 16 ∧ 16 ≤ s.dec.params.lsize ∧ (1 : BitVec 8).toNat < s.dec.win.count) := by decide

theorem witness_Ref16CopiesFromWindow :
    let s := onDec (fun d => { d with win := pushed .w8l4 [0x41, 0x42] }) (new .w8l4)
    s.dec.win.Ok s.dec.params.wsize ∧ s.dec.ph = .tagBit ∧ 8 ≤ s.dec.params.W
    ∧ (1 ≤ 1 ∧ 1 ≤ s.dec.params.lsize ∧ (0 : Dist).toNat < s.dec.win.count)
    ∧ (1 ≤ 16 ∧ 16 ≤ s.dec.params.lsize ∧ (1 : Dist).toNat < s.dec.win.count) := by decide

theorem witness_BackReferenceOutOfRangeFaults :
    ((new .w4l4).dec.ph = .tagBit ∧ 1 ≤ 16 ∧ 16 ≤ (new .w4l4).dec.params.lsize ∧ (new .w4l4).dec.params.W ≤ 7
      ∧ (new .w4l4).dec.win.count ≤ (0 : BitVec 8).toNat)
    ∧ ((new .w8l4).dec.ph = .tagBit ∧ 1 ≤ 1 ∧ 1 ≤ (new .w8l4).dec.params.lsize ∧ 8 ≤ (new .w8l4).dec.params.W
      ∧ (new .w8l4).dec.win.count ≤ (0 : Dist).toNat) := by decide

theorem witness_TokenOutsideConfigurationRefused :
    (8 ≤ (new .w8l4).dec.params.W ∧ (new .w4l4).dec.params.lsize < 17)
    ∧ ((new p74).dec.params.W ≤ 7 ∧ (new .w8l4).dec.params.lsize < 17) := by decide

/-- The second clause; the first has no hypothesis. -/
theorem witness_TokenTurnIsARunOfAgentTurns :
    let s := onDec (fun d => { d with rd := slots 0xA0 true 0x80 true 0 }) (new .w4l4)
    s.dec.ph = .tagBit ∧ s.dec.out.valid = false ∧ s.dec.rd.v0 = true ∧ s.dec.rd.v1 = true
    ∧ s.dec.rd.slot0.getLsbD (7 - s.dec.rd.off.val) = true := by decide

theorem witness_ReadBitResult :
    let e := onDec (fun d => { d with eof := true }) (new .w4l4)
    let r := fun o => onDec (fun d => { d with rd := slots 0xA5 true 0 false o }) (new .w4l4)
    (e.dec.rd.v0 = false ∧ e.dec.eof = true) ∧ ((new .w4l4).dec.rd.v0 = false ∧ (new .w4l4).dec.eof = false)
    ∧ ((r 7).dec.rd.v0 = true ∧ (r 7).dec.rd.off = 7) ∧ ((r 6).dec.rd.v0 = true ∧ (r 6).dec.rd.off ≠ 7) := by decide

theorem witness_ReadByteResult :
    let e := onDec (fun d => { d with eof := true }) (new .w4l4)
    let r := fun o v1 eof => onDec (fun d => { d with rd := slots 0xA5 true 0 v1 o, eof := eof }) (new .w4l4)
    (e.dec.rd.v0 = false ∧ e.dec.eof = true) ∧ ((new .w4l4).dec.rd.v0 = false ∧ (new .w4l4).dec.eof = false)
    ∧ ((r 0 false false).dec.rd.v0 = true ∧ (r 0 false false).dec.rd.off = 0)
    ∧ ((r 1 true false).dec.rd.v0 = true ∧ (r 1 true false).dec.rd.off ≠ 0 ∧ (r 1 true false).dec.rd.v1 = true)
    ∧ ((r 7 false true).dec.rd.v0 = true ∧ (r 7 false true).dec.rd.off ≠ 0 ∧ (r 7 false true).dec.rd.v1 = false
        ∧ (r 7 false true).dec.eof = true)
    ∧ ((r 7 false false).dec.rd.v0 = true ∧ (r 7 false false).dec.rd.off ≠ 0 ∧ (r 7 false false).dec.rd.v1 = false
        ∧ (r 7 false false).dec.eof = false) := by decide

theorem witness_ByteReadIsEightBitReads :
    ((slots 0xA5 true 0x3C true 7).v0 = true ∧ (slots 0xA5 true 0x3C true 7).v1 = true)
    ∧ ((slots 0xA5 true 0 false 0).v0 = true ∧ (slots 0xA5 true 0 false 0).off = 0)
    ∧ ((slots 0xA5 true 0 false 1).v0 = true ∧ (slots 0xA5 true 0 false 1).v1 = false
        ∧ (slots 0xA5 true 0 false 1).off ≠ 0) := by decide

/-- Inside the stream, at its last bit, and past its end. -/
theorem witness_ReaderFollowsStream :
    let a := slots 0xA5 true 0x3C true 1
    let b := { slots 0x3C true 0 false 7 with shifted := 1 }
    let c := { slots 0 false 0 false 0 with shifted := 2 }
    (a.Ok ∧ [0xA5, 0x3C].drop a.shifted = a.held ∧ a.pos / 8 + 1 < 2)
    ∧ (b.Ok ∧ [0xA5, 0x3C].drop b.shifted = b.held ∧ b.pos = 8 * 2 - 1)
    ∧ (c.Ok ∧ [0xA5, 0x3C].drop c.shifted = c.held ∧ c.pos = 8 * 2) := by decide

theorem witness_AddBitResult :
    let w := fun n => onEnc (fun e => { e with bw := ⟨0xA0, n⟩ }) (new .w4l4)
    ((w 7).enc.out.valid = false ∧ (w 7).enc.bw.n = 7) ∧ ((w 6).enc.out.valid = false ∧ (w 6).enc.bw.n ≠ 7) := by decide

theorem witness_AddByteCompletesOneByte :
    let s := onEnc (fun e => { e with bw := ⟨0xFE, 7⟩ }) (new .w4l4)
    s.enc.out.valid = false ∧ s.enc.bw.Ok := by decide

theorem witness_FlushFinalResult :
    let s := onEnc (fun e => { e with bw := ⟨0x80, 1⟩ }) (new .w4l4)
    (s.enc.out.valid = false ∧ s.enc.bw.n ≠ 0)
    ∧ ((new .w4l4).enc.out.valid = false ∧ (new .w4l4).enc.bw.n = 0) := by decide

theorem witness_WriterReproducesBits :
    Writer.reset.addBits [true, false, true] = (⟨0xA0, 3⟩, []) := by decide

theorem witness_WinPushResult :
    let s := onDec (fun d => { d with win := pushed p11 [0x41, 0x42, 0x43] }) (new p11)
    (s.window .dec).Ok (s.params .dec).wsize ∧ (s.window .enc).Ok (s.params .enc).wsize := by decide

theorem witness_WinReadResult :
    let s := onDec (fun d => { d with win := pushed p22 [0x41, 0x42, 0x43, 0x44, 0x45] }) (new p22)
    (s.window .dec).Ok (s.params .dec).wsize ∧ (3 : Dist).toNat < (s.window .dec).count
    ∧ (s.window .dec).count ≤ (4 : Dist).toNat
    ∧ (s.window .enc).Ok (s.params .enc).wsize ∧ (s.window .enc).count ≤ (0 : Dist).toNat := by decide

theorem witness_PushesSinceReset :
    4 < min [1, 2, 3, 4, 5].length (Params.wsize .w4l4) ∧ min [1, 2, 3, 4, 5].length (Params.wsize .w4l4) ≤ 5 := by decide

theorem witness_LaEnqResult :
    let s := onEnc (fun e => { e with la := ⟨[(1, 0x42)], 1, 1⟩ }) (new p41)
    s.enc.la.Ok s.enc.params.lsize ∧ s.enc.la.count < s.enc.params.lsize := by decide

theorem witness_LaPopResult :
    let s := onEnc (fun e => { e with la := ⟨[(1, 0x42)], 1, 1⟩ }) (new p41)
    (s.enc.la.Ok s.enc.params.lsize ∧ s.enc.la.count ≠ 0)
    ∧ ((new p41).enc.la.Ok (new p41).enc.params.lsize ∧ (new p41).enc.la.count = 0) := by decide

theorem witness_LaPeekResult :
    let s := onEnc (fun e => { e with la := queued p41 [0x41, 0x42] }) (new p41)
    1 < s.enc.la.count ∧ s.enc.la.count ≤ 2 := by decide

theorem witness_MatchLengthIsLargest : ([0x41, 0x42, 0x41] : List Byte)[2]? = some 0x41
    ∧ 2 < matchLen [0x41, 0x42, 0x41] 0 [0x41, 0x42, 0x41]
    ∧ matchLen [0x41, 0x42, 0x41] 2 [0x41, 0x42, 0x41] < [0x41, 0x42, 0x41].length := by decide

/-- A reference of the greatest length at the greatest distance of a full window (ENC-9). -/
theorem witness_DecidedReferenceFitsFields :
    ([0x41, 0x42, 0x43, 0x44] : List Byte).length ≤ p22.wsize ∧ ([0x42, 0x43, 0x44] : List Byte).length + 1 ≤ p22.lsize
    ∧ matchToken [0x41, 0x42, 0x43, 0x44] 0x41 [0x42, 0x43, 0x44] = .backRef 3 4 := by decide

theorem witness_DecideCommitsToken :
    let a := onEnc (fun e => { e with la := queued p41 [0x41, 0x42] }) (new p41)
    let b := onEnc (fun e => { e with la := queued p41 [0x41], eof := true }) (new p41)
    (a.enc.win.Ok a.enc.params.wsize ∧ a.enc.la.Ok a.enc.params.lsize ∧ a.enc.ph = .tokenStart ∧ a.enc.la.count ≠ 0
      ∧ a.enc.la.count = a.enc.params.lsize)
    ∧ (b.enc.win.Ok b.enc.params.wsize ∧ b.enc.la.Ok b.enc.params.lsize ∧ b.enc.ph = .tokenStart ∧ b.enc.la.count ≠ 0
      ∧ b.enc.eof = true) := by decide

theorem witness_EmitGivesOneBit :
    let s := fun n => onEnc (fun e => { e with tok := [true], ph := .tokenEmit, bw := ⟨0, n⟩ }) (new .w4l4)
    ((s 7).enc.ph = .tokenEmit ∧ (s 7).enc.out.valid = false ∧ (s 7).enc.tok = [true] ∧ (s 7).enc.bw.n = 7)
    ∧ ((s 0).enc.ph = .tokenEmit ∧ (s 0).enc.out.valid = false ∧ (s 0).enc.tok = [true] ∧ (s 0).enc.bw.n ≠ 7) := by decide

theorem witness_FlushEndsPass :
    let s := fun n => onEnc (fun e => { e with eof := true, bw := ⟨0, n⟩ }) (new .w4l4)
    ((s 0).enc.ph = .tokenStart ∧ (s 0).enc.la.count = 0 ∧ (s 0).enc.eof = true ∧ (s 0).enc.out.valid = false
      ∧ (s 0).enc.bw.n = 0) ∧ (s 7).enc.bw.n ≠ 0 ∧ (s 7).enc.la.count = 0 ∧ (s 7).enc.eof = true := by decide

/-- The clauses in which an encoder step holds, of DecideCommitsToken, EmitGivesOneBit and FlushEndsPass. -/
theorem witness_EncoderStepsHold :
    let f := onEnc (fun e => { e with out := ⟨true, 0x41⟩, ph := .done }) (new p41)
    let q := onEnc (fun e => { e with la := queued p41 [0x41] }) (new p41)
    f.enc.ph ≠ .tokenStart ∧ f.enc.ph ≠ .tokenEmit ∧ f.enc.out.valid = true
    ∧ (new p41).enc.la.count = 0 ∧ (new p41).enc.eof = false
    ∧ q.enc.la.count ≠ q.enc.params.lsize ∧ q.enc.la.count ≠ 0 ∧ q.enc.eof = false := by decide

theorem witness_OperationsWait :
    let f := onEnc (fun e => { e with out := ⟨true, 0x41⟩, la := queued p41 [0x41, 0x42] }) (new p41)
    f.enc.out.valid = true ∧ f.enc.params.lsize ≤ f.enc.la.count := by decide

theorem witness_TagBitSelectsPhase :
    let s := fun a => onDec (fun d => { d with rd := slots a true 0 false 7 }) (new .w4l4)
    ((s 1).dec.ph = .tagBit ∧ (s 1).dec.rd.readBit (s 1).dec.eof = .done (some true) { Reader.reset with shifted := 1 })
    ∧ ((s 0).dec.ph = .tagBit
      ∧ (s 0).dec.rd.readBit (s 0).dec.eof = .done (some false) { Reader.reset with shifted := 1 }) := by decide

theorem witness_LiteralStepPushesAndEmits :
    let s := onDec (fun d => { d with win := pushed p11 [1, 2, 3], rd := slots 0x41 true 0 false 0, ph := .literalByte }) (new p11)
    s.dec.win.Ok s.dec.params.wsize ∧ s.dec.ph = .literalByte ∧ s.dec.out.valid = false
    ∧ s.dec.rd.readByte s.dec.eof = .done (some 0x41) { Reader.reset with shifted := 1 } := by decide

/-- The one byte of an 8-bit distance, and the first and second of a 16-bit one. -/
theorem witness_DistanceStepAssembles :
    let s := fun p k => onDec (fun d => { d with rd := slots 0xFF true 0 false 0, ph := .refDistance, k := k, dist := 0xFF }) (new p)
    [(s p74 false), (s .w8l4 false), (s .w8l4 true)].all (fun s => s.dec.ph = .refDistance
      ∧ s.dec.rd.readByte s.dec.eof = .done (some 0xFF) { Reader.reset with shifted := 1 }) = true := by decide

/-- Before the last bit; at it, with the distance just inside and just outside the window. -/
theorem witness_LengthStepChecksDistance :
    let s := fun i d => onDec (fun u => { u with win := pushed .w4l4 [0x41], rd := slots 1 true 0 false 7, ph := .refLength, i := i, dist := d }) (new .w4l4)
    [s 2 0, s 3 0, s 3 1].all (fun s => s.dec.ph = .refLength
      ∧ s.dec.rd.readBit s.dec.eof = .done (some true) { Reader.reset with shifted := 1 }) = true
    ∧ (s 2 0).dec.i + 1 ≠ (s 2 0).dec.params.L
    ∧ ((s 3 0).dec.i + 1 = (s 3 0).dec.params.L ∧ (s 3 0).dec.dist.toNat < (s 3 0).dec.win.count)
    ∧ ((s 3 1).dec.i + 1 = (s 3 1).dec.params.L ∧ (s 3 1).dec.win.count ≤ (s 3 1).dec.dist.toNat) := by decide

/-- The oldest byte of a full window, the last copy of a token. -/
theorem witness_CopyStepReadsPushesEmits :
    let s := onDec (fun d => { d with win := pushed p11 [1, 2, 3], ph := .refEmit, rem := 1, dist := 1 }) (new p11)
    s.dec.win.Ok s.dec.params.wsize ∧ s.dec.ph = .refEmit ∧ s.dec.out.valid = false
    ∧ s.dec.dist.toNat < s.dec.win.count := by decide

/-- Every phase that reads; the same states meet the NONE clauses of the four steps' own statements. -/
theorem witness_InputEndIsSoft :
    let s := fun ph => { onDec (fun d => { d with eof := true, ph := ph }) (new .w4l4) with sched := [.decCore] }
    [DecPhase.tagBit, .literalByte, .refDistance, .refLength].all (fun ph => (s ph).turn = .decCore
      ∧ (s ph).dec.rd.v0 = false ∧ (s ph).dec.eof = true ∧ (s ph).dec.ph = ph ∧ (s ph).dec.out.valid = false
      ∧ (s ph).dec.rd.readBit (s ph).dec.eof = .done none (s ph).dec.rd
      ∧ (s ph).dec.rd.readByte (s ph).dec.eof = .done none (s ph).dec.rd) = true := by decide

/-- The clauses in which a decoder step holds, of the five steps' statements. -/
theorem witness_DecoderStepsHold :
    let s := onDec (fun d => { d with out := ⟨true, 0x41⟩, ph := .done }) (new p74)
    let r := onDec (fun d => { d with rd := slots 0xA5 true 0 false 1 }) (new .w8l4)
    s.dec.ph ≠ .tagBit ∧ s.dec.ph ≠ .literalByte ∧ s.dec.ph ≠ .refDistance ∧ s.dec.ph ≠ .refLength ∧ s.dec.ph ≠ .refEmit
    ∧ s.dec.out.valid = true ∧ (new .w4l4).dec.rd.readBit (new .w4l4).dec.eof = .hold
    ∧ r.dec.rd.readByte r.dec.eof = .hold := by decide

theorem witness_TokensHoldOutsideTagBit :
    let s := fun p => onDec (fun d => { d with ph := .refEmit }) (new p)
    ((s p74).dec.ph ≠ .tagBit ∧ 1 ≤ 16 ∧ 16 ≤ (s p74).dec.params.lsize ∧ (s p74).dec.params.W ≤ 7)
    ∧ ((s .w8l4).dec.ph ≠ .tagBit ∧ 1 ≤ 1 ∧ 1 ≤ (s .w8l4).dec.params.lsize ∧ 8 ≤ (s .w8l4).dec.params.W) := by decide

/-- In `TokenStart` and in `TokenEmit`, one place free. -/
theorem witness_PutToEncoderEnqueues :
    let s := fun ph => onEnc (fun e => { e with la := ⟨[(1, 0x42)], 1, 1⟩, ph := ph }) (new p41)
    [EncPhase.tokenStart, .tokenEmit].all (fun ph => (s ph).enc.la.Ok (s ph).enc.params.lsize ∧ (s ph).enc.eof = false
      ∧ (s ph).enc.la.count < (s ph).enc.params.lsize ∧ (s ph).enc.ph ≠ .done ∧ (s ph).enc.ph ≠ .fault) = true := by decide

theorem witness_PutToDecoderFillsSlots :
    let s := fun v => onDec (fun d => { d with rd := slots 0 v 0 false 0, ph := .refEmit }) (new .w4l4)
    [true, false].all (fun v => (s v).dec.eof = false ∧ (s v).dec.rd.v1 = false ∧ (s v).dec.ph ≠ .done
      ∧ (s v).dec.ph ≠ .fault ∧ (s v).dec.rd.v0 = v) = true := by decide

theorem witness_EofSetsBit : (new .w4l4).enc.eof = false ∧ (new .w4l4).dec.eof = false := by decide

theorem witness_TakeDeliversByte :
    let s := onDec (fun d => { d with out := ⟨true, 0x41⟩, ph := .fault }) (onEnc (fun e => { e with out := ⟨true, 0x42⟩, ph := .done }) (new .w4l4))
    s.enc.out.valid = true ∧ s.dec.out.valid = true := by decide

/-- The clauses in which a host action waits, of the four actions' statements. -/
theorem witness_HostActionsWait :
    let s := onDec (fun d => { d with eof := true, rd := slots 1 true 2 true 0, ph := .fault })
      (onEnc (fun e => { e with eof := true, la := queued p41 [0x41, 0x42], ph := .done }) (new p41))
    s.enc.eof = true ∧ s.enc.params.lsize ≤ s.enc.la.count ∧ s.enc.ph = .done ∧ s.dec.eof = true ∧ s.dec.rd.v1 = true
    ∧ s.dec.ph = .fault ∧ s.eofOf .enc = true ∧ s.eofOf .dec = true ∧ (s.outOf .enc).valid = false
    ∧ (s.outOf .dec).valid = false := by decide

/-- A PUT after EOF, to each unit, and a RESET. -/
theorem witness_NoInputAfterEof :
    let s := fun a => { onDec (fun d => { d with eof := true }) (onEnc (fun e => { e with eof := true }) (new p41)) with
      sched := [.host], host := { HostSide.idle with pending := [a] } }
    [s (.putEnc 1), s (.putDec 1), s (.reset .enc), s (.reset .dec)].all (fun s => s.enc.eof && s.dec.eof
      && (afterStep s).isSome) = true := by decide

theorem witness_ResetIsConstruction :
    let s := onDec (fun d => { d with ph := .fault, cause := .distRange }) (onEnc (fun e => { e with ph := .done }) (new p41))
    (∃ t, exec (.reset .enc) s = .next t) ∧ ∃ t, exec (.reset .dec) s = .next t :=
  ⟨⟨_, rfl⟩, ⟨_, rfl⟩⟩

/-- A turn of each agent, with a step and without one. -/
theorem witness_StepRunsSelectedInstruction :
    let s := fun t acts => { new Params.w4l4 with sched := [t], host := { HostSide.idle with pending := acts } }
    ((s .encCore []).turn = .encCore ∧ (s .encCore []).enc.selected = some .encFlush)
    ∧ ((s .decCore []).turn = .decCore ∧ (s .decCore []).dec.selected = some .decTag)
    ∧ ((s .host [.putEnc 0x41]).turn = .host ∧ (s .host [.putEnc 0x41]).host.pending = [.putEnc 0x41]
        ∧ (s .host [.putEnc 0x41]).spendTurn.allows (.putEnc 0x41) = true)
    ∧ ((s .host [.take .dec]).turn = .host ∧ (s .host [.take .dec]).host.pending = [.take .dec]
        ∧ (s .host [.take .dec]).spendTurn.allows (.take .dec) = false)
    ∧ (s .host []).fetch = none ∧ (s .token []).fetch = none := by decide

theorem witness_StepRunsToken :
    let s : State := { new .w4l4 with sched := [.token], host := { HostSide.idle with pending := [.putDec 0xA0, .putDec 0x80, .eof .dec] } }
    s.turn = .token ∧ s.dec.ph = .tagBit ∧ (∃ bits d, s.dec.fetchTokenBits s.host.pending = some (bits, d, [.eof .dec])
      ∧ decodeBits s.dec.params bits = .ok (.lit 0x41, [])) :=
  ⟨rfl, rfl, _, _, rfl, rfl⟩

/-- The two outcomes of the token clause: a literal with room, and one without. -/
theorem witness_StepRunsTokenRoom :
    [false, true].map (fun v => (onDec (fun d => { d with out := ⟨v, 0⟩ }) (new .w4l4)).tokenHasRoom (.lit 0x41))
      = [true, false] := by decide

/-- In the middle of a copy at the greatest distance of a full window. -/
def copying : State := { onDec (fun d => { d with win := pushed p11 [1, 2, 3], ph := .refEmit, rem := 2, dist := 1 }) (new p11) with sched := [.decCore] }

/-- A state that meets the invariant, and a step from it. -/
theorem witness_StepKeepsInvariants :
    copying.Inv ∧ (afterStep copying).map (fun t => (t.dec.rem, t.dec.out)) = some (1, ⟨true, 2⟩) :=
  ⟨by decide, by decide⟩

/-- `Fault` and `Done` of both units, with a RESET and with a TAKE as the step. -/
theorem witness_EndPhasesAreLeftOnlyByReset :
    let s := fun ph a => { onDec (fun d => { d with ph := ph, out := ⟨true, 1⟩ }) (onEnc (fun e => { e with ph := .done, out := ⟨true, 2⟩ }) (new p11)) with
      sched := [.host], host := { HostSide.idle with pending := [a] } }
    [s .fault (.reset .dec), s .done (.take .dec), s .fault (.reset .enc), s .done (.take .enc)].all (fun s =>
      (afterStep s).isSome && (s.dec.ph = .fault || s.dec.ph = .done) && s.enc.ph = .done) = true := by decide

theorem witness_EmittedBytesAreNeverLost :
    let s : State := { onDec (fun d => { d with win := pushed p11 [1], ph := .refEmit, rem := 1 }) (new p11) with sched := [.decCore] }
    s.turn ≠ .token ∧ (afterStep s).map (fun t => (s.output .dec, t.output .dec)) = some ([], [1]) := by decide

theorem witness_UnitsShareNothing :
    let s := onEnc (fun e => { e with la := queued p41 [0x41, 0x42] }) (new p41)
    s.enc.selected = some .encDecide ∧ s.dec.selected = some .decTag := by decide

/-- A pass that ends: no input, then EOF. -/
theorem witness_EncoderPassEmitsReference :
    encPass [] [.eof .enc] ∧ ∃ s, runSteps 2 (State.start .w4l4 .w4l4 [.eof .enc] [.host, .encCore] 0) = .next s
      ∧ s.enc.ph = .done :=
  ⟨rfl, _, rfl, rfl⟩

/-- A pass whose first emitted byte is out: one literal, eight of its nine bits. -/
theorem witness_EncoderPassInProgress :
    encPass [0x41] [.putEnc 0x41, .eof .enc]
    ∧ ∃ s, runSteps 11 (State.start .w4l4 .w4l4 [.putEnc 0x41, .eof .enc] (.host :: .host :: List.replicate 9 .encCore) 0)
        = .next s ∧ s.output .enc = [0xA0] :=
  ⟨rfl, _, rfl, rfl⟩

/-- DEC-18, and DEC-8 as one token turn. -/
theorem witness_DecoderPassOutputsReference :
    (decPass [] [.eof .dec] ∧ ∃ s, runSteps 2 (State.start .w4l4 .w4l4 [.eof .dec] [.host, .decCore] 0) = .next s
      ∧ s.dec.ph = .done)
    ∧ (decPass [0, 0, 0] [.putDec 0, .putDec 0, .putDec 0, .eof .dec]
      ∧ ∃ s, runSteps 1 (State.start .w4l4 .w4l4 [.putDec 0, .putDec 0, .putDec 0, .eof .dec] [.token] 0) = .next s
        ∧ s.dec.ph = .fault) :=
  ⟨⟨rfl, _, rfl, rfl⟩, rfl, _, rfl, rfl⟩

/-- PROG-1's tokens, a literal alone, and the longest reference. -/
theorem witness_StreamDecodesToItsTokens :
    (encodable .w4l4 (.literal 0x41) ∧ encodable .w4l4 (.backRef 255 16))
    ∧ programBytes .w4l4 [] [.literal 0x41, .literal 0x42, .literal 0x43, .backRef 2 3]
      = some [0x41, 0x42, 0x43, 0x41, 0x42, 0x43] :=
  ⟨⟨trivial, by decide, by decide, by decide⟩, by decide⟩

theorem witness_EncoderReachesDone :
    let s := onEnc (fun e => { e with eof := true, la := queued p41 [0x41] }) (new p41)
    s.Inv ∧ s.enc.eof = true := by decide

end Sys2Proof.Tests
end

section
/-! PROOFS. Construction of a configuration and of a system from numbers (00_scope R9, 60_exceptions R305). -/

namespace Sys2Proof

/-- What construction answers, and when it answers. -/
theorem Params.make?_eq_some_iff {W L : Nat} {p : Params} :
    Params.make? W L = some p ↔ p.W = W ∧ p.L = L := by
  obtain ⟨pW, pL, hW, hL⟩ := p
  constructor
  · intro h
    simp only [Params.make?, Option.dite_none_right_eq_some, Option.some.injEq, Params.mk.injEq] at h
    obtain ⟨_, hw, hl⟩ := h
    exact ⟨hw.symm, hl.symm⟩
  · rintro ⟨rfl, rfl⟩
    exact dif_pos ⟨hW, hL⟩

theorem Params.make?_isSome_iff {W L : Nat} :
    (Params.make? W L).isSome = true ↔ (1 ≤ W ∧ W ≤ 16) ∧ (1 ≤ L ∧ L ≤ 16) := by
  constructor
  · intro h
    obtain ⟨p, hp⟩ := Option.isSome_iff_exists.mp h
    obtain ⟨rfl, rfl⟩ := Params.make?_eq_some_iff.mp hp
    exact ⟨p.hW, p.hL⟩
  · rintro ⟨hW, hL⟩
    exact Option.isSome_of_eq_some (Params.make?_eq_some_iff (p := ⟨W, L, hW, hL⟩).mpr ⟨rfl, rfl⟩)

end Sys2Proof

namespace Sys2Proof.Machine

theorem State.construct?_isSome_iff {We Le Wd Ld : Nat} :
    (State.construct? We Le Wd Ld).isSome = true ↔
      (Params.make? We Le).isSome = true ∧ (Params.make? Wd Ld).isSome = true := by
  unfold State.construct?
  cases Params.make? We Le <;> cases Params.make? Wd Ld <;> simp

/-- Settles O6: a `Params` value carries its own range, so the numbers it is built from lie in it. -/
theorem constructionRefusesOutOfRange : Obligations.ConstructionRefusesOutOfRange := by
  intro We Le Wd Ld
  refine ⟨Params.make?_isSome_iff, fun p hp => Params.make?_eq_some_iff.mp hp, ?_⟩
  rw [State.construct?_isSome_iff, Params.make?_isSome_iff, Params.make?_isSome_iff, and_assoc]

end Sys2Proof.Machine
end

section
/-! PROOFS. Whole tokens at the front of a bit string (30_encoding R91-R97, R103, R107). -/

namespace Sys2Proof

@[simp] theorem ofBits_byteBits (b : Byte) : ofBits (byteBits b) = b.toNat :=
  ofBits_bitsN_of_lt b.isLt

/-- Eight bits are the bits of one byte, whose value is theirs. -/
theorem exists_byteBits_eq {l : List Bool} (h : l.length = 8) : ∃ b, byteBits b = l := by
  refine ⟨BitVec.ofNat 8 (ofBits l), ?_⟩
  rw [byteBits, BitVec.toNat_ofNat, bitsN_mod (le_refl 8), ← h, bitsN_ofBits]

theorem indexBits_of_le {p : Params} (h : p.W ≤ 7) : p.indexBits = 8 := by
  rw [indexBits_eq, if_pos h]

theorem indexBits_of_ge {p : Params} (h : 8 ≤ p.W) : p.indexBits = 16 := by
  rw [indexBits_eq, if_neg (by omega)]

theorem decodeToken_literal (p : Params) (b : Byte) (rest : List Bool) :
    decodeToken p (true :: (byteBits b ++ rest)) = .ok (.literal b, rest) := by
  have hlen : ¬ (byteBits b ++ rest).length < 8 := by simp
  rw [decodeToken, if_neg hlen, List.take_left' (byteBits_length b), List.drop_left' (byteBits_length b),
    byte_ofBits_byteBits]

theorem decodeToken_backRef {p : Params} {index field : List Bool} (hindex : index.length = p.indexBits)
    (hfield : field.length = p.L) (rest : List Bool) :
    decodeToken p (false :: (index ++ (field ++ rest))) = .ok (.backRef (ofBits index) (ofBits field + 1), rest) := by
  have hlen : ¬ (index ++ (field ++ rest)).length < p.indexBits + p.L := by
    simp only [List.length_append]
    omega
  rw [decodeToken, if_neg hlen, List.take_left' hindex, List.drop_left' hindex]
  simp only [List.take_left' hfield, List.drop_left' hfield]

theorem decodeBits_of_decodeToken {p : Params} {bits rest : List Bool} {t : Token}
    (h : decodeToken p bits = .ok (t, rest)) : decodeBits p bits = .ok (t.toInstr p, rest) := by
  rw [decodeBits, h]

theorem toInstr_backRef_ref8 {p : Params} (h : p.W ≤ 7) (d n : Nat) :
    (Token.backRef d n).toInstr p = .ref8 (BitVec.ofNat 8 d) n := by
  rw [Token.toInstr, if_pos (indexBits_of_le h)]

theorem toInstr_backRef_ref16 {p : Params} (h : 8 ≤ p.W) (d n : Nat) :
    (Token.backRef d n).toInstr p = .ref16 (BitVec.ofNat 16 d) n := by
  rw [Token.toInstr, if_neg (by rw [indexBits_of_ge h]; decide)]

/-- The 16-bit index field holds its high byte first (R97). -/
theorem ofBits_two_bytes (hi lo : Byte) : ofBits (byteBits hi ++ byteBits lo) = 256 * hi.toNat + lo.toNat := by
  rw [ofBits_append, byteBits_length, ofBits_byteBits, ofBits_byteBits]
  omega

/-- Settles O1: each clause is one branch of the decoder, taken by the length of what follows the tag. -/
theorem tagBitSelectsTokenAndLength : Obligations.TagBitSelectsTokenAndLength := by
  intro p rest
  refine ⟨?_, fun h => ⟨_, if_neg (Nat.not_lt.mpr h)⟩, fun h => if_pos h, fun h => ?_, fun h => if_pos h⟩
  · rcases Nat.lt_or_ge p.W 8 with h | h
    · rw [indexBits_of_le (by omega), if_neg (by omega)]
    · rw [indexBits_of_ge h, if_pos h]
  · rw [decodeToken, if_neg (Nat.not_lt.mpr h), ← List.drop_drop]
    exact ⟨_, _, rfl⟩

/-- Settles O2: the fields are cut off at their own lengths, and the index field's value is that of its bytes. -/
theorem operandsAssembleMostSignificantFirst : Obligations.OperandsAssembleMostSignificantFirst := by
  intro p b hi lo f rest hf
  refine ⟨decodeBits_of_decodeToken (decodeToken_literal p b rest), fun hW => ?_, fun hW => ?_⟩
  · have hindex : (byteBits lo).length = p.indexBits := by rw [byteBits_length, indexBits_of_le hW]
    rw [List.append_assoc, decodeBits_of_decodeToken (decodeToken_backRef hindex hf rest), toInstr_backRef_ref8 hW,
      byte_ofBits_byteBits]
  · have hindex : (byteBits hi ++ byteBits lo).length = p.indexBits := by
      rw [List.length_append, byteBits_length, byteBits_length, indexBits_of_ge hW]
    refine ⟨BitVec.ofNat 16 (ofBits (byteBits hi ++ byteBits lo)), ?_, ?_⟩
    · rw [ofBits_two_bytes, BitVec.toNat_ofNat, Nat.mod_eq_of_lt (by omega)]
    · rw [List.append_assoc, decodeBits_of_decodeToken (decodeToken_backRef hindex hf rest), toInstr_backRef_ref16 hW]

/-- Settles O5: the model's encoder and decoder, run on the encodings R107 writes out. -/
theorem workedEncodings : Obligations.WorkedEncodings := by
  unfold Obligations.WorkedEncodings
  decide

end Sys2Proof
end

section
/-! PROOFS. Packing bits into bytes and reading them back (30_encoding R90, R105). -/

namespace Sys2Proof

@[simp] theorem streamBits_cons (b : Byte) (bs : List Byte) : streamBits (b :: bs) = byteBits b ++ streamBits bs :=
  List.flatMap_cons

theorem pack_byteBits_append (b : Byte) (rest : List Bool) : pack (byteBits b ++ rest) = b :: pack rest := by
  have hcount : (byteBits b ++ rest).length / 8 = rest.length / 8 + 1 := by
    rw [List.length_append, byteBits_length, Nat.add_comm, Nat.add_div_right _ (by decide)]
  have hdrop (k : Nat) : (byteBits b ++ rest).drop (8 * (k + 1)) = rest.drop (8 * k) := by
    rw [Nat.mul_add, Nat.add_comm, ← List.drop_drop, List.drop_left' (byteBits_length b)]
  rw [pack, hcount, List.range_succ_eq_map, List.map_cons, List.map_map, Nat.mul_zero, List.drop_zero,
    List.take_left' (byteBits_length b), byte_ofBits_byteBits]
  simp only [Function.comp_def, Nat.succ_eq_add_one, hdrop, pack]

/-- Packing whole bytes loses no bit. -/
theorem streamBits_pack {k : Nat} {bits : List Bool} (h : bits.length = 8 * k) : streamBits (pack bits) = bits := by
  induction k generalizing bits with
  | zero => rw [List.eq_nil_of_length_eq_zero h]; rfl
  | succ k ih =>
    obtain ⟨b, hb⟩ := exists_byteBits_eq (l := bits.take 8) (by rw [List.length_take]; omega)
    have hsplit : bits = byteBits b ++ bits.drop 8 := by rw [hb, List.take_append_drop]
    rw [hsplit, pack_byteBits_append, streamBits_cons, ih (by rw [List.length_drop]; omega)]

/-- A packed bit string reads back as itself, with fewer than eight zeros after it (R90). -/
theorem streamBits_packPadded (bits : List Bool) :
    ∃ k < 8, streamBits (packPadded bits) = bits ++ List.replicate k false := by
  refine ⟨(8 - bits.length % 8) % 8, Nat.mod_lt _ (by decide), streamBits_pack (k := (bits.length + 7) / 8) ?_⟩
  rw [List.length_append, List.length_replicate]
  omega

theorem length_le_length_encoding (p : Params) (ts : List Token) :
    ts.length ≤ (ts.flatMap (encodeToken p)).length := by
  induction ts with
  | nil => exact Nat.zero_le _
  | cons t ts ih =>
    have hpos : 0 < (encodeToken p t).length := by cases t <;> exact Nat.succ_pos _
    rw [List.flatMap_cons, List.length_append, List.length_cons]
    omega

end Sys2Proof
end

section
/-! PROOFS. The decoder's reference on the stream of a token program (30_encoding R106; 44_decoder R241, R247). -/

namespace Sys2Proof.Machine

/-! ## The fields of a token -/

theorem refByte_byteBits_append (b : Byte) (rest : List Bool) : refByte (byteBits b ++ rest) = some (b, rest) := by
  have hne : byteBits b ++ rest ≠ [] := by simp [← List.length_eq_zero_iff]
  have hfull : 8 - (byteBits b ++ rest).length = 0 := by simp
  rw [refByte, if_neg hne, hfull, List.take_left' (byteBits_length b), List.drop_left' (byteBits_length b),
    List.replicate_zero, List.append_nil, byte_ofBits_byteBits]

theorem refByte_nil : refByte [] = none :=
  if_pos rfl

/-- Eight bits or fewer leave nothing behind. -/
theorem refByte_rest_nil {bits rest : List Bool} {b : Byte} (hlen : bits.length ≤ 8)
    (h : refByte bits = some (b, rest)) : rest = [] := by
  rw [refByte] at h
  split at h
  · cases h
  · cases h
    exact List.drop_eq_nil_of_le hlen

theorem refDistance_append {p : Params} {index : List Bool} (hindex : index.length = p.indexBits) (rest : List Bool) :
    refDistance p (index ++ rest) = some (ofBits index, rest) := by
  rcases Nat.lt_or_ge p.W 8 with hW | hW
  · have hIW : p.indexBits = 8 := indexBits_of_le (by omega)
    obtain ⟨b, rfl⟩ := exists_byteBits_eq (hindex.trans hIW)
    simp [refDistance, refByte_byteBits_append, hIW]
  · have hIW : p.indexBits = 16 := indexBits_of_ge hW
    obtain ⟨hi, hhi⟩ := exists_byteBits_eq (l := index.take 8) (by rw [List.length_take]; omega)
    obtain ⟨lo, hlo⟩ := exists_byteBits_eq (l := index.drop 8) (by rw [List.length_drop]; omega)
    have hsplit : index = byteBits hi ++ byteBits lo := by rw [hhi, hlo, List.take_append_drop]
    rw [hsplit, ofBits_two_bytes, List.append_assoc]
    simp [refDistance, refByte_byteBits_append, hIW]

theorem refField_append {p : Params} {field : List Bool} (hfield : field.length = p.L) (rest : List Bool) :
    refField p (field ++ rest) = some (ofBits field, rest) := by
  have hlen : ¬ (field ++ rest).length < p.L := by
    rw [List.length_append]
    omega
  rw [refField, if_neg hlen, List.take_left' hfield, List.drop_left' hfield]

/-- A length field has at least one bit. -/
theorem refField_nil (p : Params) : refField p [] = none :=
  if_pos p.hL.1

/-! ## One token of the loop -/

theorem lastN_length_le {α : Type} (n : Nat) (l : List α) : (lastN n l).length ≤ n := by
  rw [lastN, List.length_drop]
  omega

/-- The window after a copy is the window before it with the bytes copied pushed. -/
theorem refCopy_window (p : Params) (d n : Nat) {h : List Byte} (hh : h.length ≤ p.wsize) :
    (refCopy p d n h).1 = lastN p.wsize (h ++ (refCopy p d n h).2) := by
  induction n generalizing h with
  | zero => rw [refCopy, List.append_nil, lastN_of_le hh]
  | succ n ih =>
    simp only [refCopy]
    rw [ih (lastN_length_le _ _), lastN_append, List.append_assoc, List.singleton_append]

/-- Decoding an encoded token puts out the token's bytes and goes on behind it, with those bytes pushed. -/
theorem refDecodeLoop_encodeToken {p : Params} {t : Token} {h o : List Byte} (ht : encodable p t)
    (hh : h.length ≤ p.wsize) (ho : tokenBytes p h t = some o) (fuel : Nat) (rest : List Bool) :
    refDecodeLoop p (fuel + 1) h (encodeToken p t ++ rest) =
      (o ++ (refDecodeLoop p fuel (lastN p.wsize (h ++ o)) rest).1,
        (refDecodeLoop p fuel (lastN p.wsize (h ++ o)) rest).2) := by
  cases t with
  | literal b =>
    obtain rfl : [b] = o := Option.some.inj ho
    simp only [encodeToken, List.cons_append, refDecodeLoop, refByte_byteBits_append, List.nil_append]
  | backRef d n =>
    obtain ⟨hd, hn, hnL⟩ := ht
    obtain ⟨hlegal, ho⟩ := Option.ite_none_right_eq_some.mp ho
    obtain rfl : (refCopy p d n h).2 = o := Option.some.inj ho
    have hindex : ofBits (bitsN p.indexBits d) = d := ofBits_bitsN_of_lt hd
    have hfield : ofBits (bitsN p.L (n - 1)) + 1 = n := by
      have hlt : n - 1 < 2 ^ p.L := by unfold Params.lsize at hnL; omega
      rw [ofBits_bitsN_of_lt hlt, Nat.sub_add_cancel hn]
    simp only [encodeToken, List.cons_append, List.append_assoc, refDecodeLoop,
      refDistance_append (bitsN_length _ d), refField_append (bitsN_length _ (n - 1)), Option.bind_some, Option.map_some,
      hindex, hfield, if_neg (Nat.not_le.mpr hlegal), ← refCopy_window p d n hh]

/-! ## The end of the stream -/

/-- The padding holds no whole back-reference: its distance takes every bit left, and a length field has no bits
then (R106, R247). -/
theorem refDecodeLoop_padding (p : Params) (fuel : Nat) (h : List Byte) {k : Nat} (hk : k < 8) :
    refDecodeLoop p fuel h (List.replicate k false) = ([], false) := by
  cases fuel with
  | zero => rfl
  | succ fuel =>
    cases k with
    | zero => rfl
    | succ k =>
      have hnone : (refDistance p (List.replicate k false)).bind
          (fun (d, r) => (refField p r).map fun (v, r') => (d, v, r')) = none := by
        cases hbyte : refByte (List.replicate k false) with
        | none => simp [refDistance, hbyte]
        | some first =>
          obtain ⟨b, rest⟩ := first
          obtain rfl := refByte_rest_nil (by rw [List.length_replicate]; omega) hbyte
          by_cases hIW : p.indexBits = 16
          · simp [refDistance, hbyte, hIW, refByte_nil]
          · simp [refDistance, hbyte, hIW, refField_nil]
      rw [List.replicate_succ, refDecodeLoop, hnone]

/-! ## A whole program -/

/-- From any window on, with fuel for every token. -/
theorem refDecodeLoop_program {p : Params} {ts : List Token} {h out : List Byte} {fuel k : Nat}
    (hts : ∀ t ∈ ts, encodable p t) (hh : h.length ≤ p.wsize) (hout : programBytes p h ts = some out)
    (hfuel : ts.length ≤ fuel) (hk : k < 8) :
    refDecodeLoop p fuel h (ts.flatMap (encodeToken p) ++ List.replicate k false) = (out, false) := by
  induction ts generalizing h out fuel with
  | nil =>
    obtain rfl : [] = out := Option.some.inj hout
    exact refDecodeLoop_padding p fuel h hk
  | cons t ts ih =>
    obtain ⟨o, ho, hrest⟩ := Option.bind_eq_some_iff.mp hout
    obtain ⟨os, hos, rfl⟩ := Option.map_eq_some_iff.mp hrest
    obtain ⟨ht, hts⟩ := List.forall_mem_cons.mp hts
    obtain ⟨fuel, rfl⟩ : ∃ m, fuel = m + 1 := ⟨fuel - 1, by rw [List.length_cons] at hfuel; omega⟩
    rw [List.flatMap_cons, List.append_assoc, refDecodeLoop_encodeToken ht hh ho,
      ih hts (lastN_length_le _ _) hos (Nat.le_of_succ_le_succ hfuel)]

/-- Settles O58: token by token, and the padding behind the last one decodes to nothing. -/
theorem streamDecodesToItsTokens : Obligations.StreamDecodesToItsTokens := by
  intro p ts out hts hout
  obtain ⟨k, hk, hbits⟩ := streamBits_packPadded (ts.flatMap (encodeToken p))
  have hfuel : ts.length ≤ (ts.flatMap (encodeToken p) ++ List.replicate k false).length := by
    rw [List.length_append]
    exact (length_le_length_encoding p ts).trans (Nat.le_add_right _ _)
  rw [refDecode, encodeStream, hbits]
  exact refDecodeLoop_program hts (Nat.zero_le _) hout hfuel hk

end Sys2Proof.Machine
end

section
/-! PROOFS. The bits of a stream by position (00_scope R13, 30_encoding R90), and of a byte put together from two
(40_bitreader R123). -/

namespace Sys2Proof

theorem bitsN_getElem? {k i : Nat} (v : Nat) (h : i < k) : (bitsN k v)[i]? = some (v.testBit (k - 1 - i)) := by
  induction k generalizing i with
  | zero => exact absurd h (Nat.not_lt_zero i)
  | succ k ih =>
    cases i with
    | zero => rfl
    | succ i => rw [bitsN, List.getElem?_cons_succ, ih (by omega), show k - 1 - i = k + 1 - 1 - (i + 1) by omega]

theorem byteBits_getElem? (b : Byte) {i : Nat} (h : i < 8) : (byteBits b)[i]? = some (b.getLsbD (7 - i)) :=
  bitsN_getElem? b.toNat h

/-- Shifted `o` places and filled up from the next byte, a byte holds the first one's last bits and the second one's
first. -/
theorem byteBits_shiftLeft_or_shiftRight (a b : Byte) {o : Nat} (h : o ≤ 8) :
    byteBits (a <<< o ||| b >>> (8 - o)) = (byteBits a).drop o ++ (byteBits b).take o := by
  have hlen : ((byteBits a).drop o).length = 8 - o := by rw [List.length_drop, byteBits_length]
  apply List.ext_getElem?
  intro i
  rcases Nat.lt_or_ge i 8 with hi | hi
  · rw [byteBits_getElem? _ hi, BitVec.getLsbD_or, BitVec.getLsbD_shiftLeft, BitVec.getLsbD_ushiftRight]
    rcases Nat.lt_or_ge i (8 - o) with hio | hio
    · rw [List.getElem?_append_left (by omega), List.getElem?_drop, byteBits_getElem? _ (by omega),
        BitVec.getLsbD_of_ge b _ (by omega), show 7 - (o + i) = 7 - i - o by omega]
      simp [show ¬ 7 - i < o by omega, show 7 - i < 8 by omega]
    · rw [List.getElem?_append_right (by omega), hlen, List.getElem?_take_of_lt (by omega),
        byteBits_getElem? _ (by omega), show 7 - (i - (8 - o)) = 8 - o + (7 - i) by omega]
      simp [show 7 - i < o by omega]
  · have hout : ((byteBits a).drop o ++ (byteBits b).take o).length ≤ i := by
      rw [List.length_append, hlen, List.length_take]
      omega
    rw [List.getElem?_eq_none hout, List.getElem?_eq_none (by rwa [byteBits_length])]

theorem byteBits_zero : byteBits 0#8 = List.replicate 8 false := by decide

/-- Shifted `o` places and not filled up, a byte ends in zeros (R124). -/
theorem byteBits_shiftLeft (a : Byte) {o : Nat} (h : o ≤ 8) :
    byteBits (a <<< o) = (byteBits a).drop o ++ (List.replicate 8 false).take o := by
  rw [← byteBits_zero, ← byteBits_shiftLeft_or_shiftRight a 0#8 h, BitVec.zero_ushiftRight, BitVec.or_zero]

theorem take_eight_drop_byteBits_append (a : Byte) {o : Nat} (h : o ≤ 8) (rest : List Bool) :
    ((byteBits a ++ rest).drop o).take 8 = (byteBits a).drop o ++ rest.take o := by
  have hlen : ((byteBits a).drop o).length = 8 - o := by rw [List.length_drop, byteBits_length]
  rw [List.drop_append_of_le_length (by rwa [byteBits_length]), List.take_append, hlen,
    List.take_of_length_le (by omega), show 8 - (8 - o) = o by omega]

theorem streamBits_drop (n : Nat) (bs : List Byte) : streamBits (bs.drop n) = (streamBits bs).drop (8 * n) := by
  induction n generalizing bs with
  | zero => rfl
  | succ n ih =>
    cases bs with
    | nil => exact List.drop_nil.symm
    | cons b bs =>
      rw [List.drop_succ_cons, ih, streamBits_cons, Nat.mul_succ, Nat.add_comm, ← List.drop_drop,
        List.drop_left' (byteBits_length b)]

/-- The bit that READ_BIT isolates (R122). -/
theorem shiftRight_and_one_beq_one (b : Byte) (n : Nat) : ((b >>> n) &&& 1#8 == 1#8) = b.getLsbD n := by
  rw [BitVec.and_one_eq_setWidth_ofBool_getLsbD, BitVec.getLsbD_ushiftRight]
  cases b.getLsbD n <;> rfl

end Sys2Proof
end

section
/-! PROOFS. What the bit-stream reader answers, and that it reads the stream of bytes put (40_bitreader R122-R126). -/

namespace Sys2Proof.Machine

/-! ## Each outcome of a read -/

theorem readBit_of_empty {r : Reader} (eof : Bool) (hv : r.v0 = false) :
    r.readBit eof = if eof then .done none r else .hold :=
  if_pos hv

theorem readBit_of_off_eq {r : Reader} (eof : Bool) (hv : r.v0 = true) (ho : r.off = 7) :
    r.readBit eof = .done (some (r.slot0.getLsbD (7 - r.off.val))) { r.shift with off := 0 } := by
  simp [Reader.readBit, hv, ho]

theorem readBit_of_off_ne {r : Reader} (eof : Bool) (hv : r.v0 = true) (ho : r.off ≠ 7) :
    r.readBit eof = .done (some (r.slot0.getLsbD (7 - r.off.val))) { r with off := r.off + 1 } := by
  simp [Reader.readBit, hv, ho]

theorem readByte_of_empty {r : Reader} (eof : Bool) (hv : r.v0 = false) :
    r.readByte eof = if eof then .done none r else .hold :=
  if_pos hv

theorem readByte_of_off_eq {r : Reader} (eof : Bool) (hv : r.v0 = true) (ho : r.off = 0) :
    r.readByte eof = .done (some r.slot0) r.shift := by
  simp [Reader.readByte, hv, ho]

theorem readByte_of_both {r : Reader} (eof : Bool) (hv : r.v0 = true) (ho : r.off ≠ 0) (hw : r.v1 = true) :
    r.readByte eof = .done (some (r.slot0 <<< r.off.val ||| r.slot1 >>> (8 - r.off.val))) r.shift := by
  simp [Reader.readByte, hv, ho, hw]

theorem readByte_of_last {r : Reader} (eof : Bool) (hv : r.v0 = true) (ho : r.off ≠ 0) (hw : r.v1 = false) :
    r.readByte eof = if eof then .done (some (r.slot0 <<< r.off.val)) r.shift else .hold := by
  simp [Reader.readByte, hv, ho, hw]

/-! ## The cursor and the bytes held -/

theorem pos_div_eight (r : Reader) : r.pos / 8 = r.shifted := by
  unfold Reader.pos
  omega

theorem pos_mod_eight (r : Reader) : r.pos % 8 = r.off.val := by
  unfold Reader.pos
  omega

theorem pos_shift (r : Reader) : r.shift.pos = r.pos + 8 := by
  simp only [Reader.pos, Reader.shift]
  omega

theorem pos_shift_off_zero {r : Reader} (ho : r.off = 7) : ({ r.shift with off := 0 } : Reader).pos = r.pos + 1 := by
  simp only [Reader.pos, Reader.shift, ho]
  omega

theorem pos_off_succ {r : Reader} (ho : r.off ≠ 7) : ({ r with off := r.off + 1 } : Reader).pos = r.pos + 1 := by
  simp only [Reader.pos]
  omega

theorem held_of_v0 {r : Reader} (hv : r.v0 = true) : r.held = r.slot0 :: if r.v1 then [r.slot1] else [] := by
  rw [Reader.held, if_pos hv, List.singleton_append]

theorem held_length (r : Reader) : r.held.length = r.v0.toNat + r.v1.toNat := by
  cases hv : r.v0 <;> cases hw : r.v1 <;> simp [Reader.held, hv, hw]

/-! ## A reader that follows a stream -/

section
variable {src : List Byte} {r : Reader}

theorem tracks_length (ht : r.tracks src) : src.length - r.shifted = r.v0.toNat + r.v1.toNat := by
  rw [← held_length, ← ht, List.length_drop]

/-- Slot0 is full exactly where the byte under the cursor is in the stream. -/
theorem tracks_v0_iff (hok : r.Ok) (ht : r.tracks src) : r.v0 = true ↔ r.shifted < src.length := by
  rw [← Nat.sub_pos_iff_lt, tracks_length ht]
  revert hok
  unfold Reader.Ok
  cases r.v0 <;> cases r.v1 <;> decide

/-- Slot1 is full exactly where the byte after it is. -/
theorem tracks_v1_iff (hok : r.Ok) (ht : r.tracks src) : r.v1 = true ↔ r.shifted + 1 < src.length := by
  rw [← Nat.lt_sub_iff_add_lt', tracks_length ht]
  revert hok
  unfold Reader.Ok
  cases r.v0 <;> cases r.v1 <;> decide

theorem tracks_shift (hv : r.v0 = true) (ht : r.tracks src) : r.shift.tracks src := by
  have hrest : r.shift.held = r.held.drop 1 := by
    rw [held_of_v0 hv]
    exact List.append_nil _
  rw [Reader.tracks, hrest, ← ht, List.drop_drop]
  rfl

/-- The stream from the cursor on is what the slots hold from the offset on (R126). -/
theorem streamBits_drop_pos (ht : r.tracks src) : (streamBits src).drop r.pos = (streamBits r.held).drop r.off.val := by
  rw [← ht, streamBits_drop, List.drop_drop, Reader.pos]

theorem streamBits_getElem?_pos (hv : r.v0 = true) (ht : r.tracks src) :
    (streamBits src)[r.pos]? = some (r.slot0.getLsbD (7 - r.off.val)) := by
  calc (streamBits src)[r.pos]? = ((streamBits src).drop r.pos)[0]? := by rw [List.getElem?_drop, Nat.add_zero]
    _ = (streamBits r.held)[r.off.val]? := by rw [streamBits_drop_pos ht, List.getElem?_drop, Nat.add_zero]
    _ = (byteBits r.slot0)[r.off.val]? := by
      rw [held_of_v0 hv, streamBits_cons, List.getElem?_append_left (by rw [byteBits_length]; exact r.off.isLt)]
    _ = some (r.slot0.getLsbD (7 - r.off.val)) := byteBits_getElem? _ r.off.isLt

/-- The next eight stream bits, zero-filled: what is left of slot0, then the front of slot1 or of the zeros. -/
theorem streamBits_byte_at_pos (hv : r.v0 = true) (ht : r.tracks src) :
    ((streamBits src).drop r.pos ++ List.replicate 8 false).take 8 =
      (byteBits r.slot0).drop r.off.val
        ++ (if r.v1 then byteBits r.slot1 else List.replicate 8 false).take r.off.val := by
  have ho : r.off.val ≤ 8 := r.off.isLt.le
  rw [streamBits_drop_pos ht, held_of_v0 hv, streamBits_cons,
    ← List.drop_append_of_le_length (by rw [List.length_append, byteBits_length]; omega), List.append_assoc,
    take_eight_drop_byteBits_append _ ho]
  cases r.v1
  · rfl
  · simp [ho, streamBits]

theorem readBit_follows (eof : Bool) (hv : r.v0 = true) (ht : r.tracks src) :
    ∃ b r', r.readBit eof = .done (some b) r' ∧ (streamBits src)[r.pos]? = some b ∧ r'.pos = r.pos + 1
      ∧ r'.tracks src := by
  by_cases ho : r.off = 7
  · exact ⟨_, _, readBit_of_off_eq eof hv ho, streamBits_getElem?_pos hv ht, pos_shift_off_zero ho, tracks_shift hv ht⟩
  · exact ⟨_, _, readBit_of_off_ne eof hv ho, streamBits_getElem?_pos hv ht, pos_off_succ ho, ht⟩

theorem readByte_follows {eof : Bool} (hv : r.v0 = true) (ht : r.tracks src)
    (hready : r.off = 0 ∨ r.v1 = true ∨ eof = true) :
    ∃ v r', r.readByte eof = .done (some v) r' ∧ r'.pos = r.pos + 8 ∧ r'.tracks src
      ∧ byteBits v = ((streamBits src).drop r.pos ++ List.replicate 8 false).take 8 := by
  suffices ∃ v, r.readByte eof = .done (some v) r.shift ∧ byteBits v = (byteBits r.slot0).drop r.off.val
      ++ (if r.v1 then byteBits r.slot1 else List.replicate 8 false).take r.off.val by
    obtain ⟨v, hread, hbits⟩ := this
    exact ⟨v, _, hread, pos_shift r, tracks_shift hv ht, hbits.trans (streamBits_byte_at_pos hv ht).symm⟩
  have hoff : r.off.val ≤ 8 := r.off.isLt.le
  by_cases ho : r.off = 0
  · exact ⟨_, readByte_of_off_eq eof hv ho, by simp [ho]⟩
  by_cases hw : r.v1 = true
  · exact ⟨_, readByte_of_both eof hv ho hw, by rw [if_pos hw, byteBits_shiftLeft_or_shiftRight _ _ hoff]⟩
  · have heof : eof = true := by simpa [ho, hw] using hready
    refine ⟨_, (readByte_of_last eof hv ho (by simpa using hw)).trans (if_pos heof), ?_⟩
    rw [if_neg hw, byteBits_shiftLeft _ hoff]

end

/-- Settles O16: a slot is filled exactly where the stream has a byte for it, so the cases of a read are those of the
cursor's place in the stream. -/
theorem readerFollowsStream : Obligations.ReaderFollowsStream := by
  intro src r eof hok ht
  have hoff : r.pos % 8 = 0 ↔ r.off = 0 := by rw [pos_mod_eight, Fin.val_eq_zero_iff]
  have hbyte : r.pos < 8 * src.length ↔ r.v0 = true := by
    rw [tracks_v0_iff hok ht, ← pos_div_eight]
    omega
  simp only [hbyte, hoff, pos_div_eight, ← tracks_v0_iff hok ht, ← tracks_v1_iff hok ht]
  by_cases hv : r.v0 = true
  · rw [if_pos hv, if_pos hv]
    refine ⟨readBit_follows eof hv ht, ?_⟩
    split
    · next hready => exact readByte_follows hv ht hready
    · next hwait =>
      obtain ⟨ho, hw, heof⟩ : r.off ≠ 0 ∧ r.v1 = false ∧ eof = false := by simpa using hwait
      rw [readByte_of_last eof hv ho hw, heof]
      rfl
  · rw [if_neg hv, if_neg hv]
    have hempty : r.v0 = false := by simpa using hv
    exact ⟨readBit_of_empty eof hempty, readByte_of_empty eof hempty⟩

/-! ## The reads as instructions -/

theorem exec_readBit (s : State) :
    exec .readBit s = .next (s.endRead resultOfBit (s.dec.rd.readBit s.dec.eof)) := rfl

theorem exec_readByte (s : State) :
    exec .readByte s = .next (s.endRead resultOfByte (s.dec.rd.readByte s.dec.eof)) := rfl

/-- Settles O13: each clause is one outcome of the reader, with the isolated bit read by its number. -/
theorem readBitResult : Obligations.ReadBitResult := by
  intro s
  rw [exec_readBit]
  refine ⟨fun hv he => ?_, fun hv he => ?_, fun hv ho => ?_, fun hv ho => ?_⟩
  · rw [readBit_of_empty _ hv, he]
    rfl
  · rw [readBit_of_empty _ hv, he]
    rfl
  · rw [readBit_of_off_eq _ hv ho, shiftRight_and_one_beq_one, ho]
    rfl
  · rw [readBit_of_off_ne _ hv ho, shiftRight_and_one_beq_one]
    rfl

/-- Settles O14: each clause is one outcome of the reader. -/
theorem readByteResult : Obligations.ReadByteResult := by
  intro s
  rw [exec_readByte]
  refine ⟨fun hv he => ?_, fun hv he => ?_, fun hv ho => ?_, fun hv ho hw => ?_, fun hv ho hw he => ?_,
    fun hv ho hw he => ?_⟩
  · rw [readByte_of_empty _ hv, he]
    rfl
  · rw [readByte_of_empty _ hv, he]
    rfl
  · rw [readByte_of_off_eq _ hv ho]
    rfl
  · rw [readByte_of_both _ hv ho hw]
    rfl
  · rw [readByte_of_last _ hv ho hw, he]
    rfl
  · rw [readByte_of_last _ hv ho hw, he]
    rfl

end Sys2Proof.Machine
end

section
/-! PROOFS. The bit-stream writer: each outcome of an operation, and the bits it has been given read back from the bytes
it completed and the bits still pending (41_bitwriter R141, R143-R146). -/

namespace Sys2Proof.Machine

/-! ## Each outcome of an operation -/

theorem addBit_of_eq {w : Writer} (b : Bool) (hn : w.n = 7) :
    w.addBit b = (.reset, some (w.acc ||| Byte.ofBit b <<< (7 - w.n.val))) :=
  if_pos hn

theorem addBit_of_ne {w : Writer} (b : Bool) (hn : w.n ≠ 7) :
    w.addBit b = (⟨w.acc ||| Byte.ofBit b <<< (7 - w.n.val), w.n + 1⟩, none) :=
  if_neg hn

theorem flush_of_eq {w : Writer} (hn : w.n = 0) : w.flush = (w, none) :=
  if_pos hn

theorem flush_of_ne {w : Writer} (hn : w.n ≠ 0) : w.flush = (.reset, some w.acc) :=
  if_neg hn

/-! ## The operations as instructions -/

theorem exec_addBit (b : Bool) (s : State) : exec (.addBit b) s = .next (s.writeOp (s.enc.bw.addBit b)) := rfl

theorem exec_flushFinal (s : State) : exec .flushFinal s = .next (s.writeOp s.enc.bw.flush) := rfl

theorem writeOp_of_empty {s : State} (r : Writer × Option Byte) (hout : s.enc.out.valid = false) :
    s.writeOp r = { s with enc := s.enc.endWrite r } :=
  if_neg (by simp [hout])

/-- Settles O17: each clause is one outcome of the writer. -/
theorem addBitResult : Obligations.AddBitResult := by
  intro s b hout
  rw [exec_addBit, writeOp_of_empty _ hout]
  refine ⟨fun hn => ?_, fun hn => ?_⟩
  · rw [addBit_of_eq b hn]
    rfl
  · rw [addBit_of_ne b hn]
    rfl

/-- Settles O19: each clause is one outcome of the writer. -/
theorem flushFinalResult : Obligations.FlushFinalResult := by
  intro s hout
  rw [exec_flushFinal, writeOp_of_empty _ hout]
  refine ⟨fun hn => ?_, fun hn => ?_⟩
  · rw [flush_of_ne hn]
    rfl
  · rw [flush_of_eq hn]
    rfl

/-! ## The accumulator as the pending bits with zeros below (R144) -/

theorem byteBits_eq_of_getElem? {b : Byte} {l : List Bool} (hlen : l.length = 8)
    (h : ∀ i < 8, l[i]? = some (b.getLsbD (7 - i))) : byteBits b = l := by
  apply List.ext_getElem?
  intro i
  rcases Nat.lt_or_ge i 8 with hi | hi
  · rw [byteBits_getElem? b hi, h i hi]
  · rw [List.getElem?_eq_none (by rwa [byteBits_length]), List.getElem?_eq_none (by rwa [hlen])]

theorem pend_getElem? {w : Writer} {i : Nat} (h : i < w.n.val) : w.pend[i]? = some (w.acc.getLsbD (7 - i)) := by
  simp [Writer.pend, h]

@[simp] theorem pend_length (w : Writer) : w.pend.length = w.n.val := by
  simp [Writer.pend]

theorem pend_of_n_eq_zero {w : Writer} (hn : w.n = 0) : w.pend = [] :=
  List.eq_nil_of_length_eq_zero (by simp [hn])

theorem pend_eq_take (w : Writer) : w.pend = (byteBits w.acc).take w.n.val := by
  apply List.ext_getElem?
  intro i
  rcases Nat.lt_or_ge i w.n.val with hi | hi
  · rw [pend_getElem? hi, List.getElem?_take_of_lt hi, byteBits_getElem? w.acc (hi.trans w.n.isLt)]
  · rw [List.getElem?_eq_none (by rwa [pend_length]), List.getElem?_take_eq_none hi]

/-- The invariant of R144, on the accumulator's bits in stream order. -/
theorem writer_ok_iff (w : Writer) : w.Ok ↔ byteBits w.acc = w.pend ++ List.replicate (8 - w.n.val) false := by
  have hlen : (w.pend ++ List.replicate (8 - w.n.val) false).length = 8 := by simp
  constructor
  · intro hok
    refine byteBits_eq_of_getElem? hlen fun i hi => ?_
    rcases Nat.lt_or_ge i w.n.val with hin | hin
    · rw [List.getElem?_append_left (by rwa [pend_length]), pend_getElem? hin]
    · rw [List.getElem?_append_right (by rwa [pend_length]), pend_length, hok ⟨i, hi⟩ hin]
      simp [show i - w.n.val < 8 - w.n.val by omega]
  · intro hbits j hj
    have hnj : w.n.val ≤ j.val := hj
    have hget := byteBits_getElem? w.acc j.isLt
    rw [hbits, List.getElem?_append_right (by rwa [pend_length]), pend_length,
      List.getElem?_replicate_of_lt (by omega)] at hget
    exact (Option.some.inj hget).symm

theorem ofBit_shiftLeft_getLsbD (b : Bool) (n i : Fin 8) :
    (Byte.ofBit b <<< (7 - n.val)).getLsbD (7 - i.val) = (decide (i = n) && b) := by
  revert b n i
  decide

/-- ADD_BIT's new accumulator: the bit stands right behind the pending ones (R141). -/
theorem byteBits_acc_or_ofBit {w : Writer} (hok : w.Ok) (b : Bool) :
    byteBits (w.acc ||| Byte.ofBit b <<< (7 - w.n.val)) = w.pend ++ b :: List.replicate (7 - w.n.val) false := by
  have hlen : (w.pend ++ b :: List.replicate (7 - w.n.val) false).length = 8 := by simp; omega
  refine byteBits_eq_of_getElem? hlen fun i hi => ?_
  rw [BitVec.getLsbD_or, ofBit_shiftLeft_getLsbD b w.n ⟨i, hi⟩]
  rcases lt_trichotomy i w.n.val with hin | hin | hin
  · rw [List.getElem?_append_left (by rwa [pend_length]), pend_getElem? hin]
    simp [Fin.ext_iff, hin.ne]
  · rw [hok ⟨i, hi⟩ hin.ge]
    simp [hin]
  · rw [hok ⟨i, hi⟩ hin.le, List.getElem?_append_right (by rw [pend_length]; exact hin.le), pend_length,
      List.getElem?_cons, if_neg (by omega), List.getElem?_replicate_of_lt (by omega)]
    simp [Fin.ext_iff, hin.ne']

/-! ## The bits written, in the bytes completed and the pending bits (R145) -/

@[simp] theorem streamBits_nil : streamBits [] = [] := rfl

@[simp] theorem streamBits_append (bs cs : List Byte) : streamBits (bs ++ cs) = streamBits bs ++ streamBits cs :=
  List.flatMap_append

@[simp] theorem streamBits_length (bs : List Byte) : (streamBits bs).length = 8 * bs.length := by
  simp [streamBits, List.length_flatMap, Nat.mul_comm]

theorem writer_reset_ok : Writer.reset.Ok := by decide

theorem addBit_bits {w : Writer} (hok : w.Ok) (b : Bool) :
    (w.addBit b).1.Ok ∧ streamBits (w.addBit b).2.toList ++ (w.addBit b).1.pend = w.pend ++ [b] := by
  have hacc := byteBits_acc_or_ofBit hok b
  by_cases hn : w.n = 7
  · rw [addBit_of_eq b hn]
    refine ⟨writer_reset_ok, ?_⟩
    simpa [hn, pend_of_n_eq_zero (w := .reset) rfl] using hacc
  · rw [addBit_of_ne b hn]
    have hval : (w.n + 1).val = w.n.val + 1 := by omega
    have hpend : (⟨w.acc ||| Byte.ofBit b <<< (7 - w.n.val), w.n + 1⟩ : Writer).pend = w.pend ++ [b] := by
      rw [pend_eq_take, hacc, hval, List.take_append, List.take_of_length_le (by simp)]
      simp
    refine ⟨(writer_ok_iff _).mpr ?_, hpend⟩
    rw [hpend, hval, hacc, List.append_assoc, List.singleton_append, Nat.add_comm, Nat.sub_add_eq]

theorem addBits_cons (w : Writer) (b : Bool) (bits : List Bool) :
    w.addBits (b :: bits) =
      (((w.addBit b).1.addBits bits).1, (w.addBit b).2.toList ++ ((w.addBit b).1.addBits bits).2) := rfl

theorem addBits_bits {w : Writer} (hok : w.Ok) (bits : List Bool) :
    (w.addBits bits).1.Ok ∧ streamBits (w.addBits bits).2 ++ (w.addBits bits).1.pend = w.pend ++ bits := by
  induction bits generalizing w with
  | nil => exact ⟨hok, (List.append_nil _).symm⟩
  | cons b bits ih =>
    obtain ⟨hok₁, hbit⟩ := addBit_bits hok b
    obtain ⟨hok₂, hrest⟩ := ih hok₁
    rw [addBits_cons]
    refine ⟨hok₂, ?_⟩
    rw [streamBits_append, List.append_assoc, hrest, ← List.append_assoc, hbit, List.append_assoc,
      List.singleton_append]

/-- FLUSH_FINAL pads the pending bits to the next byte boundary (R143). -/
theorem streamBits_flush {w : Writer} (hok : w.Ok) :
    streamBits w.flush.2.toList = w.pend ++ List.replicate ((8 - w.n.val) % 8) false := by
  by_cases hn : w.n = 0
  · rw [flush_of_eq hn]
    simp [hn, pend_of_n_eq_zero hn]
  · have hpos : (8 - w.n.val) % 8 = 8 - w.n.val := by omega
    rw [flush_of_ne hn, hpos, ← (writer_ok_iff w).mp hok]
    simp

/-- Settles O20: the writer keeps every bit it is given, in order, so the counts are those of the bits' length. -/
theorem writerReproducesBits : Obligations.WriterReproducesBits := by
  intro bits w out h
  obtain ⟨hok, hbits⟩ := addBits_bits writer_reset_ok bits
  rw [pend_of_n_eq_zero (w := .reset) rfl, List.nil_append] at hbits
  rw [h] at hok hbits
  have hlen : 8 * out.length + w.n.val = bits.length := by
    rw [← hbits, List.length_append, streamBits_length, pend_length]
  have hn : w.n.val = bits.length % 8 := by omega
  refine ⟨by omega, hn, ?_⟩
  rw [streamBits_append, streamBits_flush hok, ← List.append_assoc, hbits, hn]

end Sys2Proof.Machine
end

section
/-! PROOFS. The window's pushes and the lookahead queue's pop: one push as an instruction, any pushes since reset in the
abstract view, and the two outcomes of a pop (42_window_lookahead R161, R163, R169). -/

namespace Sys2Proof.Machine

/-! ## One push as an instruction -/

@[simp] theorem window_setWindow (s : State) (u : UnitId) (w : Window) : (s.setWindow u w).window u = w := by
  cases u <;> rfl

theorem exec_winPush (u : UnitId) (v : Byte) (s : State) :
    exec (.winPush u v) s = .next (s.setWindow u ((s.window u).push (s.params u).wsize v)) := rfl

/-- Settles O21: the window written is the pushed one, and a push is one write to its storage. -/
theorem winPushResult : Obligations.WinPushResult := by
  intro s u v hok
  refine ⟨_, exec_winPush u v s, ?_⟩
  rw [window_setWindow]
  obtain ⟨hwf, -⟩ := id hok
  exact ⟨rfl, rfl, rfl, window_push_hist hok v, memory_read_write_same _ _ _ hwf,
    fun a ha => memory_read_write_other _ _ _ _ ha hwf⟩

/-! ## Any pushes in the abstract view -/

theorem window_pushes_ok {n : Nat} {w : Window} (hok : w.Ok n) (vs : List Byte) :
    (vs.foldl (Window.push n) w).Ok n := by
  induction vs generalizing w with
  | nil => exact hok
  | cons v vs ih => exact ih (window_push_ok hok v)

theorem window_hist_length_le {n : Nat} {w : Window} (hok : w.Ok n) : (w.hist n).length ≤ n := by
  obtain ⟨-, -, -, hcount, -⟩ := hok
  rwa [hist_length]

/-- WIN_PUSH of several bytes: `hist <- last WSIZE elements of (hist ++ vs)`, from R161 byte by byte. -/
theorem window_pushes_hist {n : Nat} {w : Window} (hok : w.Ok n) (vs : List Byte) :
    (vs.foldl (Window.push n) w).hist n = lastN n (w.hist n ++ vs) := by
  induction vs generalizing w with
  | nil => rw [List.append_nil, lastN_of_le (window_hist_length_le hok), List.foldl_nil]
  | cons v vs ih =>
    rw [List.foldl_cons, ih (window_push_ok hok v), window_push_hist hok, lastN_append, List.append_assoc,
      List.singleton_append]

/-! ## The last elements of a list, addressed from the newest -/

theorem lastN_length {α : Type} (n : Nat) (l : List α) : (lastN n l).length = min l.length n := by
  rw [lastN, List.length_drop]
  omega

theorem lastN_getElem?_from_newest {α : Type} {n d : Nat} {l : List α} (hd : d < min l.length n) :
    (lastN n l)[min l.length n - 1 - d]? = l[l.length - 1 - d]? := by
  rw [lastN, List.getElem?_drop]
  congr 1
  omega

/-- Settles O23: the content after the pushes is the last WSIZE bytes, so its length is the count that bounds a
distance. -/
theorem pushesSinceReset : Obligations.PushesSinceReset := by
  intro p vs w
  have hreset := window_reset_ok (params_wsize_pos p)
  have hok : w.Ok p.wsize := window_pushes_ok hreset vs
  have hhist : w.hist p.wsize = lastN p.wsize vs := window_pushes_hist hreset vs
  have hcount : w.count = min vs.length p.wsize := by rw [← hist_length p.wsize, hhist, lastN_length]
  refine ⟨hhist, fun d hd => ?_, fun d hd => window_read_none.mpr (hcount ▸ hd)⟩
  rw [window_read_hist hok (hcount ▸ hd), hhist, hcount, lastN_getElem?_from_newest hd]

/-! ## The two outcomes of a pop -/

theorem queue_pop_of_ne {n : Nat} {q : Queue} (hne : q.count ≠ 0) :
    q.pop n = some (Memory.read q.buf q.rd, { q with rd := (q.rd + 1) % n, count := q.count - 1 }) :=
  if_neg hne

theorem exec_laPop (s : State) : exec .laPop s = execLaPop s := rfl

theorem exec_laPop_of_some {s : State} {v : Byte} {q : Queue} (h : s.enc.la.pop s.enc.params.lsize = some (v, q)) :
    exec .laPop s = .next { s with enc := { s.enc with la := q }, result := .byte v } := by
  rw [exec_laPop, execLaPop, h]

theorem exec_laPop_of_none {s : State} (h : s.enc.la.pop s.enc.params.lsize = none) :
    exec .laPop s = .next (s.raise .enc .laUnderflow) := by
  rw [exec_laPop, execLaPop, h]

/-- Settles O25: each clause is one outcome of the queue's pop. -/
theorem laPopResult : Obligations.LaPopResult := by
  intro s hok
  refine ⟨fun hne => ?_, fun hempty => exec_laPop_of_none (queue_pop_none.mpr hempty)⟩
  have hpop := queue_pop_of_ne (n := s.enc.params.lsize) hne
  exact ⟨_, _, exec_laPop_of_some hpop, queue_pop_content hok hpop, rfl, rfl, rfl⟩

end Sys2Proof.Machine
end

section
/-! PROOFS. The greedy match search: what a match length is, what the search keeps, and the token it answers
(43_encoder R194-R199). -/

namespace Sys2Proof.Machine

/-! ## Leading bytes two lists share -/

theorem commonLength_le (as bs : List Byte) : commonLength as bs ≤ bs.length := by
  fun_induction commonLength as bs with
  | case1 a as bs ih => exact Nat.succ_le_succ ih
  | case2 => exact Nat.zero_le _
  | case3 => exact Nat.zero_le _
  | case4 => exact Nat.zero_le _

theorem getElem?_eq_of_lt_commonLength {as bs : List Byte} {k : Nat} (hk : k < commonLength as bs) :
    as[k]? = bs[k]? := by
  fun_induction commonLength as bs generalizing k with
  | case1 a as bs ih =>
    cases k with
    | zero => rfl
    | succ k => exact ih (Nat.lt_of_succ_lt_succ hk)
  | case2 => exact absurd hk (Nat.not_lt_zero _)
  | case3 => exact absurd hk (Nat.not_lt_zero _)
  | case4 => exact absurd hk (Nat.not_lt_zero _)

/-- The lists differ right behind what they share, unless the second one ends there. -/
theorem getElem?_commonLength_ne {as bs : List Byte} (h : commonLength as bs < bs.length) :
    as[commonLength as bs]? ≠ bs[commonLength as bs]? := by
  fun_induction commonLength as bs with
  | case1 a as bs ih => exact ih (Nat.lt_of_succ_lt_succ h)
  | case2 a as b bs hab => simpa using hab
  | case3 bs => simp [List.length_pos_iff.mp h]
  | case4 => exact absurd h (Nat.not_lt_zero _)

/-! ## The match length at a candidate -/

theorem drop_eq_cons_of_getElem? {α : Type} {l : List α} {i : Nat} {a : α} (h : l[i]? = some a) :
    l.drop i = a :: l.drop (i + 1) := by
  obtain ⟨hi, rfl⟩ := List.getElem?_eq_some_iff.mp h
  exact List.drop_eq_getElem_cons hi

/-- At a candidate the first bytes are equal, so the match length counts them too (R195). -/
theorem matchLen_eq_commonLength {h : List Byte} {p : Nat} {lit : Byte} (q : List Byte) (hp : h[p]? = some lit) :
    matchLen h p (lit :: q) = commonLength (h.drop p ++ lit :: q) (lit :: q) := by
  rw [matchLen, drop_eq_cons_of_getElem? hp, List.cons_append, commonLength, if_pos rfl, Nat.add_comm]
  rfl

/-- Settles O27: at a candidate the match length is the number of leading bytes `S` and `T` share. -/
theorem matchLengthIsLargest : Obligations.MatchLengthIsLargest := by
  intro h p lit q hp T S m
  have hm : m = commonLength S T := matchLen_eq_commonLength q hp
  refine ⟨Nat.le_add_right _ _, hm ▸ commonLength_le S T, fun k hk => ?_, fun hlt => ?_⟩
  · exact getElem?_eq_of_lt_commonLength (hm ▸ hk)
  · rw [hm] at hlt ⊢
    exact getElem?_commonLength_ne hlt

/-! ## The search -/

/-- What the search holds after the candidates among the first `c` positions: no match is longer than the best one,
and a registered best one exceeds the threshold and every match before it (R196, R197). -/
def SearchBest (h : List Byte) (lit : Byte) (T : List Byte) (c : Nat) (best : Nat × Option Nat) : Prop :=
  (∀ p < c, h[p]? = some lit → matchLen h p T ≤ best.1) ∧
    match best.2 with
    | none => best.1 = matchThreshold
    | some p => h[p]? = some lit ∧ best.1 = matchLen h p T ∧ matchThreshold < best.1 ∧
        ∀ p' < p, h[p']? = some lit → matchLen h p' T < best.1

section

variable {h : List Byte} {lit : Byte} {T : List Byte} {c : Nat} {best : Nat × Option Nat}

theorem searchBest_threshold_le (hbest : SearchBest h lit T c best) : matchThreshold ≤ best.1 := by
  obtain ⟨m, r⟩ := best
  obtain ⟨-, hreg⟩ := hbest
  cases r with
  | none => exact hreg.ge
  | some p =>
    obtain ⟨-, -, hlt, -⟩ := hreg
    exact hlt.le

theorem searchBest_succ_of_le (hbest : SearchBest h lit T c best)
    (hc : h[c]? = some lit → matchLen h c T ≤ best.1) : SearchBest h lit T (c + 1) best := by
  obtain ⟨hle, hreg⟩ := hbest
  refine ⟨fun p hp hcand => ?_, hreg⟩
  rcases Nat.lt_succ_iff_lt_or_eq.mp hp with hp | rfl
  · exact hle p hp hcand
  · exact hc hcand

theorem searchBest_succ_of_lt (hbest : SearchBest h lit T c best) (hc : h[c]? = some lit)
    (hlt : best.1 < matchLen h c T) : SearchBest h lit T (c + 1) (matchLen h c T, some c) := by
  have hthreshold := searchBest_threshold_le hbest
  obtain ⟨hle, -⟩ := hbest
  have hearlier : ∀ p < c, h[p]? = some lit → matchLen h p T < matchLen h c T :=
    fun p hp hcand => (hle p hp hcand).trans_lt hlt
  refine ⟨fun p hp hcand => ?_, hc, rfl, hthreshold.trans_lt hlt, hearlier⟩
  rcases Nat.lt_succ_iff_lt_or_eq.mp hp with hp | rfl
  · exact (hearlier p hp hcand).le
  · exact le_refl _

theorem matchStep_searchBest (hbest : SearchBest h lit T c best) :
    SearchBest h lit T (c + 1) (matchStep h lit T best c) := by
  unfold matchStep
  split
  · next hc =>
    dsimp only
    split
    · next hlt => exact searchBest_succ_of_lt hbest hc hlt
    · next hge => exact searchBest_succ_of_le hbest fun _ => Nat.not_lt.mp hge
  · next hc => exact searchBest_succ_of_le hbest fun hcand => absurd hcand hc

theorem search_searchBest (h : List Byte) (lit : Byte) (T : List Byte) (c : Nat) :
    SearchBest h lit T c ((List.range c).foldl (matchStep h lit T) (matchThreshold, none)) := by
  induction c with
  | zero => exact ⟨fun p hp => absurd hp (Nat.not_lt_zero p), rfl⟩
  | succ c ih =>
    rw [List.range_succ, List.foldl_append]
    exact matchStep_searchBest ih

end

/-- Settles O28: after the last position the search holds the earliest of the longest matches, if it holds any. -/
theorem searchKeepsEarliestLongest : Obligations.SearchKeepsEarliestLongest := by
  intro h lit q len
  obtain ⟨hle, hreg⟩ := search_searchBest h lit (lit :: q) h.length
  have hmax (p : Nat) (hp : h[p]? = some lit) := hle p (List.getElem?_eq_some_iff.mp hp).1 hp
  unfold matchToken
  split
  · next m hbest =>
    rw [hbest] at hreg hmax
    exact .inl ⟨rfl, fun p hp => (hmax p hp).trans_eq hreg⟩
  · next m p hbest =>
    rw [hbest] at hreg hmax
    obtain ⟨hp, rfl, hlt, hearlier⟩ := hreg
    exact .inr ⟨p, hp, hlt, rfl, hmax, hearlier⟩

/-! ## The token decided -/

/-- The bytes a token covers, its first one included (R200). -/
theorem extraBytes_succ_of_matchToken (h : List Byte) (lit : Byte) (q : List Byte) :
    extraBytes (matchToken h lit q) + 1 = (match matchToken h lit q with
      | .literal _ => 1
      | .backRef _ n => n) := by
  rcases searchKeepsEarliestLongest h lit q with ⟨ht, -⟩ | ⟨p, -, hlen, ht, -⟩ <;> rw [ht]
  · rfl
  · exact Nat.sub_add_cancel (by omega)

/-- A decided token covers no more bytes than there are (R199). -/
theorem extraBytes_matchToken_le (h : List Byte) (lit : Byte) (q : List Byte) :
    extraBytes (matchToken h lit q) ≤ q.length := by
  rcases searchKeepsEarliestLongest h lit q with ⟨ht, -⟩ | ⟨p, hp, -, ht, -⟩ <;> rw [ht]
  · exact Nat.zero_le _
  · obtain ⟨-, hle, -⟩ := matchLengthIsLargest h p lit q hp
    exact Nat.sub_le_of_le_add hle

end Sys2Proof.Machine
end

section
/-! PROOFS. The encoder's micro-steps, each with what it leaves unchanged (43_encoder R192, R203, R204). -/

namespace Sys2Proof.Machine

/-! ## The steps as instructions: enabled, or held -/

theorem exec_encDecide (s : State) :
    exec .encDecide s = .next (s.endEnc (if s.enc.decideEnabled then s.enc.decide else .hold)) := rfl

theorem exec_encEmit (s : State) :
    exec .encEmit s = .next (if s.enc.emitEnabled then { s with enc := s.enc.emitBit } else s) := rfl

theorem exec_encFlush (s : State) :
    exec .encFlush s = .next (if s.enc.flushEnabled then { s with enc := s.enc.flush } else s) := rfl

theorem decideEnabled_iff (e : EncUnit) :
    e.decideEnabled = true ↔
      e.ph = .tokenStart ∧ e.la.count ≠ 0 ∧ (e.la.count = e.params.lsize ∨ e.eof = true) := by
  simp [EncUnit.decideEnabled, and_assoc, Nat.pos_iff_ne_zero]

theorem emitEnabled_iff (e : EncUnit) : e.emitEnabled = true ↔ e.ph = .tokenEmit ∧ e.out.valid = false := by
  simp [EncUnit.emitEnabled]

theorem flushEnabled_iff (e : EncUnit) :
    e.flushEnabled = true ↔ e.ph = .tokenStart ∧ e.la.count = 0 ∧ e.eof = true ∧ e.out.valid = false := by
  simp [EncUnit.flushEnabled, and_assoc]

/-! ## ENC_EMIT (R203) -/

theorem emitBit_cons {e : EncUnit} {b : Bool} {rest : List Bool} (htok : e.tok = b :: rest) :
    e.emitBit = { e.endWrite (e.bw.addBit b) with
      tok := rest, ph := if rest.length = 0 then .tokenStart else e.ph } := by
  rw [EncUnit.emitBit, htok]
  cases rest with
  | nil => rfl
  | cons b' rest => rfl

/-- Settles O31: the bit given is the token register's first, and each clause on it is one outcome of the writer. -/
theorem emitGivesOneBit : Obligations.EmitGivesOneBit := by
  intro s
  rw [exec_encEmit]
  refine ⟨fun hhold => ?_, fun b rest hph hout htok => ?_⟩
  · rw [if_neg]
    rw [emitEnabled_iff]
    rintro ⟨hph, hout⟩
    simp [hph, hout] at hhold
  · rw [if_pos ((emitEnabled_iff _).mpr ⟨hph, hout⟩), emitBit_cons htok, hph]
    refine ⟨fun hn => ?_, fun hn => ?_⟩
    · rw [addBit_of_eq b hn]
      rfl
    · rw [addBit_of_ne b hn]
      rfl

/-! ## ENC_FLUSH (R204) -/

/-- Settles O32: where the step is enabled, each clause is one outcome of the writer's flush. -/
theorem flushEndsPass : Obligations.FlushEndsPass := by
  intro s
  rw [exec_encFlush]
  refine ⟨fun hhold => ?_, fun hph hcount heof hout => ?_⟩
  · rw [if_neg]
    rw [flushEnabled_iff]
    rintro ⟨hph, hcount, heof, hout⟩
    simp [hph, hcount, heof, hout] at hhold
  · rw [if_pos ((flushEnabled_iff _).mpr ⟨hph, hcount, heof, hout⟩), EncUnit.flush]
    refine ⟨fun hn => ?_, fun hn => ?_⟩
    · rw [flush_of_ne hn]
      rfl
    · rw [flush_of_eq hn]
      rfl

/-! ## ENC_DECIDE (R192) -/

/-- The first pop and push are one more round of the loop that follows them. -/
theorem decide_eq_popPush {e : EncUnit} {lit : Byte} {q : Queue} (hpop : e.la.pop e.params.lsize = some (lit, q)) :
    let t := matchToken (e.win.hist e.params.wsize) lit (q.content e.params.lsize)
    e.decide = (EncUnit.popPush (extraBytes t + 1) e).bind fun _ e' => .done () (e'.loadToken t) := by
  simp only [EncUnit.decide, EncUnit.popPush, EncUnit.laPop, hpop, bind_done]

/-- Pops store nothing, and `k` pushes write only the `k` slots from the window's pointer on (R161, R169). -/
theorem popPush_storage {k : Nat} {e e' : EncUnit} (hw : e.win.Ok e.params.wsize)
    (hrun : EncUnit.popPush k e = .done () e') :
    e'.la.buf = e.la.buf ∧ ∀ a, (∀ j < k, a ≠ (e.win.head + j) % e.params.wsize) →
      Memory.read e'.win.buf a = Memory.read e.win.buf a := by
  induction k generalizing e with
  | zero =>
    cases hrun
    exact ⟨rfl, fun _ _ => rfl⟩
  | succ k ih =>
    obtain ⟨hwf, -, hhead, -⟩ := id hw
    by_cases hempty : e.la.count = 0
    · simp [EncUnit.popPush, EncUnit.laPop, queue_pop_none.mpr hempty] at hrun
    · simp only [EncUnit.popPush, EncUnit.laPop, queue_pop_of_ne hempty, bind_done] at hrun
      obtain ⟨hbuf, hread⟩ := ih (window_push_ok hw _) hrun
      refine ⟨hbuf, fun a ha => (hread a fun j hj => ?_).trans (memory_read_write_other _ _ _ _ ?_ hwf)⟩
      · have hnext := ha (j + 1) (Nat.succ_lt_succ hj)
        simpa [Window.push, Nat.add_assoc, Nat.add_comm 1] using hnext
      · simpa [Nat.mod_eq_of_lt hhead] using ha 0 (Nat.succ_pos k)

/-- Settles O30: the step is one loop of pops and pushes over the token's bytes, which are all queued. -/
theorem decideCommitsToken : Obligations.DecideCommitsToken := by
  intro s
  rw [exec_encDecide]
  refine ⟨fun hhold => ?_, fun hw hl hph hcount hready => ?_⟩
  · rw [if_neg, endEnc_hold]
    rw [decideEnabled_iff]
    rintro ⟨hph, hcount, hready⟩
    rcases hhold with hne | hne | ⟨hne, heof⟩
    · exact hne hph
    · exact hcount hne
    · simp [hne, heof] at hready
  · rw [if_pos ((decideEnabled_iff _).mpr ⟨hph, hcount, hready⟩)]
    intro h la
    obtain ⟨lit, la₁, hpop⟩ : ∃ lit la₁, s.enc.la.pop s.enc.params.lsize = some (lit, la₁) :=
      ⟨_, _, queue_pop_of_ne hcount⟩
    have hcont := queue_pop_content hl hpop
    have hlen : extraBytes (matchToken h lit (la₁.content s.enc.params.lsize)) + 1 ≤ s.enc.la.count := by
      rw [← content_length s.enc.params.lsize, hcont]
      exact Nat.succ_le_succ (extraBytes_matchToken_le h lit _)
    obtain ⟨w, la', hrun, hw', hl', hhist, hcont'⟩ := popPush_spec _ s.enc hw hl hlen
    obtain ⟨hbuf, hread⟩ := popPush_storage hw hrun
    refine ⟨lit, _, w, la', hcont, ?_⟩
    intro tk k
    have hk : extraBytes tk + 1 = k := extraBytes_succ_of_matchToken h lit _
    rw [decide_eq_popPush hpop, hrun, bind_done, endEnc_done, ← hk]
    exact ⟨rfl, hw', hhist, hl', hcont', hbuf, hread⟩

end Sys2Proof.Machine
end

section
/-! PROOFS. The round trip: the encoder's reference answers a legal token program for the input (43_encoder R195, R199,
R207, R208). -/

namespace Sys2Proof.Machine

/-! ## A decided token is encodable and puts out the bytes it covers -/

/-- Every distance inside a window fits the index field (R94, R199). -/
theorem wsize_le_two_pow_indexBits (p : Params) : p.wsize ≤ 2 ^ p.indexBits := by
  obtain ⟨-, hW⟩ := p.hW
  refine Nat.pow_le_pow_right (by decide) ?_
  rw [indexBits_eq]
  split <;> omega

theorem matchToken_encodable {p : Params} {h : List Byte} (lit : Byte) {q : List Byte} (hh : h.length ≤ p.wsize)
    (hq : q.length + 1 ≤ p.lsize) : encodable p (matchToken h lit q) := by
  rcases searchKeepsEarliestLongest h lit q with ⟨ht, -⟩ | ⟨c, hc, -, ht, -⟩ <;> rw [ht]
  · trivial
  · obtain ⟨hpos, hle, -⟩ := matchLengthIsLargest h c lit q hc
    obtain ⟨hlt, -⟩ := List.getElem?_eq_some_iff.mp hc
    have hfield := wsize_le_two_pow_indexBits p
    exact ⟨by omega, hpos, hle.trans hq⟩

theorem lastN_drop_from_newest {α : Type} {n d : Nat} {l : List α} (hd : d < min l.length n) :
    (lastN n l).drop ((lastN n l).length - 1 - d) = l.drop (l.length - 1 - d) := by
  rw [lastN_length, lastN, List.drop_drop]
  congr 1
  omega

/-- A copy puts out the first `n` bytes of `T` where `T` agrees that far with the window from the copy's first byte on,
followed by `T` itself: the byte copied is the one pushed, so the agreement moves on with the window (R195, R239). -/
theorem refCopy_eq_take {p : Params} {d n : Nat} {h T : List Byte} (hd : d < h.length) (hdw : d < p.wsize)
    (hn : n ≤ T.length) (hT : ∀ k < n, (h.drop (h.length - 1 - d) ++ T)[k]? = T[k]?) :
    (refCopy p d n h).2 = T.take n := by
  induction n generalizing h T with
  | zero => rfl
  | succ n ih =>
    obtain ⟨x, T, rfl⟩ := List.exists_cons_of_length_pos (Nat.zero_lt_of_lt hn)
    have hx : h[h.length - 1 - d]? = some x := by
      have hfirst := hT 0 (Nat.succ_pos n)
      rwa [List.getElem?_append_left (by rw [List.length_drop]; omega), List.getElem?_drop] at hfirst
    have hnewest : d < min (h ++ [x]).length p.wsize := by
      rw [List.length_append]
      omega
    have hmoved (k : Nat) (hk : k < n) :
        ((lastN p.wsize (h ++ [x])).drop ((lastN p.wsize (h ++ [x])).length - 1 - d) ++ T)[k]? = T[k]? := by
      have hnext := hT (k + 1) (Nat.succ_lt_succ hk)
      rw [drop_eq_cons_of_getElem? hx, List.cons_append, List.getElem?_cons_succ, List.getElem?_cons_succ] at hnext
      have hfrom : (h ++ [x]).length - 1 - d = h.length - 1 - d + 1 := by
        rw [List.length_append, List.length_singleton]
        omega
      rwa [lastN_drop_from_newest hnewest, hfrom, List.drop_append_of_le_length (by omega), List.append_assoc]
    rw [← lastN_length] at hnewest
    simp only [refCopy, List.getD_eq_getElem?_getD, hx, Option.getD_some, List.take_succ_cons]
    rw [ih hnewest (Nat.le_of_succ_le_succ hn) hmoved]

theorem tokenBytes_matchToken {p : Params} {h : List Byte} (lit : Byte) (q : List Byte) (hh : h.length ≤ p.wsize) :
    tokenBytes p h (matchToken h lit q) = some ((lit :: q).take (extraBytes (matchToken h lit q) + 1)) := by
  rcases searchKeepsEarliestLongest h lit q with ⟨ht, -⟩ | ⟨c, hc, -, ht, -⟩ <;> rw [ht]
  · rfl
  · obtain ⟨hpos, hle, hagree, -⟩ := matchLengthIsLargest h c lit q hc
    obtain ⟨hlt, -⟩ := List.getElem?_eq_some_iff.mp hc
    have hfrom : h.length - 1 - (h.length - 1 - c) = c := by omega
    have hcopy : (refCopy p (h.length - 1 - c) (matchLen h c (lit :: q)) h).2
        = (lit :: q).take (matchLen h c (lit :: q)) :=
      refCopy_eq_take (by omega) (by omega) hle (by rwa [hfrom])
    rw [tokenBytes, if_pos (by omega), hcopy, extraBytes, Nat.sub_add_cancel hpos]

/-! ## The reference's tokens -/

theorem refTokens_nil (p : Params) (fuel : Nat) (h : List Byte) : refTokens p fuel h [] = [] := by
  cases fuel with
  | zero => rfl
  | succ fuel => rw [refTokens, List.take_nil]

/-- At a decision the queue holds the input's first byte and up to `LSIZE - 1` bytes after it (R207). -/
theorem refTokens_cons (p : Params) (fuel : Nat) (h : List Byte) (lit : Byte) (rest : List Byte) :
    let t := matchToken h lit (rest.take (p.lsize - 1))
    let k := extraBytes t + 1
    refTokens p (fuel + 1) h (lit :: rest) =
      t :: refTokens p fuel (lastN p.wsize (h ++ (lit :: rest).take k)) ((lit :: rest).drop k) := by
  have htake : (lit :: rest).take p.lsize = lit :: rest.take (p.lsize - 1) := by
    rw [← List.take_succ_cons, Nat.sub_add_cancel (params_lsize_pos p)]
  rw [refTokens, htake]

theorem length_take_lsize_le (p : Params) (rest : List Byte) : (rest.take (p.lsize - 1)).length + 1 ≤ p.lsize := by
  have hpos := params_lsize_pos p
  rw [List.length_take]
  omega

theorem refTokens_encodable {p : Params} {fuel : Nat} {h rest : List Byte} (hh : h.length ≤ p.wsize) :
    ∀ t ∈ refTokens p fuel h rest, encodable p t := by
  induction fuel generalizing h rest with
  | zero => exact List.forall_mem_nil _
  | succ fuel ih =>
    cases rest with
    | nil => rw [refTokens_nil]; exact List.forall_mem_nil _
    | cons lit rest =>
      rw [refTokens_cons]
      exact List.forall_mem_cons.mpr
        ⟨matchToken_encodable lit hh (length_take_lsize_le p rest), ih (lastN_length_le _ _)⟩

/-- The tokens put out the input they were decided on, from any window on. -/
theorem programBytes_refTokens {p : Params} {fuel : Nat} {h rest : List Byte} (hh : h.length ≤ p.wsize)
    (hfuel : rest.length ≤ fuel) : programBytes p h (refTokens p fuel h rest) = some rest := by
  induction fuel generalizing h rest with
  | zero =>
    obtain rfl := List.eq_nil_of_length_eq_zero (Nat.le_zero.mp hfuel)
    rfl
  | succ fuel ih =>
    cases rest with
    | nil => rw [refTokens_nil]; rfl
    | cons lit rest =>
      have hbytes := tokenBytes_matchToken lit (rest.take (p.lsize - 1)) hh
      have hle := extraBytes_matchToken_le h lit (rest.take (p.lsize - 1))
      rw [refTokens_cons]
      generalize matchToken h lit (rest.take (p.lsize - 1)) = t at hbytes hle ⊢
      have hcovered :
          (lit :: rest.take (p.lsize - 1)).take (extraBytes t + 1) = (lit :: rest).take (extraBytes t + 1) := by
        rw [List.length_take] at hle
        rw [List.take_succ_cons, List.take_succ_cons, List.take_take, Nat.min_eq_left (by omega)]
      have hrest : ((lit :: rest).drop (extraBytes t + 1)).length ≤ fuel := by
        rw [List.drop_succ_cons, List.length_drop]
        exact (Nat.sub_le _ _).trans (Nat.le_of_succ_le_succ hfuel)
      rw [hcovered] at hbytes
      rw [programBytes, hbytes, Option.bind_some, ih (lastN_length_le _ _) hrest, Option.map_some,
        List.take_append_drop]

/-- Settles O59: the encoder's tokens are encodable and put out the input, so the decoder, which executes exactly the
tokens of a stream (R106), gives it back. -/
theorem roundTrip : Obligations.RoundTrip := by
  intro p input
  exact streamDecodesToItsTokens p _ input (refTokens_encodable (Nat.zero_le _))
    (programBytes_refTokens (Nat.zero_le _) (le_refl _))

end Sys2Proof.Machine
end

section
/-! PROOFS. The decoder's micro-steps, each with what it leaves unchanged: DEC_TAG, DEC_LIT, DEC_DIST, DEC_COPY, and the
end of the input in every step that reads (44_decoder R231-R235, R246). -/

namespace Sys2Proof.Machine

/-! ## A read as the body of a step: held, or ended by NONE (00_scope R16, R246) -/

/-- A step holds where it is not enabled and where its read holds. -/
theorem endDec_reading_of_hold {α : Type} {enabled : Prop} [Decidable enabled] {s : State} {r : Res Reader (Option α)}
    {f : α → DecUnit → Res DecUnit Unit} (h : ¬ enabled ∨ r = .hold) :
    s.endDec (if enabled then s.dec.reading r f else .hold) = s := by
  rcases h with h | rfl
  · rw [if_neg h, endDec_hold]
  · have hbody : s.dec.reading .hold f = .hold := rfl
    rw [hbody, ite_self, endDec_hold]

theorem endDec_reading_of_none {α : Type} {s : State} {r : Res Reader (Option α)}
    {f : α → DecUnit → Res DecUnit Unit} (h : r = .done none s.dec.rd) :
    s.endDec (s.dec.reading r f) = { s with dec := { s.dec with ph := .done } } := by
  rw [h]
  rfl

/-! ## The steps as instructions -/

theorem exec_decTag (s : State) :
    exec .decTag s = .next (s.endDec (if s.dec.ph = .tagBit then s.dec.tag else .hold)) := rfl

theorem exec_decLit (s : State) :
    exec .decLit s
      = .next (s.endDec (if s.dec.ph = .literalByte ∧ s.dec.out.valid = false then s.dec.literal else .hold)) := rfl

theorem exec_decDist (s : State) :
    exec .decDist s = .next (s.endDec (if s.dec.ph = .refDistance then s.dec.distance else .hold)) := rfl

theorem exec_decLen (s : State) :
    exec .decLen s = .next (s.endDec (if s.dec.ph = .refLength then s.dec.length else .hold)) := rfl

theorem exec_decCopy (s : State) :
    exec .decCopy s
      = .next (s.endDec (if s.dec.ph = .refEmit ∧ s.dec.out.valid = false then s.dec.copy else .hold)) := rfl

section
variable {s : State}

theorem exec_decTag_of_none (hph : s.dec.ph = .tagBit) (hread : s.dec.rd.readBit s.dec.eof = .done none s.dec.rd) :
    exec .decTag s = .next { s with dec := { s.dec with ph := .done } } := by
  rw [exec_decTag, if_pos hph, DecUnit.tag, endDec_reading_of_none hread]

theorem exec_decLit_of_none (hph : s.dec.ph = .literalByte) (hout : s.dec.out.valid = false)
    (hread : s.dec.rd.readByte s.dec.eof = .done none s.dec.rd) :
    exec .decLit s = .next { s with dec := { s.dec with ph := .done } } := by
  rw [exec_decLit, if_pos ⟨hph, hout⟩, DecUnit.literal, endDec_reading_of_none hread]

theorem exec_decDist_of_none (hph : s.dec.ph = .refDistance)
    (hread : s.dec.rd.readByte s.dec.eof = .done none s.dec.rd) :
    exec .decDist s = .next { s with dec := { s.dec with ph := .done } } := by
  rw [exec_decDist, if_pos hph, DecUnit.distance, endDec_reading_of_none hread]

theorem exec_decLen_of_none (hph : s.dec.ph = .refLength) (hread : s.dec.rd.readBit s.dec.eof = .done none s.dec.rd) :
    exec .decLen s = .next { s with dec := { s.dec with ph := .done } } := by
  rw [exec_decLen, if_pos hph, DecUnit.length, endDec_reading_of_none hread]

end

/-! ## DEC_TAG (R231) -/

/-- Settles O34: each clause is one outcome of the read, and the bit read is the branch taken. -/
theorem tagBitSelectsPhase : Obligations.TagBitSelectsPhase := by
  intro s
  refine ⟨fun hhold => ?_, exec_decTag_of_none, fun b rd hph hread => ?_⟩
  · rw [exec_decTag, DecUnit.tag, endDec_reading_of_hold hhold]
  · rw [exec_decTag, if_pos hph, DecUnit.tag, hread]
    cases b <;> rfl

/-! ## The window behind an output (R161) -/

/-- A push writes the slot at the window's pointer only. -/
theorem window_push_read_other {n : Nat} {w : Window} (hok : w.Ok n) (v : Byte) :
    ∀ a, a ≠ w.head → Memory.read (w.push n v).buf a = Memory.read w.buf a := by
  obtain ⟨hwf, -⟩ := hok
  exact fun a ha => memory_read_write_other _ _ _ _ ha hwf

/-! ## DEC_LIT (R232) -/

/-- Settles O35: the byte read is pushed, so the window after the step is the pushed one. -/
theorem literalStepPushesAndEmits : Obligations.LiteralStepPushesAndEmits := by
  intro s
  refine ⟨fun hhold => ?_, exec_decLit_of_none, fun v rd hw hph hout hread => ?_⟩
  · rw [exec_decLit, DecUnit.literal, endDec_reading_of_hold]
    rcases hhold with hne | hfull | hread
    · exact .inl fun ⟨hph, _⟩ => hne hph
    · exact .inl fun ⟨_, hout⟩ => by simp [hfull] at hout
    · exact .inr hread
  · refine ⟨s.dec.win.push s.dec.params.wsize v, ?_, window_push_hist hw v, window_push_read_other hw v⟩
    rw [exec_decLit, if_pos ⟨hph, hout⟩, DecUnit.literal, hread]
    rfl

/-! ## DEC_DIST (R233) -/

theorem indexBits_eq_sixteen_iff (p : Params) : p.indexBits = 16 ↔ 8 ≤ p.W := by
  rw [indexBits_eq]
  split <;> omega

/-- The distance register takes the byte in from below and loses what it shifts out. -/
theorem toNat_shiftLeft_or_byte (d : Dist) (v : Byte) :
    (d <<< 8 ||| v.zeroExtend 16).toNat = (256 * d.toNat + v.toNat) % 65536 := by
  have hv : v.toNat < 2 ^ 8 := v.isLt
  calc (d <<< 8 ||| v.zeroExtend 16).toNat
      = d.toNat <<< 8 % 2 ^ 16 ||| v.toNat % 2 ^ 16 := by
        rw [BitVec.toNat_or, BitVec.toNat_shiftLeft, BitVec.toNat_setWidth]
    _ = (d.toNat <<< 8 + v.toNat) % 2 ^ 16 := by rw [← Nat.or_mod_two_pow, ← Nat.shiftLeft_add_eq_or_of_lt hv]
    _ = (256 * d.toNat + v.toNat) % 65536 := by rw [Nat.shiftLeft_eq, Nat.mul_comm]; rfl

/-- Settles O36: one byte is shifted in, and the index width and `k` say whether a second one follows. -/
theorem distanceStepAssembles : Obligations.DistanceStepAssembles := by
  intro s
  refine ⟨fun hhold => ?_, exec_decDist_of_none, fun v rd hph hread => ⟨_, toNat_shiftLeft_or_byte _ v, ?_⟩⟩
  · rw [exec_decDist, DecUnit.distance, endDec_reading_of_hold hhold]
  · rw [exec_decDist, if_pos hph, DecUnit.distance, hread]
    simp only [DecUnit.reading, indexBits_eq_sixteen_iff]
    split <;> rfl

/-! ## DEC_COPY (R235) -/

theorem copy_of_read {d : DecUnit} {v : Byte} (hread : d.win.read d.params.wsize d.dist.toNat = some v) :
    d.copy = .done () { d.produce v with
      rem := d.rem - 1, ph := if d.rem - 1 = 0 then .tagBit else d.ph } := by
  rw [DecUnit.copy, DecUnit.copyByte, hread]
  by_cases hrem : d.rem - 1 = 0
  · simp [hrem]
  · simp [hrem]

/-- Settles O38: a distance below the count names a byte of the window, and that byte is pushed. -/
theorem copyStepReadsPushesEmits : Obligations.CopyStepReadsPushesEmits := by
  intro s
  rw [exec_decCopy]
  refine ⟨fun hhold => ?_, fun hw hph hout hdist => ?_⟩
  · rw [if_neg, endDec_hold]
    rintro ⟨hph, hout⟩
    simp [hph, hout] at hhold
  · obtain ⟨v, hread⟩ : ∃ v, s.dec.win.read s.dec.params.wsize s.dec.dist.toNat = some v :=
      ⟨_, if_neg (Nat.not_le.mpr hdist)⟩
    intro h
    refine ⟨v, s.dec.win.push s.dec.params.wsize v, ?_, ?_, window_push_hist hw v, window_push_read_other hw v⟩
    · rw [hist_length, ← window_read_hist hw hdist, hread]
    · rw [if_pos ⟨hph, hout⟩, copy_of_read hread, hph]
      rfl

/-! ## The end of the input (R246) -/

theorem step_of_decCore {s : State} {i : Instr} (hturn : s.turn = .decCore) (hsel : s.dec.selected = some i) :
    step s = exec i s.spendTurn := by
  have hfetch : s.fetch = some (i, s.spendTurn) := by rw [State.fetch, hturn, hsel, Option.map_some]
  rw [step, hfetch]

/-- With the input exhausted, the micro-step of a phase that reads is answered NONE. -/
theorem exec_selected_of_input_end {s : State} (hv : s.dec.rd.v0 = false) (heof : s.dec.eof = true)
    (hph : s.dec.ph = .tagBit ∨ (s.dec.ph = .literalByte ∧ s.dec.out.valid = false) ∨ s.dec.ph = .refDistance
      ∨ s.dec.ph = .refLength) :
    ∃ i, s.dec.selected = some i ∧ exec i s = .next { s with dec := { s.dec with ph := .done } } := by
  have hbit : s.dec.rd.readBit s.dec.eof = .done none s.dec.rd := by rw [readBit_of_empty _ hv, if_pos heof]
  have hbyte : s.dec.rd.readByte s.dec.eof = .done none s.dec.rd := by rw [readByte_of_empty _ hv, if_pos heof]
  rcases hph with hph | ⟨hph, hout⟩ | hph | hph
  · exact ⟨.decTag, by rw [DecUnit.selected, hph], exec_decTag_of_none hph hbit⟩
  · exact ⟨.decLit, by rw [DecUnit.selected, hph], exec_decLit_of_none hph hout hbyte⟩
  · exact ⟨.decDist, by rw [DecUnit.selected, hph], exec_decDist_of_none hph hbyte⟩
  · exact ⟨.decLen, by rw [DecUnit.selected, hph], exec_decLen_of_none hph hbit⟩

/-- Settles O39: the turn runs the phase's micro-step in the state with the turn spent, which has the same decoder. -/
theorem inputEndIsSoft : Obligations.InputEndIsSoft := by
  intro s hturn hv heof hph
  rw [← spendTurn_dec s] at hv heof hph ⊢
  obtain ⟨i, hsel, hexec⟩ := exec_selected_of_input_end hv heof hph
  rw [step_of_decCore hturn (spendTurn_dec s ▸ hsel), hexec]

end Sys2Proof.Machine
end

section
/-! PROOFS. The host's actions, each with what it leaves unchanged: PUT to the encoder unit and TAKE
(45_host_interface R274, R277). -/

namespace Sys2Proof.Machine

/-! ## The actions as instructions -/

theorem exec_putEnc (b : Byte) (s : State) :
    exec (.putEnc b) s = .next (if s.enc.inReady then { s with enc := s.enc.put b } else s) := rfl

theorem exec_putDec (b : Byte) (s : State) :
    exec (.putDec b) s = .next (if s.dec.inReady then { s with dec := s.dec.put b } else s) := rfl

theorem exec_eof (u : UnitId) (s : State) : exec (.eof u) s = .next (if s.eofOf u then s else s.setEof u) := rfl

theorem exec_take (u : UnitId) (s : State) :
    exec (.take u) s = .next (if (s.outOf u).valid then s.takeByte u else s) := rfl

theorem exec_reset (u : UnitId) (s : State) : exec (.reset u) s = .next (s.resetUnit u) := rfl

theorem enc_inReady_iff (e : EncUnit) :
    e.inReady = true ↔ e.eof = false ∧ e.la.count < e.params.lsize ∧ e.ph ≠ .done ∧ e.ph ≠ .fault := by
  simp [EncUnit.inReady, EncUnit.running, and_assoc]

theorem dec_inReady_iff (d : DecUnit) :
    d.inReady = true ↔ d.eof = false ∧ d.rd.v1 = false ∧ d.ph ≠ .done ∧ d.ph ≠ .fault := by
  simp [DecUnit.inReady, DecUnit.running, and_assoc]

theorem enc_not_inReady_of_eof {e : EncUnit} (heof : e.eof = true) : ¬ e.inReady = true := by
  simp [enc_inReady_iff, heof]

theorem dec_not_inReady_of_eof {d : DecUnit} (heof : d.eof = true) : ¬ d.inReady = true := by
  simp [dec_inReady_iff, heof]

/-! ## PUT to the encoder unit (R274) -/

/-- Settles O41: the action is enabled exactly while `in_ready` stands, and then it is one LA_ENQ. -/
theorem putToEncoderEnqueues : Obligations.PutToEncoderEnqueues := by
  intro s b
  rw [exec_putEnc]
  refine ⟨fun hwait => ?_, fun hok heof hroom hdone hfault => ?_⟩
  · rw [if_neg]
    rw [enc_inReady_iff]
    rintro ⟨heof, hroom, hdone, hfault⟩
    rcases hwait with h | h | h | h
    · simp [h] at heof
    · omega
    · exact hdone h
    · exact hfault h
  · rw [if_pos ((enc_inReady_iff _).mpr ⟨heof, hroom, hdone, hfault⟩)]
    obtain ⟨hwf, -⟩ := id hok
    exact ⟨s.enc.la.enq s.enc.params.lsize b, rfl, queue_enq_content hok hroom b, rfl, rfl,
      fun a ha => memory_read_write_other _ _ _ _ ha hwf⟩

/-! ## TAKE (R277) -/

theorem exec_take_of_full {s : State} {u : UnitId} (hfull : (s.outOf u).valid = true) :
    exec (.take u) s = .next (s.takeByte u) := by
  rw [exec_take, if_pos hfull]

theorem exec_take_of_empty {s : State} {u : UnitId} (hempty : (s.outOf u).valid = false) :
    exec (.take u) s = .next s := by
  rw [exec_take, if_neg (by simp [hempty])]

/-- Settles O44: the action is enabled exactly while the register is full. -/
theorem takeDeliversByte : Obligations.TakeDeliversByte := fun _ =>
  ⟨fun hfull => exec_take_of_full (u := .enc) hfull, fun hfull => exec_take_of_full (u := .dec) hfull,
    fun _ hempty => exec_take_of_empty hempty⟩

end Sys2Proof.Machine
end

section
/-! PROOFS. The input of a unit once its EOF is set: no micro-step and no token takes in a byte, and PUT waits
(45_host_interface R279; 10_state R36). -/

namespace Sys2Proof.Machine

/-! ## What an operation leaves -/

/-- `P` holds of the state an operation leaves, whether it is done or raises; a hold leaves none. -/
def Res.Leaves {σ α : Type} (P : σ → Prop) : Res σ α → Prop
  | .hold => True
  | .raised _ s => P s
  | .done _ s => P s

theorem bind_leaves {σ α β : Type} {P : σ → Prop} {r : Res σ α} {f : α → σ → Res σ β} (hr : r.Leaves P)
    (hf : ∀ a s, P s → (f a s).Leaves P) : (r.bind f).Leaves P := by
  cases r with
  | hold => trivial
  | raised c s => exact hr
  | done a s => exact hf a s hr

/-- The end of a step that holds where it is not enabled. -/
theorem ite_hold_leaves {σ α : Type} {P : σ → Prop} {enabled : Prop} [Decidable enabled] {r : Res σ α}
    (hr : enabled → r.Leaves P) : (if enabled then r else .hold).Leaves P := by
  split
  · exact hr ‹_›
  · trivial

/-! ## A unit that takes in nothing -/

/-- `e'` has come from `e` without input: the same EOF bit, the same input cursor, and no byte more in the queue. -/
def EncUnit.TakesNoInput (e e' : EncUnit) : Prop :=
  e'.eof = e.eof ∧ e'.consumedIn = e.consumedIn ∧ e'.la.count ≤ e.la.count

/-- The bytes put to the reader since reset: those shifted out and those its slots hold (R25, R126). -/
def Reader.accepted (r : Reader) : Nat := r.shifted + r.held.length

/-- `d'` has come from `d` without input: the same EOF bit, and its reader has accepted as many bytes. -/
def DecUnit.TakesNoInput (d d' : DecUnit) : Prop := d'.eof = d.eof ∧ d'.rd.accepted = d.rd.accepted

theorem enc_takesNoInput_refl (e : EncUnit) : e.TakesNoInput e := ⟨rfl, rfl, Nat.le_refl _⟩

theorem enc_takesNoInput_trans {e₁ e₂ e₃ : EncUnit} (h₁ : e₁.TakesNoInput e₂) (h₂ : e₂.TakesNoInput e₃) :
    e₁.TakesNoInput e₃ := by
  obtain ⟨heof₁, hcur₁, hla₁⟩ := h₁
  obtain ⟨heof₂, hcur₂, hla₂⟩ := h₂
  exact ⟨heof₂.trans heof₁, hcur₂.trans hcur₁, hla₂.trans hla₁⟩

theorem dec_takesNoInput_refl (d : DecUnit) : d.TakesNoInput d := ⟨rfl, rfl⟩

theorem dec_takesNoInput_trans {d₁ d₂ d₃ : DecUnit} (h₁ : d₁.TakesNoInput d₂) (h₂ : d₂.TakesNoInput d₃) :
    d₁.TakesNoInput d₃ := by
  obtain ⟨heof₁, hacc₁⟩ := h₁
  obtain ⟨heof₂, hacc₂⟩ := h₂
  exact ⟨heof₂.trans heof₁, hacc₂.trans hacc₁⟩

/-! ## The encoder's micro-steps take in nothing (R192, R203, R204) -/

theorem endEnc_takesNoInput {α : Type} {s : State} {r : Res EncUnit α} (h : r.Leaves s.enc.TakesNoInput) :
    s.enc.TakesNoInput (s.endEnc r).enc := by
  cases r with
  | hold => exact enc_takesNoInput_refl s.enc
  | raised c e => exact h
  | done a e => exact h

@[simp] theorem endEnc_dec {α : Type} (s : State) (r : Res EncUnit α) : (s.endEnc r).dec = s.dec := by
  cases r <;> rfl

theorem laPop_leaves {e₀ e : EncUnit} (h : e₀.TakesNoInput e) : e.laPop.Leaves e₀.TakesNoInput := by
  by_cases hempty : e.la.count = 0
  · rw [EncUnit.laPop, queue_pop_none.mpr hempty]
    exact h
  · rw [EncUnit.laPop, queue_pop_of_ne hempty]
    exact enc_takesNoInput_trans h ⟨rfl, rfl, Nat.sub_le _ _⟩

theorem popPush_leaves {e₀ e : EncUnit} (k : Nat) (h : e₀.TakesNoInput e) :
    (EncUnit.popPush k e).Leaves e₀.TakesNoInput := by
  induction k generalizing e with
  | zero => exact h
  | succ k ih => exact bind_leaves (laPop_leaves h) fun _ _ h' => ih h'

theorem decide_leaves (e : EncUnit) : e.decide.Leaves e.TakesNoInput :=
  bind_leaves (laPop_leaves (enc_takesNoInput_refl e)) fun _ _ h₁ =>
    bind_leaves (popPush_leaves _ h₁) fun _ _ h₂ => h₂

theorem emitBit_takesNoInput (e : EncUnit) : e.TakesNoInput e.emitBit := by
  cases htok : e.tok with
  | nil =>
    rw [EncUnit.emitBit, htok]
    exact enc_takesNoInput_refl e
  | cons b rest =>
    rw [emitBit_cons htok]
    exact enc_takesNoInput_refl e

theorem enc_selected_cases {e : EncUnit} {i : Instr} (h : e.selected = some i) :
    i = .encDecide ∨ i = .encEmit ∨ i = .encFlush := by
  cases hph : e.ph <;> simp only [EncUnit.selected, hph, Option.some.injEq, reduceCtorEq] at h
  case tokenStart =>
    split at h
    · exact .inr (.inr h.symm)
    · exact .inl h.symm
  case tokenEmit => exact .inr (.inl h.symm)

theorem exec_encSelected_takesNoInput {s t : State} {i : Instr} (hsel : s.enc.selected = some i)
    (h : exec i s = .next t) : s.enc.TakesNoInput t.enc ∧ t.dec = s.dec := by
  rcases enc_selected_cases hsel with rfl | rfl | rfl
  · rw [exec_encDecide] at h
    cases h
    exact ⟨endEnc_takesNoInput (ite_hold_leaves fun _ => decide_leaves s.enc), endEnc_dec s _⟩
  · rw [exec_encEmit] at h
    cases h
    split
    · exact ⟨emitBit_takesNoInput s.enc, rfl⟩
    · exact ⟨enc_takesNoInput_refl s.enc, rfl⟩
  · rw [exec_encFlush] at h
    cases h
    split
    · exact ⟨⟨rfl, rfl, Nat.le_refl _⟩, rfl⟩
    · exact ⟨enc_takesNoInput_refl s.enc, rfl⟩

/-! ## The reader accepts a byte by PUT only (R122, R123) -/

/-- A shift moves the first byte from the held ones to those shifted out. -/
theorem accepted_shift {r : Reader} (hv : r.v0 = true) : r.shift.accepted = r.accepted := by
  simp only [Reader.accepted, held_length, Reader.shift, hv, Bool.toNat_true, Bool.toNat_false]
  omega

theorem readBit_leaves (eof : Bool) (r : Reader) : (r.readBit eof).Leaves (·.accepted = r.accepted) := by
  rcases readBit_cases eof r with ⟨-, -, h⟩ | ⟨-, -, h⟩ | ⟨hv, -, h⟩ | ⟨-, -, h⟩ <;> rw [h]
  · trivial
  · rfl
  · exact accepted_shift hv
  · rfl

theorem readByte_leaves (eof : Bool) (r : Reader) : (r.readByte eof).Leaves (·.accepted = r.accepted) := by
  rcases readByte_cases eof r with ⟨-, -, h⟩ | ⟨-, -, h⟩ | ⟨hv, -, h⟩ | ⟨hv, -, -, h⟩ | ⟨hv, -, -, -, h⟩ <;> rw [h]
  · trivial
  · rfl
  all_goals exact accepted_shift hv

/-! ## The decoder's micro-steps take in nothing (R231-R235) -/

/-- `t` has come from `s` by the decoder's work on the input it had, the encoder untouched. -/
def State.DecoderWorks (s t : State) : Prop := t.enc = s.enc ∧ s.dec.TakesNoInput t.dec

theorem decoderWorks_refl (s : State) : s.DecoderWorks s := ⟨rfl, dec_takesNoInput_refl s.dec⟩

theorem decoderWorks_trans {s₁ s₂ s₃ : State} (h₁ : s₁.DecoderWorks s₂) (h₂ : s₂.DecoderWorks s₃) :
    s₁.DecoderWorks s₃ := by
  obtain ⟨henc₁, hdec₁⟩ := h₁
  obtain ⟨henc₂, hdec₂⟩ := h₂
  exact ⟨henc₂.trans henc₁, dec_takesNoInput_trans hdec₁ hdec₂⟩

theorem endDec_decoderWorks {α : Type} {s : State} {r : Res DecUnit α} (h : r.Leaves s.dec.TakesNoInput) :
    s.DecoderWorks (s.endDec r) := by
  cases r with
  | hold => exact decoderWorks_refl s
  | raised c d => exact ⟨rfl, h⟩
  | done a d => exact ⟨rfl, h⟩

/-- A step that reads takes in nothing if what follows the read does not. -/
theorem reading_leaves {α : Type} {d : DecUnit} {r : Res Reader (Option α)} {f : α → DecUnit → Res DecUnit Unit}
    (hr : r.Leaves (·.accepted = d.rd.accepted))
    (hf : ∀ a d', d.TakesNoInput d' → (f a d').Leaves d.TakesNoInput) : (d.reading r f).Leaves d.TakesNoInput := by
  rcases r with _ | ⟨c, rd⟩ | ⟨_ | a, rd⟩
  · trivial
  · exact ⟨rfl, hr⟩
  · exact ⟨rfl, hr⟩
  · exact hf a _ ⟨rfl, hr⟩

theorem tag_leaves (d : DecUnit) : d.tag.Leaves d.TakesNoInput :=
  reading_leaves (readBit_leaves _ _) fun bit d' h => by
    cases bit <;> exact h

theorem literal_leaves (d : DecUnit) : d.literal.Leaves d.TakesNoInput :=
  reading_leaves (readByte_leaves _ _) fun _ _ h => h

theorem distance_leaves (d : DecUnit) : d.distance.Leaves d.TakesNoInput :=
  reading_leaves (readByte_leaves _ _) fun v d' h => by
    dsimp only
    split <;> exact h

theorem complete_leaves {d₀ d : DecUnit} (h : d₀.TakesNoInput d) : d.complete.Leaves d₀.TakesNoInput := by
  unfold DecUnit.complete
  split <;> exact h

theorem length_leaves (d : DecUnit) : d.length.Leaves d.TakesNoInput :=
  reading_leaves (readBit_leaves _ _) fun bit d' h => by
    dsimp only
    split
    · exact complete_leaves h
    · exact h

theorem copy_leaves (d : DecUnit) : d.copy.Leaves d.TakesNoInput := by
  refine bind_leaves ?_ fun _ d' h => ?_
  · unfold DecUnit.copyByte
    split <;> exact dec_takesNoInput_refl d
  · split <;> exact h

theorem dec_selected_cases {d : DecUnit} {i : Instr} (h : d.selected = some i) :
    i = .decTag ∨ i = .decLit ∨ i = .decDist ∨ i = .decLen ∨ i = .decCopy := by
  cases hph : d.ph <;> simp only [DecUnit.selected, hph, Option.some.injEq, reduceCtorEq] at h <;> simp [← h]

theorem exec_decSelected_decoderWorks {s t : State} {i : Instr} (hsel : s.dec.selected = some i)
    (h : exec i s = .next t) : s.DecoderWorks t := by
  obtain ⟨r, hr, rfl⟩ : ∃ r : Res DecUnit Unit, r.Leaves s.dec.TakesNoInput ∧ s.endDec r = t := by
    rcases dec_selected_cases hsel with rfl | rfl | rfl | rfl | rfl
    · exact ⟨_, ite_hold_leaves fun _ => tag_leaves s.dec, Host.Outcome.next.inj ((exec_decTag s).symm.trans h)⟩
    · exact ⟨_, ite_hold_leaves fun _ => literal_leaves s.dec, Host.Outcome.next.inj ((exec_decLit s).symm.trans h)⟩
    · exact ⟨_, ite_hold_leaves fun _ => distance_leaves s.dec, Host.Outcome.next.inj ((exec_decDist s).symm.trans h)⟩
    · exact ⟨_, ite_hold_leaves fun _ => length_leaves s.dec, Host.Outcome.next.inj ((exec_decLen s).symm.trans h)⟩
    · exact ⟨_, ite_hold_leaves fun _ => copy_leaves s.dec, Host.Outcome.next.inj ((exec_decCopy s).symm.trans h)⟩
  exact endDec_decoderWorks hr

/-! ## A token executed takes in nothing (R236-R238) -/

theorem makeRoom_decoderWorks (s : State) : s.DecoderWorks s.makeRoom := by
  rw [State.DecoderWorks, makeRoom_dec]
  exact ⟨makeRoom_enc s, dec_takesNoInput_refl s.dec⟩

theorem tokenLiteral_decoderWorks (b : Byte) (s : State) : s.DecoderWorks (s.tokenLiteral b) := by
  unfold State.tokenLiteral
  dsimp only
  split
  · exact decoderWorks_refl s
  · exact makeRoom_decoderWorks s

theorem tokenCopy_decoderWorks (n : Nat) (s : State) : s.DecoderWorks (State.tokenCopy n s) := by
  induction n generalizing s with
  | zero => exact decoderWorks_refl s
  | succ n ih =>
    rw [State.tokenCopy]
    dsimp only
    split
    · split
      · exact makeRoom_decoderWorks s
      · have hbyte := endDec_decoderWorks (copy_leaves s.makeRoom.dec)
        exact decoderWorks_trans (makeRoom_decoderWorks s) (decoderWorks_trans hbyte (ih _))
    · exact decoderWorks_refl s

theorem tokenRef_decoderWorks (k : Bool) (dist : Dist) (n : Nat) (s : State) :
    s.DecoderWorks (s.tokenRef k dist n) := by
  let s₁ : State := { s with dec := s.dec.loadRef k dist n }
  have hload : s.DecoderWorks s₁ := decoderWorks_refl s
  have hcheck : s₁.DecoderWorks (s₁.endDec s₁.dec.complete) :=
    endDec_decoderWorks (complete_leaves (dec_takesNoInput_refl s₁.dec))
  exact decoderWorks_trans hload (decoderWorks_trans hcheck (tokenCopy_decoderWorks n _))

theorem exec_lit (b : Byte) (s : State) :
    exec (.lit b) s = .next (if s.dec.ph = .tagBit then s.tokenLiteral b else s) := rfl

/-- Where a back-reference has a meaning, it is one `tokenRef`, or it holds. -/
theorem exec_backRef_next {s t : State} {p : Params} {d n : Nat}
    (h : exec ((Token.backRef d n).toInstr p) s = .next t) :
    ∃ k dist, (if s.dec.ph = .tagBit then s.tokenRef k dist n else s) = t := by
  rw [Token.toInstr] at h
  split at h
  · rw [exec, execRef8] at h
    split at h
    · exact ⟨_, _, Host.Outcome.next.inj h⟩
    · cases h
  · rw [exec, execRef16] at h
    split at h
    · exact ⟨_, _, Host.Outcome.next.inj h⟩
    · cases h

theorem exec_token_decoderWorks {s t : State} {p : Params} {tok : Token} (h : exec (tok.toInstr p) s = .next t) :
    s.DecoderWorks t := by
  cases tok with
  | literal b =>
    cases (exec_lit b s).symm.trans h
    split
    · exact tokenLiteral_decoderWorks b s
    · exact decoderWorks_refl s
  | backRef d n =>
    obtain ⟨k, dist, rfl⟩ := exec_backRef_next h
    split
    · exact tokenRef_decoderWorks k dist n s
    · exact decoderWorks_refl s

/-! ## A token's bits, fetched after EOF, are those the reader holds (R121, R275) -/

theorem heldBit_takesNoInput {d d' : DecUnit} {b : Bool} (h : d.heldBit = some (b, d')) : d.TakesNoInput d' := by
  have hread := readBit_leaves d.eof d.rd
  unfold DecUnit.heldBit at h
  split at h
  · rename_i heq
    rw [heq] at hread
    cases h
    exact ⟨rfl, hread⟩
  all_goals cases h

theorem fetchBit_takesNoInput {d d' : DecUnit} {p p' : List HostAct} {b : Bool} (heof : d.eof = true)
    (h : d.fetchBit p = some (b, d', p')) : d.TakesNoInput d' := by
  unfold DecUnit.fetchBit at h
  split at h
  · obtain ⟨⟨b₁, d₁⟩, hheld, heq⟩ := Option.map_eq_some_iff.mp h
    cases heq
    exact heldBit_takesNoInput hheld
  · split at h
    · rw [if_neg (dec_not_inReady_of_eof heof)] at h
      cases h
    · cases h

theorem fetchBits_takesNoInput {n : Nat} {d d' : DecUnit} {p p' : List HostAct} {bs : List Bool} (heof : d.eof = true)
    (h : DecUnit.fetchBits n d p = some (bs, d', p')) : d.TakesNoInput d' := by
  induction n generalizing d p bs with
  | zero =>
    cases h
    exact dec_takesNoInput_refl d'
  | succ n ih =>
    obtain ⟨⟨b, d₁, p₁⟩, hbit, hrest⟩ := Option.bind_eq_some_iff.mp h
    obtain ⟨⟨bs', d₂, p₂⟩, hbits, heq⟩ := Option.map_eq_some_iff.mp hrest
    cases heq
    have hfirst := fetchBit_takesNoInput heof hbit
    exact dec_takesNoInput_trans hfirst (ih (hfirst.1.trans heof) hbits)

theorem fetchTokenBits_takesNoInput {d d' : DecUnit} {p p' : List HostAct} {bs : List Bool} (heof : d.eof = true)
    (h : d.fetchTokenBits p = some (bs, d', p')) : d.TakesNoInput d' := by
  obtain ⟨⟨tag, d₁, p₁⟩, htag, hrest⟩ := Option.bind_eq_some_iff.mp h
  have hbits : DecUnit.fetchBits (tokenLength d.params tag - 1 + 1) d p = some (bs, d', p') :=
    Option.bind_eq_some_iff.mpr ⟨_, htag, hrest⟩
  exact fetchBits_takesNoInput heof hbits

theorem decodeBits_eq_toInstr {p : Params} {bits rest : List Bool} {i : Instr} (h : decodeBits p bits = .ok (i, rest)) :
    ∃ tok : Token, i = tok.toInstr p := by
  unfold decodeBits at h
  split at h
  · cases h
    exact ⟨_, rfl⟩
  · cases h

/-! ## A step after EOF (R279, R36) -/

/-- What R279 asks of `t` after `s`: a unit whose EOF bit is set has been reset or has taken in nothing. -/
def State.InputStaysClosed (s t : State) : Prop :=
  (s.enc.eof = true → t.enc = .reset s.enc.params ∨ s.enc.TakesNoInput t.enc)
  ∧ (s.dec.eof = true → t.dec = .reset s.dec.params ∨ s.dec.TakesNoInput t.dec)

theorem inputStaysClosed_refl (s : State) : s.InputStaysClosed s :=
  ⟨fun _ => .inr (enc_takesNoInput_refl s.enc), fun _ => .inr (dec_takesNoInput_refl s.dec)⟩

/-- Only the two units matter. -/
theorem inputStaysClosed_congr {s s' t : State} (henc : s'.enc = s.enc) (hdec : s'.dec = s.dec)
    (h : s'.InputStaysClosed t) : s.InputStaysClosed t := by
  rwa [State.InputStaysClosed, henc, hdec] at h

theorem inputStaysClosed_of_encTakesNoInput {s t : State} (h : s.enc.TakesNoInput t.enc ∧ t.dec = s.dec) :
    s.InputStaysClosed t := by
  obtain ⟨henc, hdec⟩ := h
  exact ⟨fun _ => .inr henc, fun _ => .inr (hdec ▸ dec_takesNoInput_refl s.dec)⟩

theorem inputStaysClosed_of_decoderWorks {s t : State} (h : s.DecoderWorks t) : s.InputStaysClosed t := by
  obtain ⟨henc, hdec⟩ := h
  exact ⟨fun _ => .inr (henc ▸ enc_takesNoInput_refl s.enc), fun _ => .inr hdec⟩

/-- Of the host's actions, only PUT brings a byte, and it waits after EOF; EOF and TAKE leave the input alone. -/
theorem exec_hostAct_inputStaysClosed {s t : State} {a : HostAct} (h : exec a.toInstr s = .next t) :
    s.InputStaysClosed t := by
  cases a with
  | putEnc b =>
    cases (exec_putEnc b s).symm.trans h
    refine ⟨fun heof => .inr ?_, fun _ => .inr ?_⟩
    · rw [if_neg (enc_not_inReady_of_eof heof)]
      exact enc_takesNoInput_refl s.enc
    · split <;> exact dec_takesNoInput_refl s.dec
  | putDec b =>
    cases (exec_putDec b s).symm.trans h
    refine ⟨fun _ => .inr ?_, fun heof => .inr ?_⟩
    · split <;> exact enc_takesNoInput_refl s.enc
    · rw [if_neg (dec_not_inReady_of_eof heof)]
      exact dec_takesNoInput_refl s.dec
  | eof u =>
    cases (exec_eof u s).symm.trans h
    split
    · exact inputStaysClosed_refl s
    · cases u with
      | enc => exact ⟨fun heof => .inr ⟨heof.symm, rfl, Nat.le_refl _⟩, fun _ => .inr (dec_takesNoInput_refl s.dec)⟩
      | dec => exact ⟨fun _ => .inr (enc_takesNoInput_refl s.enc), fun heof => .inr ⟨heof.symm, rfl⟩⟩
  | take u =>
    cases (exec_take u s).symm.trans h
    split
    · cases u <;> exact ⟨fun _ => .inr (enc_takesNoInput_refl s.enc), fun _ => .inr (dec_takesNoInput_refl s.dec)⟩
    · exact inputStaysClosed_refl s
  | reset u =>
    cases (exec_reset u s).symm.trans h
    cases u with
    | enc => exact ⟨fun _ => .inl rfl, fun _ => .inr (dec_takesNoInput_refl s.dec)⟩
    | dec => exact ⟨fun _ => .inr (enc_takesNoInput_refl s.enc), fun _ => .inl rfl⟩

/-- A token turn after EOF reads bits the reader holds, and its token takes in nothing. -/
theorem exec_fetchToken_inputStaysClosed {s s' t : State} {i : Instr} (hfetch : s.fetchToken = some (i, s'))
    (h : exec i s' = .next t) : s.InputStaysClosed t := by
  obtain ⟨bits, d, pending, rest, hbits, hdecode, rfl, -⟩ := fetchToken_cases hfetch
  obtain ⟨tok, rfl⟩ := decodeBits_eq_toInstr hdecode
  obtain ⟨henc, hdec⟩ := exec_token_decoderWorks h
  exact ⟨fun _ => .inr (henc ▸ enc_takesNoInput_refl s.enc),
    fun heof => .inr (dec_takesNoInput_trans (fetchTokenBits_takesNoInput heof hbits) hdec)⟩

theorem step_inputStaysClosed {s t : State} (h : step s = .next t) : s.InputStaysClosed t := by
  refine inputStaysClosed_congr (spendTurn_enc s) (spendTurn_dec s) ?_
  rcases step_cases s with ⟨-, hpass⟩ | ⟨i, s', hfetch, hrun⟩
  · cases hpass.symm.trans h
    exact inputStaysClosed_refl s.spendTurn
  have hexec : exec i s' = .next t := hrun.symm.trans h
  rcases fetch_cases hfetch with ⟨-, hsel, rfl⟩ | ⟨-, hsel, rfl⟩ | ⟨-, a, rest, -, -, rfl, rfl⟩ | ⟨-, -, htoken⟩
  · rw [← spendTurn_enc s] at hsel
    exact inputStaysClosed_of_encTakesNoInput (exec_encSelected_takesNoInput hsel hexec)
  · rw [← spendTurn_dec s] at hsel
    exact inputStaysClosed_of_decoderWorks (exec_decSelected_decoderWorks hsel hexec)
  · have hclosed := exec_hostAct_inputStaysClosed hexec
    exact inputStaysClosed_congr rfl rfl hclosed
  · exact exec_fetchToken_inputStaysClosed htoken hexec

/-- Settles O46: a step leaves each unit reset or with no byte taken in, and then its EOF bit is the one it had. -/
theorem noInputAfterEof : Obligations.NoInputAfterEof := by
  intro s t h
  obtain ⟨henc, hdec⟩ := step_inputStaysClosed h
  refine ⟨fun heof => (henc heof).imp_right ?_, fun heof => (hdec heof).imp_right ?_⟩
  · rintro ⟨heof', hcursor, hqueue⟩
    exact ⟨heof'.trans heof, hcursor, hqueue⟩
  · rintro ⟨heof', haccepted⟩
    exact ⟨heof'.trans heof, haccepted⟩

end Sys2Proof.Machine
end

section
/-! PROOFS. RESET: the ports of a unit it has left, and RESET against RESET and construction
(70_reset_and_hazards R330, R332). -/

namespace Sys2Proof.Machine

theorem eq_resetUnit_of_exec_reset {s t : State} {u : UnitId} (h : exec (.reset u) s = .next t) :
    t = s.resetUnit u := by
  cases (exec_reset u s).symm.trans h
  rfl

/-! ## The ports after RESET (R330) -/

/-- What R330 says the host sees after RESET: the unit takes input, offers no output, and has neither ended nor
faulted. -/
def Status.Cleared (st : Status) : Prop :=
  st.inReady = true ∧ st.outValid = false ∧ st.done = false ∧ st.fault = false ∧ st.cause = 0

/-- The queue is empty, and no queue has length 0. -/
theorem enc_reset_inReady (p : Params) : (EncUnit.reset p).inReady = true :=
  (enc_inReady_iff _).mpr ⟨rfl, params_lsize_pos p, nofun, nofun⟩

theorem dec_reset_inReady (p : Params) : (DecUnit.reset p).inReady = true :=
  (dec_inReady_iff _).mpr ⟨rfl, rfl, nofun, nofun⟩

theorem enc_reset_status_cleared (p : Params) : (EncUnit.reset p).status.Cleared :=
  ⟨enc_reset_inReady p, rfl, rfl, rfl, rfl⟩

theorem dec_reset_status_cleared (p : Params) : (DecUnit.reset p).status.Cleared :=
  ⟨dec_reset_inReady p, rfl, rfl, rfl, rfl⟩

theorem resetUnit_status_cleared (s : State) (u : UnitId) : ((s.resetUnit u).status u).Cleared := by
  cases u with
  | enc => exact enc_reset_status_cleared s.enc.params
  | dec => exact dec_reset_status_cleared s.dec.params

/-- Settles O47: RESET answers `resetUnit`, whose elements are those of the rule, and its ports follow from them. -/
theorem resetSetsEveryElement : Obligations.ResetSetsEveryElement := by
  intro s
  refine ⟨exec_reset .enc s, exec_reset .dec s, memory_read_nil, fun u t h => ?_⟩
  rw [eq_resetUnit_of_exec_reset h]
  exact resetUnit_status_cleared s u

/-! ## RESET twice, and construction (R332) -/

/-- The configuration is all that a reset value depends on, and RESET keeps it. -/
theorem resetUnit_resetUnit (s : State) (u : UnitId) : (s.resetUnit u).resetUnit u = s.resetUnit u := by
  cases u <;> rfl

@[simp] theorem built_enc (pe pd : Params) : (State.built pe pd).enc = .reset pe := rfl
@[simp] theorem built_dec (pe pd : Params) : (State.built pe pd).dec = .reset pd := rfl

/-- Settles O48: the second RESET finds the configuration the first one kept, and construction gives the same unit. -/
theorem resetIsConstruction : Obligations.ResetIsConstruction := by
  intro s t u h
  obtain rfl := eq_resetUnit_of_exec_reset h
  refine ⟨by rw [exec_reset, resetUnit_resetUnit], ?_⟩
  cases u with
  | enc => rw [built_enc, resetUnit_enc_enc]
  | dec => rw [built_dec, resetUnit_dec_dec]

end Sys2Proof.Machine
end

section
/-! PROOFS. Decoding and encoding undo each other, on tokens and on instructions (30_encoding R91-R98, R105, R106). -/

namespace Sys2Proof.Machine

/-! ## Tokens -/

/-- The length field holds every legal length less one (R98). -/
theorem length_field_lt {p : Params} {n : Nat} (hn : 1 ≤ n) (hnL : n ≤ p.lsize) : n - 1 < 2 ^ p.L := by
  unfold Params.lsize at hnL
  omega

theorem decodeToken_encodeToken {p : Params} {t : Token} (ht : encodable p t) (rest : List Bool) :
    decodeToken p (encodeToken p t ++ rest) = .ok (t, rest) := by
  cases t with
  | literal b => exact decodeToken_literal p b rest
  | backRef d n =>
    obtain ⟨hd, hn, hnL⟩ := ht
    have hdecode := decodeToken_backRef (bitsN_length p.indexBits d) (bitsN_length p.L (n - 1)) rest
    rw [ofBits_bitsN_of_lt hd, ofBits_bitsN_of_lt (length_field_lt hn hnL), Nat.sub_add_cancel hn] at hdecode
    rwa [encodeToken, List.cons_append, List.append_assoc]

/-- A field read from `k` bits encodes to those bits. -/
theorem bitsN_ofBits_take {k : Nat} {l : List Bool} (h : k ≤ l.length) : bitsN k (ofBits (l.take k)) = l.take k := by
  have hlen : (l.take k).length = k := by rw [List.length_take, Nat.min_eq_left h]
  calc bitsN k (ofBits (l.take k)) = bitsN (l.take k).length (ofBits (l.take k)) := by rw [hlen]
    _ = l.take k := bitsN_ofBits _

theorem ofBits_take_lt (l : List Bool) (k : Nat) : ofBits (l.take k) < 2 ^ k :=
  (ofBits_lt _).trans_le (Nat.pow_le_pow_right (by decide) (List.length_take_le k l))

theorem byteBits_ofBits_take {l : List Bool} (h : 8 ≤ l.length) :
    byteBits (BitVec.ofNat 8 (ofBits (l.take 8))) = l.take 8 := by
  rw [byteBits, BitVec.toNat_ofNat, bitsN_mod (le_refl 8), bitsN_ofBits_take h]

theorem encodeToken_of_decodeToken {p : Params} {bits rest : List Bool} {t : Token}
    (h : decodeToken p bits = .ok (t, rest)) : encodable p t ∧ bits = encodeToken p t ++ rest := by
  match bits with
  | [] => cases h
  | true :: bits =>
    rw [decodeToken] at h
    split at h
    · cases h
    · next hlen =>
      cases h
      refine ⟨trivial, ?_⟩
      rw [encodeToken, byteBits_ofBits_take (Nat.not_lt.mp hlen), List.cons_append, List.take_append_drop]
  | false :: bits =>
    rw [decodeToken] at h
    split at h
    · cases h
    · next hlen =>
      cases h
      have hfield : p.L ≤ (bits.drop p.indexBits).length := by rw [List.length_drop]; omega
      refine ⟨⟨ofBits_take_lt _ _, Nat.succ_pos _, Nat.succ_le_of_lt (ofBits_take_lt _ _)⟩, ?_⟩
      rw [encodeToken, Nat.add_sub_cancel, bitsN_ofBits_take (by omega), bitsN_ofBits_take hfield, List.cons_append,
        List.append_assoc, List.take_append_drop, List.take_append_drop]

/-! ## Instructions -/

theorem lengthOk_iff {p : Params} {n : Nat} : lengthOk p n = true ↔ 1 ≤ n ∧ n ≤ p.lsize := by
  simp [lengthOk]

/-- A well-formed instruction that has an encoding is the row of an encodable token. -/
theorem token_of_wf {pe pd : Params} {i : Instr} {t : Token} (hwf : i.wf pe pd = true) (ht : i.token? = some t) :
    encodable pd t ∧ t.toInstr pd = i := by
  cases i <;> cases ht
  case lit b => exact ⟨trivial, rfl⟩
  case ref8 d n =>
    obtain ⟨hW, hn⟩ : pd.W ≤ 7 ∧ lengthOk pd n = true := by simpa [Instr.wf] using hwf
    refine ⟨⟨?_, lengthOk_iff.mp hn⟩, ?_⟩
    · rw [indexBits_of_le hW]
      exact d.isLt
    · rw [toInstr_backRef_ref8 hW, BitVec.ofNat_toNat, BitVec.setWidth_eq]
  case ref16 d n =>
    obtain ⟨hW, hn⟩ : 8 ≤ pd.W ∧ lengthOk pd n = true := by simpa [Instr.wf] using hwf
    refine ⟨⟨?_, lengthOk_iff.mp hn⟩, ?_⟩
    · rw [indexBits_of_ge hW]
      exact d.isLt
    · rw [toInstr_backRef_ref16 hW, BitVec.ofNat_toNat, BitVec.setWidth_eq]

/-- The row of an encodable token is well-formed, and its encoding is the token's. -/
theorem toInstr_wf {p : Params} {t : Token} (ht : encodable p t) :
    (t.toInstr p).wf p p = true ∧ encode p (t.toInstr p) = some (encodeToken p t) := by
  cases t with
  | literal b => exact ⟨rfl, rfl⟩
  | backRef d n =>
    obtain ⟨hd, hn⟩ := ht
    have hlen : lengthOk p n = true := lengthOk_iff.mpr hn
    rcases Nat.lt_or_ge p.W 8 with hW | hW
    · rw [indexBits_of_le (by omega)] at hd
      rw [toInstr_backRef_ref8 (by omega)]
      refine ⟨by simp [Instr.wf, hlen]; omega, ?_⟩
      rw [encode, Instr.token?, Option.map_some, BitVec.toNat_ofNat, Nat.mod_eq_of_lt hd]
    · rw [indexBits_of_ge hW] at hd
      rw [toInstr_backRef_ref16 hW]
      refine ⟨by simp [Instr.wf, hlen, hW], ?_⟩
      rw [encode, Instr.token?, Option.map_some, BitVec.toNat_ofNat, Nat.mod_eq_of_lt hd]

/-- Settles O3: the instruction is a token's row, and a token's fields read back as they were written. -/
theorem decodeOfEncode : Obligations.DecodeOfEncode := by
  intro pe pd i bits rest hwf hbits
  obtain ⟨t, ht, rfl⟩ := Option.map_eq_some_iff.mp hbits
  obtain ⟨hencodable, rfl⟩ := token_of_wf hwf ht
  exact decodeBits_of_decodeToken (decodeToken_encodeToken hencodable rest)

theorem decodeBits_ok {p : Params} {bits rest : List Bool} {i : Instr} (h : decodeBits p bits = .ok (i, rest)) :
    ∃ t : Token, i = t.toInstr p ∧ decodeToken p bits = .ok (t, rest) := by
  unfold decodeBits at h
  split at h
  · cases h
    exact ⟨_, rfl, ‹_›⟩
  · cases h

/-- Settles O4: the fields cut off the string are put together again as they were. -/
theorem encodeOfDecode : Obligations.EncodeOfDecode := by
  intro p bits rest i h
  obtain ⟨t, rfl, htoken⟩ := decodeBits_ok h
  obtain ⟨hencodable, hbits⟩ := encodeToken_of_decodeToken htoken
  obtain ⟨hwf, hencode⟩ := toInstr_wf hencodable
  exact ⟨hwf, _, hencode, hbits⟩

/-! ## The bounds of a decided back-reference (43_encoder R199) -/

/-- Settles O29: the match exceeds the threshold and ends with the bytes at hand, and the candidate lies in the
window. -/
theorem decidedReferenceFitsFields : Obligations.DecidedReferenceFitsFields := by
  intro p h lit q hh hq d n ht
  have hencodable := matchToken_encodable lit hh hq
  have hcovers := extraBytes_matchToken_le h lit q
  rw [ht] at hencodable hcovers
  obtain ⟨hd, hn, hnL⟩ := hencodable
  rcases searchKeepsEarliestLongest h lit q with ⟨hlit, -⟩ | ⟨c, hc, hlen, href, -⟩
  · cases ht.symm.trans hlit
  · cases ht.symm.trans href
    obtain ⟨hlt, -⟩ := List.getElem?_eq_some_iff.mp hc
    have hL : p.L ≠ 1 := by
      intro hL
      rw [Params.lsize, hL] at hnL
      omega
    exact ⟨hlen, Nat.le_add_of_sub_le hcovers, length_field_lt hn hnL, by omega, hd, hL⟩

end Sys2Proof.Machine
end

section
/-! PROOFS. READ_BYTE against READ_BIT, ADD_BYTE against ADD_BIT, and the operations that wait (40_bitreader R128,
41_bitwriter R142, 10_state R35). -/

namespace Sys2Proof.Machine

/-! ## READ_BIT several times (R128) -/

theorem readBits_succ (eof : Bool) (n : Nat) {r r' : Reader} {b : Bool} (h : r.readBit eof = .done (some b) r') :
    r.readBits eof (n + 1) = (r'.readBits eof n).map fun (bs, r'') => (b :: bs, r'') := by
  rw [Reader.readBits, h]

theorem readBits_of_empty (eof : Bool) {n : Nat} {r : Reader} (hv : r.v0 = false) (hn : n ≠ 0) :
    r.readBits eof n = none := by
  obtain ⟨n, rfl⟩ := Nat.exists_eq_succ_of_ne_zero hn
  rw [Reader.readBits, readBit_of_empty eof hv]
  cases eof <;> rfl

theorem readBits_add (eof : Bool) (m n : Nat) (r : Reader) :
    r.readBits eof (m + n) =
      (r.readBits eof m).bind fun (bs, r₁) => (r₁.readBits eof n).map fun (cs, r₂) => (bs ++ cs, r₂) := by
  induction m generalizing r with
  | zero => simp [Reader.readBits]
  | succ m ih =>
    rcases readBit_cases eof r with ⟨hv, -⟩ | ⟨hv, -⟩ | ⟨-, -, h⟩ | ⟨-, -, h⟩
    · rw [readBits_of_empty eof hv (by omega), readBits_of_empty eof hv (by omega), Option.bind_none]
    · rw [readBits_of_empty eof hv (by omega), readBits_of_empty eof hv (by omega), Option.bind_none]
    all_goals
      rw [Nat.add_right_comm, readBits_succ eof _ h, readBits_succ eof _ h, ih]
      simp [Option.map_bind, Option.bind_map, Function.comp_def]

theorem byteBits_drop_eq_cons (b : Byte) (o : Fin 8) :
    (byteBits b).drop o.val = b.getLsbD (7 - o.val) :: (byteBits b).drop (o.val + 1) :=
  drop_eq_cons_of_getElem? (byteBits_getElem? b o.isLt)

/-- As many READ_BITs as slot0 has bits left give them all and shift. -/
theorem readBits_to_end (eof : Bool) {n : Nat} {r : Reader} (hv : r.v0 = true) (hn : r.off.val + n = 8) :
    r.readBits eof n = some ((byteBits r.slot0).drop r.off.val, { r.shift with off := 0 }) := by
  induction n generalizing r with
  | zero => omega
  | succ n ih =>
    rw [byteBits_drop_eq_cons]
    by_cases ho : r.off = 7
    · obtain rfl : n = 0 := by omega
      rw [readBits_succ eof _ (readBit_of_off_eq eof hv ho), ho]
      rfl
    · have hoff : (r.off + 1).val = r.off.val + 1 := by omega
      rw [readBits_succ eof _ (readBit_of_off_ne eof hv ho), ih (by exact hv) (by simp only [hoff]; omega), hoff]
      rfl

/-- Fewer READ_BITs give the next bits of slot0 and move the offset. -/
theorem readBits_within (eof : Bool) {n : Nat} {r : Reader} {o : Fin 8} (hv : r.v0 = true)
    (ho : o.val = r.off.val + n) :
    r.readBits eof n = some (((byteBits r.slot0).drop r.off.val).take n, { r with off := o }) := by
  induction n generalizing r with
  | zero =>
    obtain rfl : o = r.off := Fin.ext ho
    rfl
  | succ n ih =>
    have hne : r.off ≠ 7 := by omega
    have hoff : (r.off + 1).val = r.off.val + 1 := by omega
    rw [byteBits_drop_eq_cons r.slot0 r.off, readBits_succ eof _ (readBit_of_off_ne eof hv hne),
      ih (by exact hv) (by simp only [hoff]; omega), hoff]
    rfl

/-- Eight READ_BITs take what is left of slot0 and then go on in what was slot1. -/
theorem readBits_eight_eq (eof : Bool) {r : Reader} (hv : r.v0 = true) :
    r.readBits eof 8 = (({ r.shift with off := 0 } : Reader).readBits eof r.off.val).map
      fun (cs, r') => ((byteBits r.slot0).drop r.off.val ++ cs, r') := by
  have hsplit := readBits_add eof (8 - r.off.val) r.off.val r
  rwa [readBits_to_end eof (n := 8 - r.off.val) hv (by omega), Option.bind_some,
    Nat.sub_add_cancel r.off.isLt.le] at hsplit

theorem readBits_eight (eof : Bool) {r : Reader} (hv : r.v0 = true) (hbits : r.v1 = true ∨ r.off = 0) :
    r.readBits eof 8 = some ((byteBits r.slot0).drop r.off.val ++ (byteBits r.slot1).take r.off.val, r.shift) := by
  rw [readBits_eight_eq eof hv]
  by_cases ho : r.off = 0
  · simp [ho, Reader.readBits, Reader.shift]
  · have hw : r.v1 = true := hbits.resolve_right ho
    rw [readBits_within eof (o := r.off) (by exact hw) (by simp)]
    rfl

theorem readBits_eight_of_last (eof : Bool) {r : Reader} (hv : r.v0 = true) (hw : r.v1 = false) (ho : r.off ≠ 0) :
    r.readBits eof 8 = none := by
  rw [readBits_eight_eq eof hv, readBits_of_empty eof (by exact hw) (by omega), Option.map_none]

/-- While its bits are there, READ_BYTE reads them as eight READ_BITs do (R128). -/
theorem readByte_eq_readBits (eof : Bool) {r : Reader} (hv : r.v0 = true) (hbits : r.v1 = true ∨ r.off = 0) :
    ∃ v, r.readBits eof 8 = some (byteBits v, r.shift) ∧ r.readByte eof = .done (some v) r.shift := by
  rw [readBits_eight eof hv hbits]
  by_cases ho : r.off = 0
  · exact ⟨r.slot0, by simp [ho], readByte_of_off_eq eof hv ho⟩
  · refine ⟨_, ?_, readByte_of_both eof hv ho (hbits.resolve_right ho)⟩
    rw [byteBits_shiftLeft_or_shiftRight _ _ r.off.isLt.le]

/-- Settles O15: both read what is left of slot0 and the front of slot1, and without slot1 only READ_BYTE zero-fills. -/
theorem byteReadIsEightBitReads : Obligations.ByteReadIsEightBitReads := by
  intro r eof hv
  refine ⟨fun hbits => ?_, fun hw ho => ⟨readBits_eight_of_last eof hv hw ho, ?_⟩⟩
  · obtain ⟨v, hread, hbyte⟩ := readByte_eq_readBits eof hv hbits
    exact ⟨byteBits v, r.shift, hread, by rwa [byte_ofBits_byteBits]⟩
  · rw [readByte_of_last true hv ho hw, if_pos rfl]

/-! ## ADD_BYTE (R142) -/

/-- Eight bits more complete exactly one byte. -/
theorem addBits_byteBits {w : Writer} (hok : w.Ok) (v : Byte) :
    ∃ w' e, w.addBits (byteBits v) = (w', [e]) ∧ w'.n = w.n ∧ w'.Ok ∧ w.pend ++ byteBits v = byteBits e ++ w'.pend := by
  obtain ⟨hok', hbits⟩ := addBits_bits hok (byteBits v)
  generalize w.addBits (byteBits v) = r at hok' hbits ⊢
  obtain ⟨w', es⟩ := r
  have hlen : 8 * es.length + w'.n.val = w.n.val + 8 := by
    simpa using congrArg List.length hbits
  obtain ⟨e, rfl⟩ : ∃ e, es = [e] := List.length_eq_one_iff.mp (by omega)
  refine ⟨w', e, rfl, ?_, hok', by simpa using hbits.symm⟩
  rw [List.length_singleton] at hlen
  omega

theorem exec_addByte (v : Byte) (s : State) : exec (.addByte v) s = .next (s.writeOp (s.enc.bw.addByte v)) := rfl

/-- Settles O18: the bits written stand in the completed byte and the pending bits, so their number is 8 more. -/
theorem addByteCompletesOneByte : Obligations.AddByteCompletesOneByte := by
  intro s v hout hok
  obtain ⟨w, e, hadd, hw⟩ := addBits_byteBits hok v
  refine ⟨w, e, ?_, hw⟩
  rw [exec_addByte, writeOp_of_empty _ hout, Writer.addByte, hadd]
  rfl

/-! ## Operations that wait (log 10) -/

theorem writeOp_of_full {s : State} (r : Writer × Option Byte) (hout : s.enc.out.valid = true) : s.writeOp r = s :=
  if_pos hout

theorem exec_laEnq (v : Byte) (s : State) : exec (.laEnq v) s = execLaEnq v s := rfl

/-- Settles O33: a full register and a full queue are the conditions under which the operations hold. -/
theorem operationsWait : Obligations.OperationsWait := by
  intro s
  refine ⟨fun hout => ⟨?_, fun b => ?_, fun v => ?_⟩, fun hfull v => ?_⟩
  · rw [exec_flushFinal, writeOp_of_full _ hout]
  · rw [exec_addBit, writeOp_of_full _ hout]
  · rw [exec_addByte, writeOp_of_full _ hout]
  · rw [exec_laEnq, execLaEnq, if_neg (Nat.not_lt.mpr hfull)]

/-! ## Window and queue (42_window_lookahead R162, R168, R170) -/

/-- Settles O24: where the queue has room the operation is one `enq`, a write to one slot. -/
theorem laEnqResult : Obligations.LaEnqResult := by
  intro s v hok hroom
  obtain ⟨hwf, -⟩ := id hok
  refine ⟨s.enc.la.enq s.enc.params.lsize v, ?_, rfl, rfl, queue_enq_content hok hroom v,
    fun a ha => memory_read_write_other _ _ _ _ ha hwf⟩
  rw [exec_laEnq, execLaEnq, if_pos hroom]

theorem exec_winRead (u : UnitId) (d : Dist) (s : State) : exec (.winRead u d) s = execWinRead u d s := rfl

/-- Settles O22: the window answers a byte exactly below its count, and else the unit faults. -/
theorem winReadResult : Obligations.WinReadResult := by
  intro s u d hok
  refine ⟨fun hd => ?_, fun hd => ?_⟩
  · obtain ⟨v, hread⟩ : ∃ v, (s.window u).read (s.params u).wsize d.toNat = some v := ⟨_, if_neg (Nat.not_le.mpr hd)⟩
    refine ⟨v, (window_read_hist hok hd).symm.trans hread, ?_⟩
    rw [exec_winRead, execWinRead, hread]
  · rw [exec_winRead, execWinRead, window_read_none.mpr hd]
    cases u <;> rfl

theorem exec_laPeek (i : Nat) (s : State) : exec (.laPeek i) s = execLaPeek i s := rfl

/-- Settles O26: a position below the count is read, and no other exists. -/
theorem laPeekResult : Obligations.LaPeekResult := by
  intro s i
  refine ⟨fun hi => ⟨_, content_getElem? _ _ hi, ?_⟩, fun hi => ?_⟩
  · rw [exec_laPeek, execLaPeek, if_pos hi]
  · rw [exec_laPeek, execLaPeek, if_neg (Nat.not_lt.mpr hi)]

end Sys2Proof.Machine
end

section
/-! PROOFS. Tokens executed as instructions where they do not copy, DEC_LEN, the rest of the host's actions, the status
outputs, and the instruction a turn brings (44_decoder R234, R236-R238; 45_host_interface R270-R276; 00_scope R7). -/

namespace Sys2Proof.Machine

/-! ## Back-references inside and outside a configuration (R95, R96, R98) -/

theorem indexBits_eq_eight_iff (p : Params) : p.indexBits = 8 ↔ p.W ≤ 7 := by
  rw [indexBits_eq]
  split <;> omega

theorem exec_ref8 (d : BitVec 8) (n : Nat) (s : State) : exec (.ref8 d n) s = execRef8 d n s := rfl

theorem exec_ref16 (d : Dist) (n : Nat) (s : State) : exec (.ref16 d n) s = execRef16 d n s := rfl

section
variable {s : State} {n : Nat}

theorem exec_ref8_of_config (d : BitVec 8) (hW : s.dec.params.W ≤ 7) (hn : 1 ≤ n ∧ n ≤ s.dec.params.lsize) :
    exec (.ref8 d n) s = .next (if s.dec.ph = .tagBit then s.tokenRef false (d.zeroExtend 16) n else s) := by
  rw [exec_ref8, execRef8, if_pos ⟨indexBits_of_le hW, lengthOk_iff.mpr hn⟩]
  rfl

theorem exec_ref16_of_config (d : Dist) (hW : 8 ≤ s.dec.params.W) (hn : 1 ≤ n ∧ n ≤ s.dec.params.lsize) :
    exec (.ref16 d n) s = .next (if s.dec.ph = .tagBit then s.tokenRef true d n else s) := by
  rw [exec_ref16, execRef16, if_pos ⟨indexBits_of_ge hW, lengthOk_iff.mpr hn⟩]

end

/-- Settles O11: the index width or the length is not the configuration's. -/
theorem tokenOutsideConfigurationRefused : Obligations.TokenOutsideConfigurationRefused := by
  intro s n
  refine ⟨fun d hout => ?_, fun d hout => ?_⟩
  · rw [exec_ref8, execRef8, if_neg]
    rw [indexBits_eq_eight_iff, lengthOk_iff]
    omega
  · rw [exec_ref16, execRef16, if_neg]
    rw [indexBits_eq_sixteen_iff, lengthOk_iff]
    omega

/-- Settles O40: a token of the configuration asks for the phase first. -/
theorem tokensHoldOutsideTagBit : Obligations.TokensHoldOutsideTagBit := by
  intro s hph
  refine ⟨fun b => ?_, fun n hn hnL => ⟨fun hW d => ?_, fun hW d => ?_⟩⟩
  · rw [exec_lit, if_neg hph]
  · rw [exec_ref8_of_config d hW ⟨hn, hnL⟩, if_neg hph]
  · rw [exec_ref16_of_config d hW ⟨hn, hnL⟩, if_neg hph]

/-! ## The distance check of a whole back-reference (R237, R240) -/

theorem complete_of_ge {d : DecUnit} (h : d.win.count ≤ d.dist.toNat) : d.complete = .raised .distRange d :=
  if_pos h

theorem complete_of_lt {d : DecUnit} (h : d.dist.toNat < d.win.count) :
    d.complete = .done () { d with rem := d.lenv + 1, ph := .refEmit } :=
  if_neg (Nat.not_le.mpr h)

theorem tokenCopy_of_ne (n : Nat) {s : State} (hph : s.dec.ph ≠ .refEmit) : State.tokenCopy n s = s := by
  cases n with
  | zero => rfl
  | succ n => rw [State.tokenCopy, if_neg hph]

theorem tokenRef_of_ge {s : State} (k : Bool) {dist : Dist} (n : Nat) (h : s.dec.win.count ≤ dist.toNat) :
    s.tokenRef k dist n = { s with dec := (s.dec.loadRef k dist n).raise .distRange } := by
  rw [State.tokenRef, complete_of_ge (by exact h), endDec_raised, tokenCopy_of_ne _ (by simp)]

/-- Settles O10: the check raises in the state with the token's fields loaded, and nothing is copied. -/
theorem backReferenceOutOfRangeFaults : Obligations.BackReferenceOutOfRangeFaults := by
  intro s n hph hn hnL
  refine ⟨fun d hW hd => ?_, fun d hW hd => ?_⟩
  · have hzero : s.dec.win.count ≤ (d.zeroExtend 16).toNat := by
      rwa [BitVec.toNat_setWidth, Nat.mod_eq_of_lt (by omega)]
    rw [exec_ref8_of_config d hW ⟨hn, hnL⟩, if_pos hph, tokenRef_of_ge _ _ hzero]
    rfl
  · rw [exec_ref16_of_config d hW ⟨hn, hnL⟩, if_pos hph, tokenRef_of_ge _ _ hd]
    rfl

/-! ## Room for an output (R272, R339) -/

section
variable {s : State}

theorem makeRoom_of_empty (hout : s.dec.out.valid = false) : s.makeRoom = s :=
  if_neg (by simp [hout])

theorem makeRoom_of_take {rest : List HostAct} (hout : s.dec.out.valid = true)
    (hp : s.host.pending = .take .dec :: rest) :
    s.makeRoom = ({ s with host := { s.host with pending := rest } } : State).takeByte .dec := by
  rw [State.makeRoom, if_pos hout, hp]

theorem makeRoom_of_wait (hp : s.host.pending.head? ≠ some (.take .dec)) : s.makeRoom = s := by
  rcases makeRoom_cases s with ⟨-, h⟩ | ⟨-, rest, hrest, -⟩ | ⟨-, -, h⟩
  · exact h
  · exact absurd (by rw [hrest]; rfl) hp
  · exact h

theorem tokenLiteral_of_room (b : Byte) (hroom : s.makeRoom.dec.out.valid = false) :
    s.tokenLiteral b = { s.makeRoom with dec := s.makeRoom.dec.produce b } :=
  if_neg (by simp [hroom])

theorem tokenLiteral_of_full (b : Byte) (hfull : s.makeRoom.dec.out.valid = true) : s.tokenLiteral b = s :=
  if_pos hfull

end

/-- Settles O7: each clause is one outcome of making room. -/
theorem literalTokenPushesAndOutputs : Obligations.LiteralTokenPushesAndOutputs := by
  intro s b hph
  rw [exec_lit, if_pos hph]
  refine ⟨fun hout => ?_, fun rest hout hp => ?_, fun hout hp => ?_⟩
  · have hroom := makeRoom_of_empty hout
    rw [tokenLiteral_of_room b (by rwa [hroom]), hroom]
    rfl
  · have hroom := makeRoom_of_take hout hp
    rw [tokenLiteral_of_room b (by rw [hroom]; rfl), hroom]
    rfl
  · rw [tokenLiteral_of_full b (by rwa [makeRoom_of_wait hp])]

/-! ## DEC_LEN (R234) -/

theorem shiftLeft_one_or_bit (v : Nat) (b : Bool) : (v <<< 1) ||| b.toNat = 2 * v + b.toNat := by
  rw [← Nat.shiftLeft_add_eq_or_of_lt (by cases b <;> decide), Nat.shiftLeft_eq]
  omega

/-- DEC_LEN's body once its bit is read. -/
theorem length_of_bit {d : DecUnit} {b : Bool} {rd : Reader} (hread : d.rd.readBit d.eof = .done (some b) rd) :
    d.length =
      let d' := { d with rd := rd, lenv := 2 * d.lenv + b.toNat, i := d.i + 1 }
      if d.i + 1 = d.params.L then d'.complete else .done () d' := by
  rw [DecUnit.length, hread, ← shiftLeft_one_or_bit]
  rfl

/-- Settles O37: the bit read extends the field, and at the field's end the distance is checked. -/
theorem lengthStepChecksDistance : Obligations.LengthStepChecksDistance := by
  intro s
  refine ⟨fun hhold => ?_, exec_decLen_of_none, fun b rd hph hread => ?_⟩
  · rw [exec_decLen, DecUnit.length, endDec_reading_of_hold hhold]
  · rw [exec_decLen, if_pos hph, length_of_bit hread]
    refine ⟨fun hi => ?_, fun hi hdist => ?_, fun hi hdist => ?_⟩
    · rw [if_neg hi, endDec_done]
    · rw [if_pos hi, complete_of_lt (by exact hdist), endDec_done]
    · rw [if_pos hi, complete_of_ge (by exact hdist), endDec_raised]
      rfl

/-! ## PUT to the decoder unit and EOF (R275, R276) -/

/-- Settles O42: the action is enabled exactly while `in_ready` stands, and then it fills the first empty slot. -/
theorem putToDecoderFillsSlots : Obligations.PutToDecoderFillsSlots := by
  intro s b
  rw [exec_putDec]
  refine ⟨fun hwait => ?_, fun heof hv₁ hdone hfault => ?_⟩
  · rw [if_neg]
    rw [dec_inReady_iff]
    rintro ⟨heof, hv₁, hdone, hfault⟩
    rcases hwait with h | h | h | h
    · simp [h] at heof
    · simp [h] at hv₁
    · exact hdone h
    · exact hfault h
  · rw [if_pos ((dec_inReady_iff _).mpr ⟨heof, hv₁, hdone, hfault⟩), DecUnit.put, Reader.put]
    exact ⟨fun hv₀ => by rw [if_pos hv₀], fun hv₀ => by rw [if_neg (by simp [hv₀])]⟩

/-- Settles O43: the bit is the only thing EOF looks at and the only thing it writes. -/
theorem eofSetsBit : Obligations.EofSetsBit := by
  intro s
  refine ⟨fun h => ?_, fun h => ?_, fun u h => ?_⟩
  · rw [exec_eof, eofOf_enc, h]
    rfl
  · rw [exec_eof, eofOf_dec, h]
    rfl
  · rw [exec_eof, if_pos h]

/-! ## The status outputs (R27, R270, R271, R302) -/

theorem enc_isDone_iff (e : EncUnit) : e.isDone = true ↔ e.ph = .done ∧ e.out.valid = false := by
  simp [EncUnit.isDone]

theorem dec_isDone_iff (d : DecUnit) : d.isDone = true ↔ d.ph = .done ∧ d.out.valid = false := by
  simp [DecUnit.isDone]

/-- Settles O45: each port is one condition on the unit. -/
theorem statusOutputs : Obligations.StatusOutputs := fun s =>
  ⟨enc_inReady_iff s.enc, dec_inReady_iff s.dec, enc_isDone_iff s.enc, dec_isDone_iff s.dec, beq_iff_eq, beq_iff_eq,
    rfl, rfl, rfl, rfl, rfl, rfl, rfl, rfl, rfl⟩

/-! ## The instruction a turn brings (R7, R24) -/

section
variable {s : State}

theorem step_of_fetch {s' : State} {i : Instr} (h : s.fetch = some (i, s')) : step s = exec i s' := by
  rw [step, h]

theorem step_of_fetch_none (h : s.fetch = none) : step s = .next s.spendTurn := by
  rw [step, h]

theorem step_of_encCore {i : Instr} (hturn : s.turn = .encCore) (hsel : s.enc.selected = some i) :
    step s = exec i s.spendTurn :=
  step_of_fetch (by rw [State.fetch, hturn, hsel, Option.map_some])

theorem fetch_of_host (hturn : s.turn = .host) : s.fetch = s.spendTurn.fetchHost := by
  rw [State.fetch, hturn]

theorem fetch_of_token (hturn : s.turn = .token) (hph : s.dec.ph = .tagBit) : s.fetch = s.spendTurn.fetchToken := by
  rw [State.fetch, hturn]
  exact if_pos hph

theorem fetchHost_of_pending {a : HostAct} {rest : List HostAct} (hp : s.host.pending = a :: rest) :
    s.fetchHost = if s.allows a then some (a.toInstr, { s with host := { s.host with pending := rest } }) else none := by
  rw [State.fetchHost, hp]

theorem step_of_host_allowed {a : HostAct} {rest : List HostAct} (hturn : s.turn = .host)
    (hp : s.host.pending = a :: rest) (ha : s.spendTurn.allows a = true) :
    step s = exec a.toInstr { s.spendTurn with host := { s.host with pending := rest } } := by
  rw [← spendTurn_host s] at hp
  rw [step_of_fetch ((fetch_of_host hturn).trans ((fetchHost_of_pending hp).trans (if_pos ha))), spendTurn_host]

theorem step_of_host_waits {a : HostAct} {rest : List HostAct} (hturn : s.turn = .host)
    (hp : s.host.pending = a :: rest) (ha : s.spendTurn.allows a = false) : step s = .next s.spendTurn := by
  rw [← spendTurn_host s] at hp
  exact step_of_fetch_none ((fetch_of_host hturn).trans ((fetchHost_of_pending hp).trans (if_neg (by simp [ha]))))

theorem fetchToken_of_decodeBits {bits rest : List Bool} {d : DecUnit} {pending : List HostAct} {i : Instr}
    (hbits : s.dec.fetchTokenBits s.host.pending = some (bits, d, pending))
    (hdecode : decodeBits s.dec.params bits = .ok (i, rest)) :
    let s' : State := { s with dec := d, host := { s.host with pending := pending } }
    s.fetchToken = if s'.tokenHasRoom i then some (i, s') else none := by
  rw [State.fetchToken, hbits]
  simp only [hdecode]

theorem step_of_token {bits rest : List Bool} {d : DecUnit} {pending : List HostAct} {i : Instr}
    (hturn : s.turn = .token) (hph : s.dec.ph = .tagBit)
    (hbits : s.dec.fetchTokenBits s.host.pending = some (bits, d, pending))
    (hdecode : decodeBits s.dec.params bits = .ok (i, rest)) :
    let s' : State := { s.spendTurn with dec := d, host := { s.host with pending := pending } }
    step s = if s'.tokenHasRoom i = true then exec i s' else .next s.spendTurn := by
  intro s'
  rw [← spendTurn_dec s, ← spendTurn_host s] at hbits
  rw [← spendTurn_dec s] at hdecode
  have hfetch := (fetch_of_token hturn hph).trans (fetchToken_of_decodeBits hbits hdecode)
  rw [spendTurn_host] at hfetch
  split
  · next hroom => exact step_of_fetch (hfetch.trans (if_pos hroom))
  · next hroom => exact step_of_fetch_none (hfetch.trans (if_neg hroom))

theorem turn_ne_token_of_free (h : s.sched = []) : s.turn ≠ .token := by
  rw [State.turn, h]
  exact agent_turn_ne_token _

end

/-- Settles O49: each clause is the fetch of one kind of turn. -/
theorem stepRunsSelectedInstruction : Obligations.StepRunsSelectedInstruction := by
  intro s i
  refine ⟨?_, ?_, step_of_encCore, step_of_decCore, fun a rest => step_of_host_allowed,
    fun a rest => step_of_host_waits, fun bits d pending rest => step_of_token, turn_ne_token_of_free,
    step_of_fetch_none⟩
  · cases hph : s.enc.ph <;> simp only [EncUnit.selected, hph]
    split <;> rfl
  · cases hph : s.dec.ph <;> simp only [DecUnit.selected, hph]

end Sys2Proof.Machine
end

section
/-! PROOFS. A whole back-reference: the bytes copied are those of the reference's copy, as many as there is room for
(44_decoder R237-R239, 70_reset_and_hazards R339). -/

namespace Sys2Proof.Machine

/-! ## The bytes of a copy (R239) -/

@[simp] theorem refCopy_length (p : Params) (d n : Nat) (h : List Byte) : (refCopy p d n h).2.length = n := by
  induction n generalizing h with
  | zero => rfl
  | succ n ih => simp [refCopy, ih]

/-- Every byte copied stands `d + 1` places before its own place in the window followed by the copy. -/
theorem refCopy_getElem? {p : Params} {d n : Nat} {h : List Byte} (hd : d < h.length) (hdw : d < p.wsize) {k : Nat}
    (hk : k < n) : (refCopy p d n h).2[k]? = (h ++ (refCopy p d n h).2)[h.length - 1 - d + k]? := by
  induction n generalizing h k with
  | zero => omega
  | succ n ih =>
    obtain ⟨x, hx⟩ : ∃ x, h[h.length - 1 - d]? = some x := ⟨_, List.getElem?_eq_getElem (by omega)⟩
    have hcopy : (refCopy p d (n + 1) h).2 = x :: (refCopy p d n (lastN p.wsize (h ++ [x]))).2 := by
      simp [refCopy, hx]
    rw [hcopy]
    cases k with
    | zero => rw [Nat.add_zero, List.getElem?_append_left (by omega), hx, List.getElem?_cons_zero]
    | succ k =>
      have hnewest : d < min (h ++ [x]).length p.wsize := by
        rw [List.length_append]
        omega
      have hfrom : (h ++ [x]).length - 1 - d = h.length - 1 - d + 1 := by
        rw [List.length_append, List.length_singleton]
        omega
      have hmoved := lastN_drop_from_newest hnewest
      rw [← lastN_length] at hnewest
      rw [List.getElem?_cons_succ, ih hnewest (Nat.lt_of_succ_lt_succ hk), ← List.getElem?_drop,
        List.drop_append_of_le_length (by omega), hmoved, hfrom,
        ← List.drop_append_of_le_length (by rw [List.length_append, List.length_singleton]; omega),
        List.getElem?_drop, List.append_assoc, List.singleton_append]
      congr 1
      omega

/-! ## The room for a copy (R339) -/

/-- How many bytes there is room for: one where the register is empty, and one for each TAKE that stands next. -/
def State.copyRoom (s : State) : Nat := s.takesReady + if s.dec.out.valid = true then 0 else 1

/-- A copy under way, its distance legal (R39). -/
structure State.CopyReady (s : State) : Prop where
  win : s.dec.win.Ok s.dec.params.wsize
  ph : s.dec.ph = .refEmit
  dist : s.dec.dist.toNat < s.dec.win.count
  rem : 1 ≤ s.dec.rem

/-- `t` has come from the copying state `s` by `m` bytes copied, each TAKE used taken off the host's list. -/
structure State.Copied (s t : State) (m : Nat) : Prop where
  win : t.dec.win.Ok s.dec.params.wsize
  hist : t.dec.win.hist s.dec.params.wsize
    = (refCopy s.dec.params s.dec.dist.toNat m (s.dec.win.hist s.dec.params.wsize)).1
  output : t.output .dec
    = s.output .dec ++ (refCopy s.dec.params s.dec.dist.toNat m (s.dec.win.hist s.dec.params.wsize)).2
  full : t.dec.out.valid = true
  dec : t.dec = { s.dec with
    win := t.dec.win, out := t.dec.out, rem := s.dec.rem - m, ph := if m = s.dec.rem then .tagBit else .refEmit }
  frame : t = { s with dec := t.dec, host := { s.host with
    pending := s.host.pending.drop (m - if s.dec.out.valid = true then 0 else 1), decTaken := t.host.decTaken } }

section
variable {s : State}

theorem takesReady_of_take {rest : List HostAct} (hp : s.host.pending = .take .dec :: rest) :
    s.takesReady = ({ s with host := { s.host with pending := rest } } : State).takesReady + 1 := by
  simp [State.takesReady, hp]

theorem takesReady_of_wait (hp : s.host.pending.head? ≠ some (.take .dec)) : s.takesReady = 0 := by
  unfold State.takesReady
  cases hpending : s.host.pending with
  | nil => rfl
  | cons a rest =>
    have ha : a ≠ .take .dec := by simpa [hpending] using hp
    simp [ha]

theorem copyRoom_eq_zero (h : s.copyRoom = 0) : s.dec.out.valid = true ∧ s.host.pending.head? ≠ some (.take .dec) := by
  unfold State.copyRoom at h
  refine ⟨by_contra fun hout => by simp [hout] at h, fun hp => ?_⟩
  obtain ⟨rest, hrest⟩ := List.head?_eq_some_iff.mp hp
  simp [takesReady_of_take hrest] at h

theorem outReg_taken_of_empty {o : OutReg} (h : o.valid = false) : o.taken = o := by
  cases o
  cases h
  rfl

theorem outReg_held_of_empty {o : OutReg} (h : o.valid = false) : o.held = [] :=
  if_neg (by simp [h])

theorem outReg_held_of_full {o : OutReg} (h : o.valid = true) : o.held = [o.data] :=
  if_pos h

/-- Where there is room, making it leaves an empty register, and all that has been put out is the host's. -/
theorem makeRoom_of_room (h : s.copyRoom ≠ 0) :
    s.makeRoom = { s with
      dec := { s.dec with out := s.dec.out.taken }
      host := { s.host with
        pending := s.host.pending.drop (1 - if s.dec.out.valid = true then 0 else 1), decTaken := s.output .dec } }
      ∧ s.copyRoom = s.makeRoom.takesReady + 1 := by
  rcases makeRoom_cases s with ⟨hout, hroom⟩ | ⟨hout, rest, hp, hroom⟩ | ⟨hout, hp, -⟩
  · rw [hroom, outReg_taken_of_empty hout]
    simp [State.copyRoom, State.output, hout, outReg_held_of_empty hout]
  · rw [hroom]
    refine ⟨?_, by simp [State.copyRoom, hout, takesReady_of_take hp]; rfl⟩
    simp [State.takeByte, hout, hp, State.output, OutReg.held]
  · exact absurd (by rw [State.copyRoom, takesReady_of_wait hp, if_pos hout]) h

theorem copied_zero (hready : s.CopyReady) (hroom : s.copyRoom = 0) : s.Copied s 0 := by
  obtain ⟨hw, hph, -, hrem⟩ := hready
  obtain ⟨hfull, -⟩ := copyRoom_eq_zero hroom
  refine ⟨hw, rfl, (List.append_nil _).symm, hfull, ?_, by rw [Nat.zero_sub, List.drop_zero]⟩
  rw [if_neg (by omega), ← hph, Nat.sub_zero]

/-- A byte of the copy, the state it leaves, and the byte that the reference copies first. -/
theorem copy_of_ready (hready : s.CopyReady) :
    ∃ v, refCopy s.dec.params s.dec.dist.toNat 1 (s.dec.win.hist s.dec.params.wsize)
        = (lastN s.dec.params.wsize (s.dec.win.hist s.dec.params.wsize ++ [v]), [v])
      ∧ ∀ o, ({ s.dec with out := o } : DecUnit).copy = .done () { s.dec.produce v with
        rem := s.dec.rem - 1, ph := if s.dec.rem - 1 = 0 then .tagBit else .refEmit } := by
  obtain ⟨hw, hph, hdist, -⟩ := hready
  obtain ⟨v, hread⟩ : ∃ v, s.dec.win.read s.dec.params.wsize s.dec.dist.toNat = some v :=
    ⟨_, if_neg (Nat.not_le.mpr hdist)⟩
  refine ⟨v, ?_, fun o => ?_⟩
  · simp only [refCopy, List.getD_eq_getElem?_getD, hist_length]
    rw [← window_read_hist hw hdist, hread, Option.getD_some]
  · rw [copy_of_read (by exact hread), hph]
    rfl

/-- One byte of the copy, in the state where room has been made. -/
theorem copied_one (hready : s.CopyReady) (hroom : s.copyRoom ≠ 0) :
    s.Copied (s.makeRoom.endDec s.makeRoom.dec.copy) 1
      ∧ s.copyRoom = (s.makeRoom.endDec s.makeRoom.dec.copy).copyRoom + 1 := by
  obtain ⟨hmade, hcount⟩ := makeRoom_of_room hroom
  obtain ⟨v, hfirst, hcopy⟩ := copy_of_ready hready
  obtain ⟨hw, -, -, hrem⟩ := hready
  have hone : s.dec.rem - 1 = 0 ↔ 1 = s.dec.rem := by omega
  rw [hcount, hmade, hcopy, endDec_done]
  simp only [hone]
  exact ⟨⟨window_push_ok hw v, by rw [hfirst]; exact window_push_hist hw v, by rw [hfirst]; rfl, rfl, rfl, rfl⟩, rfl⟩

/-- The copy goes on after its first byte, unless that was its last. -/
theorem copyReady_of_copied_one {t : State} (hready : s.CopyReady) (h : s.Copied t 1) (hrem : s.dec.rem ≠ 1) :
    t.CopyReady := by
  obtain ⟨hw, hph, hdist, hrem₁⟩ := hready
  have hcount : s.dec.win.count ≤ t.dec.win.count := by
    have hlen := congrArg List.length h.hist
    simp only [refCopy, lastN_length, hist_length, List.length_append, List.length_singleton] at hlen
    obtain ⟨-, -, -, hle, -⟩ := hw
    omega
  have hdec := h.dec
  rw [if_neg (Ne.symm hrem)] at hdec
  refine ⟨?_, ?_, ?_, ?_⟩
  · rw [hdec]; exact h.win
  · rw [hdec]
  · rw [hdec]; exact hdist.trans_le hcount
  · rw [hdec]; show 1 ≤ s.dec.rem - 1; omega

/-- A copy of one byte and a copy of `m` more. -/
theorem copied_succ {t u : State} {m : Nat} (h₁ : s.Copied t 1) (hm : t.Copied u m) (hrem : m + 1 ≤ s.dec.rem) :
    s.Copied u (m + 1) := by
  have hparams : t.dec.params = s.dec.params := by rw [h₁.dec]
  have hdist : t.dec.dist = s.dec.dist := by rw [h₁.dec]
  obtain ⟨hw, hhist, houtput, hfull, hdec, hframe⟩ := hm
  rw [hparams] at hw hhist houtput
  rw [hdist, h₁.hist] at hhist houtput
  refine ⟨hw, hhist, ?_, hfull, ?_, ?_⟩
  · rw [houtput, h₁.output, List.append_assoc]
    rfl
  · rw [h₁.dec] at hdec
    have hrest : s.dec.rem - 1 - m = s.dec.rem - (m + 1) := by omega
    have hlast : m = s.dec.rem - 1 ↔ m + 1 = s.dec.rem := by omega
    simpa only [hrest, hlast] using hdec
  · have hdrop : 1 - (if s.dec.out.valid = true then 0 else 1) + m
        = m + 1 - if s.dec.out.valid = true then 0 else 1 := by
      split <;> omega
    rw [if_pos h₁.full, h₁.frame] at hframe
    simpa only [List.drop_drop, Nat.sub_zero, hdrop] using hframe

/-- The whole copy, as far as there is room (R339). -/
theorem tokenCopy_copied {n : Nat} (hready : s.CopyReady) (hrem : s.dec.rem = n) :
    s.Copied (State.tokenCopy n s) (min n s.copyRoom) := by
  induction n generalizing s with
  | zero => exact absurd hready.rem (by omega)
  | succ n ih =>
    rw [State.tokenCopy, if_pos hready.ph]
    by_cases hroom : s.copyRoom = 0
    · obtain ⟨hfull, hp⟩ := copyRoom_eq_zero hroom
      rw [hroom, Nat.min_zero, makeRoom_of_wait hp, if_pos hfull]
      exact copied_zero hready hroom
    · have hempty : ¬ s.makeRoom.dec.out.valid = true := by simp [(makeRoom_of_room hroom).1]
      obtain ⟨hone, hcount⟩ := copied_one hready hroom
      simp only [if_neg hempty]
      generalize s.makeRoom.endDec s.makeRoom.dec.copy = t at hone hcount ⊢
      rw [hcount, Nat.add_min_add_right]
      cases n with
      | zero => rwa [Nat.zero_min]
      | succ n =>
        have hrem₁ : t.dec.rem = n + 1 := by rw [hone.dec]; show s.dec.rem - 1 = _; omega
        exact copied_succ hone (ih (copyReady_of_copied_one hready hone (by omega)) hrem₁) (by omega)

end

/-! ## The token as an instruction (R237, R238) -/

theorem tokenRef_of_lt {s : State} (k : Bool) {dist : Dist} {n : Nat} (hn : 1 ≤ n) (h : dist.toNat < s.dec.win.count) :
    s.tokenRef k dist n
      = State.tokenCopy n { s with dec := { s.dec.loadRef k dist n with rem := n, ph := .refEmit } } := by
  rw [State.tokenRef, complete_of_lt (by exact h), endDec_done, dec_loadRef_lenv, Nat.sub_add_cancel hn]
  rfl

/-- What a whole back-reference with a legal distance does, whatever the width of its index field. -/
theorem copiesFrom_of_tokenRef {s : State} {i : Instr} {k : Bool} {dist : Dist} {n : Nat}
    (hexec : exec i s = .next (s.tokenRef k dist n)) (hw : s.dec.win.Ok s.dec.params.wsize) (hn : 1 ≤ n)
    (hdist : dist.toNat < s.dec.win.count) : CopiesFrom s i k dist n := by
  obtain ⟨hwin, hhist, houtput, hfull, hdec, hframe⟩ := tokenCopy_copied (n := n)
    (s := { s with dec := { s.dec.loadRef k dist n with rem := n, ph := .refEmit } }) ⟨hw, rfl, hdist, hn⟩ rfl
  rw [tokenRef_of_lt k hn hdist] at hexec
  obtain ⟨-, -, -, hcount, -⟩ := id hw
  rw [← hist_length s.dec.params.wsize] at hdist
  refine ⟨_, _, hexec, refCopy_length s.dec.params dist.toNat _ (s.dec.win.hist s.dec.params.wsize), ?_, houtput, hfull,
    hhist.trans (refCopy_window _ _ _ (window_hist_length_le hw)), hdec, hframe⟩
  exact fun j hj => refCopy_getElem? hdist (hdist.trans_le (window_hist_length_le hw)) hj

/-- Settles O8: the distance field's value is the distance. -/
theorem ref8CopiesFromWindow : Obligations.Ref8CopiesFromWindow := by
  intro s d n hw hph hW hn hnL hd
  have hdist : (d.zeroExtend 16).toNat < s.dec.win.count := by
    rwa [BitVec.toNat_setWidth, Nat.mod_eq_of_lt (by omega)]
  exact copiesFrom_of_tokenRef (by rw [exec_ref8_of_config d hW ⟨hn, hnL⟩, if_pos hph]) hw hn hdist

/-- Settles O9: the same copy, with two bytes of distance read. -/
theorem ref16CopiesFromWindow : Obligations.Ref16CopiesFromWindow := by
  intro s d n hw hph hW hn hnL hd
  exact copiesFrom_of_tokenRef (by rw [exec_ref16_of_config d hW ⟨hn, hnL⟩, if_pos hph]) hw hn hd

end Sys2Proof.Machine
end

section
/-! PROOFS. What a turn of each agent does, as a function of its unit or of the host's list, and the moves of which a
token turn is made (00_scope R7; log 6). -/

namespace Sys2Proof.Machine

/-! ## A core's turn (R190, R230) -/

/-- The encoder unit after a step's body: unchanged where it held, in Fault where it raised. -/
def EncUnit.ended (e : EncUnit) : Res EncUnit Unit → EncUnit
  | .hold => e
  | .raised c e' => e'.raise c
  | .done _ e' => e'

/-- The decoder unit after a step's body. -/
def DecUnit.ended (d : DecUnit) : Res DecUnit Unit → DecUnit
  | .hold => d
  | .raised c d' => d'.raise c
  | .done _ d' => d'

@[simp] theorem enc_ended_hold (e : EncUnit) : e.ended .hold = e := rfl
@[simp] theorem enc_ended_raised (e e' : EncUnit) (c : Cause) : e.ended (.raised c e') = e'.raise c := rfl
@[simp] theorem enc_ended_done (e e' : EncUnit) : e.ended (.done () e') = e' := rfl
@[simp] theorem dec_ended_hold (d : DecUnit) : d.ended .hold = d := rfl
@[simp] theorem dec_ended_raised (d d' : DecUnit) (c : Cause) : d.ended (.raised c d') = d'.raise c := rfl
@[simp] theorem dec_ended_done (d d' : DecUnit) : d.ended (.done () d') = d' := rfl

theorem endEnc_eq_ended (s : State) (r : Res EncUnit Unit) : s.endEnc r = { s with enc := s.enc.ended r } := by
  cases r <;> rfl

theorem endDec_eq_ended (s : State) (r : Res DecUnit Unit) : s.endDec r = { s with dec := s.dec.ended r } := by
  cases r <;> rfl

/-- The encoder unit after a turn of its core. -/
def EncUnit.advance (e : EncUnit) : EncUnit :=
  match e.ph with
  | .tokenStart =>
    if e.la.count = 0 then (if e.flushEnabled then e.flush else e)
    else e.ended (if e.decideEnabled then e.decide else .hold)
  | .tokenEmit => if e.emitEnabled then e.emitBit else e
  | .done => e
  | .fault => e

/-- The body of the micro-step that the decoder's phase selects. -/
def DecUnit.body (d : DecUnit) : Res DecUnit Unit :=
  match d.ph with
  | .tagBit => d.tag
  | .literalByte => if d.out.valid = false then d.literal else .hold
  | .refDistance => d.distance
  | .refLength => d.length
  | .refEmit => if d.out.valid = false then d.copy else .hold
  | .done => .hold
  | .fault => .hold

/-- The decoder unit after a turn of its core. -/
def DecUnit.advance (d : DecUnit) : DecUnit := d.ended d.body

theorem advance_of_tagBit {d : DecUnit} (hph : d.ph = .tagBit) : d.advance = d.ended d.tag := by
  simp only [DecUnit.advance, DecUnit.body, hph]

theorem advance_of_literalByte {d : DecUnit} (hph : d.ph = .literalByte) (hout : d.out.valid = false) :
    d.advance = d.ended d.literal := by
  simp only [DecUnit.advance, DecUnit.body, hph, hout, if_true]

theorem advance_of_refDistance {d : DecUnit} (hph : d.ph = .refDistance) : d.advance = d.ended d.distance := by
  simp only [DecUnit.advance, DecUnit.body, hph]

theorem advance_of_refLength {d : DecUnit} (hph : d.ph = .refLength) : d.advance = d.ended d.length := by
  simp only [DecUnit.advance, DecUnit.body, hph]

theorem advance_of_refEmit {d : DecUnit} (hph : d.ph = .refEmit) (hout : d.out.valid = false) :
    d.advance = d.ended d.copy := by
  simp only [DecUnit.advance, DecUnit.body, hph, hout, if_true]

/-- A micro-step that outputs holds while the register is full (R232, R235). -/
theorem advance_of_full {d : DecUnit} (hph : d.ph = .literalByte ∨ d.ph = .refEmit) (hout : d.out.valid = true) :
    d.advance = d := by
  rcases hph with hph | hph <;> simp [DecUnit.advance, DecUnit.body, hph, hout]

/-- The end phases have no micro-step. -/
theorem advance_of_ended {d : DecUnit} (hph : d.ph = .done ∨ d.ph = .fault) : d.advance = d := by
  rcases hph with hph | hph <;> simp only [DecUnit.advance, DecUnit.body, hph, dec_ended_hold]

theorem exec_encSelected {s : State} {i : Instr} (h : s.enc.selected = some i) :
    exec i s = .next { s with enc := s.enc.advance } := by
  unfold EncUnit.advance
  cases hph : s.enc.ph <;> simp only [EncUnit.selected, hph, Option.some.injEq, reduceCtorEq] at h
  case tokenStart =>
    subst h
    split
    · rw [exec_encFlush]
      split <;> rfl
    · rw [exec_encDecide, endEnc_eq_ended]
  case tokenEmit =>
    subst h
    rw [exec_encEmit]
    dsimp only
    split <;> rfl

theorem advance_of_enc_selected_none {e : EncUnit} (h : e.selected = none) : e.advance = e := by
  unfold EncUnit.advance
  cases hph : e.ph <;> simp [EncUnit.selected, hph] at h ⊢

theorem exec_decSelected {s : State} {i : Instr} (h : s.dec.selected = some i) :
    exec i s = .next { s with dec := s.dec.advance } := by
  unfold DecUnit.advance DecUnit.body
  cases hph : s.dec.ph <;> simp only [DecUnit.selected, hph, Option.some.injEq, reduceCtorEq] at h <;> subst h
  case tagBit => rw [exec_decTag, if_pos hph, endDec_eq_ended]
  case literalByte => rw [exec_decLit, endDec_eq_ended]; simp only [hph, true_and]
  case refDistance => rw [exec_decDist, if_pos hph, endDec_eq_ended]
  case refLength => rw [exec_decLen, if_pos hph, endDec_eq_ended]
  case refEmit => rw [exec_decCopy, endDec_eq_ended]; simp only [hph, true_and]

theorem advance_of_dec_selected_none {d : DecUnit} (h : d.selected = none) : d.advance = d := by
  unfold DecUnit.advance DecUnit.body
  cases hph : d.ph <;> simp [DecUnit.selected, hph] at h ⊢

/-- A turn of the encoder core: the unit has advanced, if only by holding. -/
theorem step_encCore {s : State} (hturn : s.turn = .encCore) :
    step s = .next { s.spendTurn with enc := s.enc.advance } := by
  cases hsel : s.enc.selected with
  | none =>
    rw [step_of_fetch_none (by rw [State.fetch, hturn, hsel, Option.map_none]), advance_of_enc_selected_none hsel,
      ← spendTurn_enc s]
  | some i =>
    rw [step_of_encCore hturn hsel, exec_encSelected (by rwa [spendTurn_enc]), spendTurn_enc]

/-- A turn of the decoder core. -/
theorem step_decCore {s : State} (hturn : s.turn = .decCore) :
    step s = .next { s.spendTurn with dec := s.dec.advance } := by
  cases hsel : s.dec.selected with
  | none =>
    rw [step_of_fetch_none (by rw [State.fetch, hturn, hsel, Option.map_none]), advance_of_dec_selected_none hsel,
      ← spendTurn_dec s]
  | some i =>
    rw [step_of_decCore hturn hsel, exec_decSelected (by rwa [spendTurn_dec]), spendTurn_dec]

/-! ## A host's turn (R273-R278) -/

/-- The effect of a host action that is enabled. -/
def State.act (s : State) : HostAct → State
  | .putEnc b => { s with enc := s.enc.put b }
  | .putDec b => { s with dec := s.dec.put b }
  | .eof u => s.setEof u
  | .take u => s.takeByte u
  | .reset u => s.resetUnit u

/-- The state with the first pending action taken off the host's list. -/
def State.pop (s : State) (rest : List HostAct) : State := { s with host := { s.host with pending := rest } }

theorem exec_toInstr {s : State} {a : HostAct} (h : s.allows a = true) : exec a.toInstr s = .next (s.act a) := by
  cases a with
  | putEnc b => exact (exec_putEnc b s).trans (by rw [if_pos (by exact h)]; rfl)
  | putDec b => exact (exec_putDec b s).trans (by rw [if_pos (by exact h)]; rfl)
  | eof u => exact (exec_eof u s).trans (by rw [if_neg (by simpa [State.allows] using h)]; rfl)
  | take u => exact (exec_take u s).trans (by rw [if_pos (by exact h)]; rfl)
  | reset u => rfl

/-- What is enabled does not depend on the host's side or on the turns. -/
theorem allows_congr {s s' : State} (henc : s'.enc = s.enc) (hdec : s'.dec = s.dec) (a : HostAct) :
    s'.allows a = s.allows a := by
  cases a with
  | putEnc b => simp only [State.allows, henc]
  | putDec b => simp only [State.allows, hdec]
  | eof u => cases u <;> simp only [State.allows, State.eofOf, henc, hdec]
  | take u => cases u <;> simp only [State.allows, State.outOf, henc, hdec]
  | reset u => rfl

theorem allows_pop (s : State) (rest : List HostAct) (a : HostAct) : (s.pop rest).allows a = s.allows a :=
  allows_congr rfl rfl a

theorem step_host_of_allowed {s : State} {a : HostAct} {rest : List HostAct} (hturn : s.turn = .host)
    (hp : s.host.pending = a :: rest) (ha : s.allows a = true) : step s = .next ((s.spendTurn.pop rest).act a) := by
  have hallowed : s.spendTurn.allows a = true := by rwa [allows_congr (spendTurn_enc s) (spendTurn_dec s)]
  have hrest : ({ s.spendTurn with host := { s.host with pending := rest } } : State) = s.spendTurn.pop rest := by
    rw [State.pop, spendTurn_host]
  rw [step_of_host_allowed hturn hp hallowed, hrest]
  exact exec_toInstr (by rwa [allows_pop])

/-- A host's turn passes, or takes the next action. -/
theorem step_host_cases {s : State} (hturn : s.turn = .host) :
    step s = .next s.spendTurn ∨ ∃ a rest, s.host.pending = a :: rest ∧ s.allows a = true
      ∧ step s = .next ((s.spendTurn.pop rest).act a) := by
  cases hp : s.host.pending with
  | nil =>
    refine .inl (step_of_fetch_none ?_)
    rw [fetch_of_host hturn, State.fetchHost, spendTurn_host, hp]
  | cons a rest =>
    cases ha : s.allows a with
    | false => exact .inl (step_of_host_waits hturn hp (by rwa [allows_congr (spendTurn_enc s) (spendTurn_dec s)]))
    | true => exact .inr ⟨a, rest, rfl, ha, step_host_of_allowed hturn hp ha⟩

/-! ## The moves of a token turn (log 6) -/

/-- A turn of the decoder core, or of the host with a PUT to the decoder unit or a TAKE from it. -/
inductive DecMove : State → State → Prop where
  | core (s : State) : DecMove s { s with dec := s.dec.advance }
  | put {s : State} {b : Byte} {rest : List HostAct} : s.host.pending = .putDec b :: rest → s.dec.inReady = true →
      DecMove s ((s.pop rest).act (.putDec b))
  | take {s : State} {rest : List HostAct} : s.host.pending = .take .dec :: rest → s.dec.out.valid = true →
      DecMove s ((s.pop rest).act (.take .dec))

/-- Moves one after the other. -/
abbrev DecRun : State → State → Prop := Relation.ReflTransGen DecMove

theorem decMove_of_advance {s : State} {d : DecUnit} (h : s.dec.advance = d) : DecMove s { s with dec := d } := by
  subst h
  exact .core s

/-- A move is a turn of an agent. -/
theorem decMove_agent {s t : State} (h : DecMove s t) :
    ∃ a : Agent, ∀ ts, step { s with sched := a.turn :: ts } = .next { t with sched := ts } := by
  cases h with
  | core => exact ⟨.decCore, fun ts => step_decCore (s := { s with sched := .decCore :: ts }) rfl⟩
  | put hp hready =>
    exact ⟨.host, fun ts => step_host_of_allowed (s := { s with sched := .host :: ts }) rfl hp hready⟩
  | take hp hout =>
    exact ⟨.host, fun ts => step_host_of_allowed (s := { s with sched := .host :: ts }) rfl hp hout⟩

theorem runSteps_succ {k : Nat} {s t : State} (h : step s = .next t) : runSteps (k + 1) s = runSteps k t := by
  rw [runSteps, h]

/-- A run of moves is a run of agents' turns, listed before any others. -/
theorem decRun_agents {s t : State} (h : DecRun s t) :
    ∃ agents : List Agent, ∀ ts,
      runSteps agents.length { s with sched := agents.map Agent.turn ++ ts } = .next { t with sched := ts } := by
  induction h using Relation.ReflTransGen.head_induction_on with
  | refl => exact ⟨[], fun ts => rfl⟩
  | head hmove _ ih =>
    obtain ⟨a, ha⟩ := decMove_agent hmove
    obtain ⟨agents, hrun⟩ := ih
    exact ⟨a :: agents, fun ts => (runSteps_succ (ha _)).trans (hrun ts)⟩

theorem decRun_sched {s t : State} (h : DecRun s t) : t.sched = s.sched := by
  induction h with
  | refl => rfl
  | tail _ hmove ih => cases hmove <;> exact ih

end Sys2Proof.Machine
end

section
/-! PROOFS. The bits of a token, fetched one by one with a byte put wherever the reader is empty, against the reads that
micro-steps make: bytes put ahead, then READ_BIT or READ_BYTE (40_bitreader R121-R128; log 6). -/

namespace Sys2Proof.Machine

/-! ## A token's bits as reads and puts -/

/-- `bs` are the bits read from `r` on, a byte of the host's list put wherever the reader is empty (R121). -/
inductive Reader.Streams (eof : Bool) : Reader → List HostAct → List Bool → Reader → List HostAct → Prop where
  | nil (r : Reader) (p : List HostAct) : Streams eof r p [] r p
  | bit {r r₁ r' : Reader} {p p' : List HostAct} {b : Bool} {bs : List Bool} :
      r.readBit eof = .done (some b) r₁ → Streams eof r₁ p bs r' p' → Streams eof r p (b :: bs) r' p'
  | putBit {r r₁ r' : Reader} {p p' : List HostAct} {v : Byte} {b : Bool} {bs : List Bool} :
      eof = false → r.v0 = false → r.v1 = false → (r.put v).readBit eof = .done (some b) r₁ →
      Streams eof r₁ p bs r' p' → Streams eof r (.putDec v :: p) (b :: bs) r' p'

theorem heldBit_eq_some {d d' : DecUnit} {b : Bool} (h : d.heldBit = some (b, d')) :
    d.rd.readBit d.eof = .done (some b) d'.rd ∧ d' = { d with rd := d'.rd } := by
  unfold DecUnit.heldBit at h
  split at h
  · cases h
    exact ⟨‹_›, rfl⟩
  all_goals cases h

/-- The next bit, and with it the bits after it. -/
theorem fetchBit_streams {d d₁ : DecUnit} {p p₁ : List HostAct} {b : Bool} (h : d.fetchBit p = some (b, d₁, p₁)) :
    d₁ = { d with rd := d₁.rd } ∧ ∀ bs r' p', Reader.Streams d.eof d₁.rd p₁ bs r' p' →
      Reader.Streams d.eof d.rd p (b :: bs) r' p' := by
  unfold DecUnit.fetchBit at h
  split at h
  · obtain ⟨⟨b', d'⟩, hheld, heq⟩ := Option.map_eq_some_iff.mp h
    cases heq
    obtain ⟨hread, hd⟩ := heldBit_eq_some hheld
    exact ⟨hd, fun bs r' p' hrest => .bit hread hrest⟩
  · next hempty =>
    split at h
    · next v rest =>
      split at h
      · next hready =>
        obtain ⟨⟨b', d'⟩, hheld, heq⟩ := Option.map_eq_some_iff.mp h
        cases heq
        obtain ⟨hread, hd⟩ := heldBit_eq_some hheld
        obtain ⟨heof, hv₁, -, -⟩ := (dec_inReady_iff d).mp hready
        exact ⟨hd, fun bs r' p' hrest => .putBit heof (by simpa using hempty) hv₁ hread hrest⟩
      · cases h
    · cases h

theorem fetchBits_streams {n : Nat} {d d' : DecUnit} {p p' : List HostAct} {bs : List Bool}
    (h : DecUnit.fetchBits n d p = some (bs, d', p')) :
    bs.length = n ∧ d' = { d with rd := d'.rd } ∧ Reader.Streams d.eof d.rd p bs d'.rd p' := by
  induction n generalizing d p bs with
  | zero =>
    cases h
    exact ⟨rfl, rfl, .nil _ _⟩
  | succ n ih =>
    obtain ⟨⟨b, d₁, p₁⟩, hbit, hrest⟩ := Option.bind_eq_some_iff.mp h
    obtain ⟨⟨bs', d₂, p₂⟩, hbits, heq⟩ := Option.map_eq_some_iff.mp hrest
    cases heq
    obtain ⟨hd₁, hstreams⟩ := fetchBit_streams hbit
    obtain ⟨hlen, hd', hrest⟩ := ih hbits
    refine ⟨congrArg (· + 1) hlen, ?_, hstreams _ _ _ ?_⟩
    · rw [hd', hd₁]
    · rwa [hd₁] at hrest

/-- The bits of a token: its tag, and as many as the tag says (R91). -/
theorem fetchTokenBits_streams {d d' : DecUnit} {p p' : List HostAct} {bs : List Bool}
    (h : d.fetchTokenBits p = some (bs, d', p')) :
    ∃ tag rest, bs = tag :: rest ∧ rest.length = tokenLength d.params tag - 1 ∧ d' = { d with rd := d'.rd }
      ∧ Reader.Streams d.eof d.rd p (tag :: rest) d'.rd p' := by
  obtain ⟨⟨tag, d₁, p₁⟩, htag, hrest⟩ := Option.bind_eq_some_iff.mp h
  obtain ⟨⟨rest, d₂, p₂⟩, hbits, heq⟩ := Option.map_eq_some_iff.mp hrest
  cases heq
  obtain ⟨hd₁, hstreams⟩ := fetchBit_streams htag
  obtain ⟨hlen, hd', hrest⟩ := fetchBits_streams hbits
  refine ⟨tag, rest, rfl, hlen, by rw [hd', hd₁], hstreams _ _ _ (by rwa [hd₁] at hrest)⟩

theorem streams_append {eof : Bool} {r r' : Reader} {p p' : List HostAct} {bs cs : List Bool}
    (h : Reader.Streams eof r p (bs ++ cs) r' p') :
    ∃ r₁ p₁, Reader.Streams eof r p bs r₁ p₁ ∧ Reader.Streams eof r₁ p₁ cs r' p' := by
  induction bs generalizing r p with
  | nil => exact ⟨r, p, .nil r p, h⟩
  | cons b bs ih =>
    cases h with
    | bit hread hrest =>
      obtain ⟨r₁, p₁, hbs, hcs⟩ := ih hrest
      exact ⟨r₁, p₁, .bit hread hbs, hcs⟩
    | putBit heof hv₀ hv₁ hread hrest =>
      obtain ⟨r₁, p₁, hbs, hcs⟩ := ih hrest
      exact ⟨r₁, p₁, .putBit heof hv₀ hv₁ hread hbs, hcs⟩

/-! ## Eight such bits are puts and one READ_BYTE (R128) -/

/-- Bytes of the host's list put one after the other. -/
inductive Reader.Fed (eof : Bool) : Reader → List HostAct → Reader → List HostAct → Prop where
  | refl (r : Reader) (p : List HostAct) : Fed eof r p r p
  | put {r r' : Reader} {p p' : List HostAct} {v : Byte} : eof = false → r.v1 = false → Fed eof (r.put v) p r' p' →
      Fed eof r (.putDec v :: p) r' p'

section
variable {eof : Bool} {r r' : Reader} {p p' : List HostAct} {bs : List Bool}

theorem put_of_v0 (v : Byte) (hv : r.v0 = true) : r.put v = { r with slot1 := v, v1 := true } :=
  if_neg (by simp [hv])

theorem put_of_empty (v : Byte) (hv : r.v0 = false) : r.put v = { r with slot0 := v, v0 := true } :=
  if_pos hv

theorem put_v0 (r : Reader) (v : Byte) : (r.put v).v0 = true := by
  cases hv : r.v0 with
  | false => rw [put_of_empty v hv]
  | true => rwa [put_of_v0 v hv]

/-- An empty reader is put a byte before its first bit is read. -/
theorem streams_of_empty (hv : r.v0 = false) (hbs : bs ≠ []) (h : Reader.Streams eof r p bs r' p') :
    eof = false ∧ r.v1 = false ∧ ∃ v q, p = .putDec v :: q ∧ Reader.Streams eof (r.put v) q bs r' p' := by
  cases h with
  | nil => exact absurd rfl hbs
  | bit hread hrest =>
    rw [readBit_of_empty eof hv] at hread
    split at hread <;> cases hread
  | putBit heof _ hv₁ hread hrest => exact ⟨heof, hv₁, _, _, rfl, .bit hread hrest⟩

/-- A full slot0 gives its own bit. -/
theorem streams_cons_of_v0 {b : Bool} (hv : r.v0 = true) (h : Reader.Streams eof r p (b :: bs) r' p') :
    ∃ r₁, r.readBit eof = .done (some b) r₁ ∧ Reader.Streams eof r₁ p bs r' p' := by
  cases h with
  | bit hread hrest => exact ⟨_, hread, hrest⟩
  | putBit _ hv₀ => simp [hv] at hv₀

/-- Where the reader holds all the bits, no byte is put. -/
theorem streams_of_readBits {bs₀ : List Bool} {r₀ : Reader} (hread : r.readBits eof bs.length = some (bs₀, r₀))
    (h : Reader.Streams eof r p bs r' p') : bs = bs₀ ∧ r' = r₀ ∧ p' = p := by
  induction bs generalizing r bs₀ with
  | nil =>
    cases h
    cases hread
    exact ⟨rfl, rfl, rfl⟩
  | cons b bs ih =>
    have hv : r.v0 = true := by
      by_contra hv
      rw [readBits_of_empty eof (by simpa using hv) (by simp)] at hread
      cases hread
    obtain ⟨r₁, hbit, hrest⟩ := streams_cons_of_v0 hv h
    rw [List.length_cons, readBits_succ eof _ hbit] at hread
    obtain ⟨⟨bs₁, r₂⟩, hread₁, heq⟩ := Option.map_eq_some_iff.mp hread
    cases heq
    obtain ⟨rfl, rfl, rfl⟩ := ih hread₁ hrest
    exact ⟨rfl, rfl, rfl⟩

/-- Where slot0 alone does not hold all the bits, the byte after it can be put at once. -/
theorem streams_put_ahead (hv₀ : r.v0 = true) (hv₁ : r.v1 = false) (hlen : 8 < r.off.val + bs.length)
    (h : Reader.Streams eof r p bs r' p') :
    eof = false ∧ ∃ v q, p = .putDec v :: q ∧ Reader.Streams eof (r.put v) q bs r' p' := by
  induction bs generalizing r with
  | nil =>
    rw [List.length_nil] at hlen
    omega
  | cons b bs ih =>
    rw [List.length_cons] at hlen
    obtain ⟨r₁, hbit, hrest⟩ := streams_cons_of_v0 hv₀ h
    by_cases ho : r.off = 7
    · rw [readBit_of_off_eq eof hv₀ ho] at hbit
      cases hbit
      have hne : bs ≠ [] := by
        rintro rfl
        rw [List.length_nil] at hlen
        omega
      obtain ⟨heof, -, v, q, rfl, hput⟩ := streams_of_empty (by exact hv₁) hne hrest
      refine ⟨heof, v, q, rfl, ?_⟩
      rw [put_of_v0 v hv₀]
      rw [put_of_empty v (by exact hv₁)] at hput
      exact .bit (readBit_of_off_eq eof (by exact hv₀) (by exact ho)) hput
    · have hoff : (r.off + 1).val = r.off.val + 1 := by omega
      rw [readBit_of_off_ne eof hv₀ ho] at hbit
      cases hbit
      obtain ⟨heof, v, q, rfl, hput⟩ := ih (by exact hv₀) (by exact hv₁) (by simp only [hoff]; omega) hrest
      refine ⟨heof, v, q, rfl, ?_⟩
      rw [put_of_v0 v hv₀]
      rw [put_of_v0 v (by exact hv₀)] at hput
      exact .bit (readBit_of_off_ne eof (by exact hv₀) (by exact ho)) hput

/-- Where the reader holds the bits of a byte, they are those of READ_BYTE. -/
theorem readByte_of_streams (hlen : bs.length = 8) (hv : r.v0 = true) (hready : r.v1 = true ∨ r.off = 0)
    (h : Reader.Streams eof r p bs r' p') :
    p' = p ∧ r.readByte eof = .done (some (BitVec.ofNat 8 (ofBits bs))) r' := by
  obtain ⟨v, hread, hbyte⟩ := readByte_eq_readBits eof hv hready
  rw [← hlen] at hread
  obtain ⟨rfl, rfl, rfl⟩ := streams_of_readBits hread h
  exact ⟨rfl, by rwa [byte_ofBits_byteBits]⟩

theorem fed_readByte_of_v0 (hlen : bs.length = 8) (hv : r.v0 = true) (h : Reader.Streams eof r p bs r' p') :
    ∃ r₁, Reader.Fed eof r p r₁ p' ∧ r₁.readByte eof = .done (some (BitVec.ofNat 8 (ofBits bs))) r' := by
  by_cases hready : r.v1 = true ∨ r.off = 0
  · obtain ⟨rfl, hbyte⟩ := readByte_of_streams hlen hv hready h
    exact ⟨r, .refl r _, hbyte⟩
  · obtain ⟨hv₁, ho⟩ : r.v1 = false ∧ r.off ≠ 0 := by simpa using hready
    obtain ⟨heof, v, q, rfl, hput⟩ := streams_put_ahead hv hv₁ (by omega) h
    have hfull : (r.put v).v1 = true := by rw [put_of_v0 v hv]
    obtain ⟨rfl, hbyte⟩ := readByte_of_streams hlen (put_v0 r v) (.inl hfull) hput
    exact ⟨r.put v, .put heof hv₁ (.refl _ _), hbyte⟩

/-- Eight bits fetched one by one are the byte that READ_BYTE answers once the bytes put among them are put first. -/
theorem fed_readByte (hlen : bs.length = 8) (h : Reader.Streams eof r p bs r' p') :
    ∃ r₁, Reader.Fed eof r p r₁ p' ∧ r₁.readByte eof = .done (some (BitVec.ofNat 8 (ofBits bs))) r' := by
  cases hv : r.v0 with
  | true => exact fed_readByte_of_v0 hlen hv h
  | false =>
    have hne : bs ≠ [] := by
      rintro rfl
      cases hlen
    obtain ⟨heof, hv₁, v, q, rfl, hput⟩ := streams_of_empty hv hne h
    obtain ⟨r₁, hfed, hbyte⟩ := fed_readByte_of_v0 hlen (put_v0 r v) hput
    exact ⟨r₁, .put heof hv₁ hfed, hbyte⟩

/-- One bit likewise. -/
theorem fed_readBit {b : Bool} (h : Reader.Streams eof r p (b :: bs) r' p') :
    ∃ r₁ r₂ p₁, Reader.Fed eof r p r₁ p₁ ∧ r₁.readBit eof = .done (some b) r₂ ∧ Reader.Streams eof r₂ p₁ bs r' p' := by
  cases h with
  | bit hread hrest => exact ⟨r, _, p, .refl r p, hread, hrest⟩
  | putBit heof _ hv₁ hread hrest => exact ⟨_, _, _, .put heof hv₁ (.refl _ _), hread, hrest⟩

end

end Sys2Proof.Machine
end

section
/-! PROOFS. A token turn is a run of moves of the decoder core and the host: the micro-steps that read the token's fields,
then its outputs (44_decoder R231-R238; log 6). -/

namespace Sys2Proof.Machine

/-! ## Reads of the core behind puts of the host -/

/-- The state with this decoder unit and this host's list. -/
def State.withDec (s : State) (d : DecUnit) (p : List HostAct) : State :=
  { s with dec := d, host := { s.host with pending := p } }

theorem fed_puts {s : State} {d : DecUnit} {r' : Reader} {p p' : List HostAct} (hrun : d.running = true)
    (hfed : Reader.Fed d.eof d.rd p r' p') : DecRun (s.withDec d p) (s.withDec { d with rd := r' } p') := by
  generalize heof : d.eof = eof at hfed
  generalize hrd : d.rd = r at hfed
  induction hfed generalizing d with
  | refl r p =>
    subst hrd heof
    exact .refl
  | @put r r' p p' v hopen hv₁ _ ih =>
    subst hrd
    have hready : d.inReady = true := by simp [DecUnit.inReady, heof, hopen, hv₁, hrun]
    exact .head (.put (s := s.withDec d (.putDec v :: p)) rfl hready)
      (ih (d := { d with rd := d.rd.put v }) hrun heof rfl)

/-- The host's puts come before the core's micro-step that needs them. -/
theorem fed_run {s : State} {d d' : DecUnit} {r' : Reader} {p p' : List HostAct} (hrun : d.running = true)
    (hfed : Reader.Fed d.eof d.rd p r' p') (hadv : ({ d with rd := r' } : DecUnit).advance = d') :
    DecRun (s.withDec d p) (s.withDec d' p') := by
  subst hadv
  exact (fed_puts hrun hfed).tail (.core _)

section
variable {s : State} {d : DecUnit} {p p' : List HostAct} {r' : Reader}

theorem tag_run {b : Bool} {bs : List Bool} (hph : d.ph = .tagBit)
    (h : Reader.Streams d.eof d.rd p (b :: bs) r' p') :
    ∃ r p₁, Reader.Streams d.eof r p₁ bs r' p' ∧ DecRun (s.withDec d p) (s.withDec
      (if b = true then { d with rd := r, ph := .literalByte }
        else { d with rd := r, dist := 0, k := false, ph := .refDistance }) p₁) := by
  obtain ⟨r₁, r₂, p₁, hfed, hread, hrest⟩ := fed_readBit h
  refine ⟨r₂, p₁, hrest, fed_run (by simp [DecUnit.running, hph]) hfed ?_⟩
  rw [advance_of_tagBit (by exact hph)]
  simp only [DecUnit.tag, hread, DecUnit.reading]
  split <;> rfl

/-- The distance register after a byte read bit by bit (R233). -/
def shiftIn (dist : Dist) (bits : List Bool) : Dist := (dist <<< 8) ||| (BitVec.ofNat 8 (ofBits bits)).zeroExtend 16

theorem shiftIn_toNat {dist : Dist} {bits : List Bool} (hlen : bits.length = 8) :
    (shiftIn dist bits).toNat = (256 * dist.toNat + ofBits bits) % 65536 := by
  have hlt := ofBits_lt bits
  rw [hlen] at hlt
  rw [shiftIn, toNat_shiftLeft_or_byte, BitVec.toNat_ofNat, Nat.mod_eq_of_lt hlt]

theorem shiftIn_one {index : List Bool} (hlen : index.length = 8) :
    shiftIn 0 index = BitVec.ofNat 16 (ofBits index) := by
  refine BitVec.eq_of_toNat_eq ?_
  rw [shiftIn_toNat hlen, BitVec.toNat_ofNat, show (0 : Dist).toNat = 0 from rfl]
  omega

theorem shiftIn_two {index : List Bool} (hlen : index.length = 16) :
    shiftIn (shiftIn 0 (index.take 8)) (index.drop 8) = BitVec.ofNat 16 (ofBits index) := by
  have hsplit : ofBits index = ofBits (index.take 8) * 2 ^ (index.drop 8).length + ofBits (index.drop 8) := by
    rw [← ofBits_append, List.take_append_drop]
  have hlo : (index.drop 8).length = 8 := by rw [List.length_drop, hlen]
  refine BitVec.eq_of_toNat_eq ?_
  rw [shiftIn_toNat hlo, shiftIn_toNat (by rw [List.length_take, hlen]; rfl), BitVec.toNat_ofNat, hsplit, hlo,
    show (0 : Dist).toNat = 0 from rfl]
  omega

/-- The distance field of one byte or two, and the registers set for the length field. -/
theorem distance_run {bs : List Bool} (hph : d.ph = .refDistance) (hlen : bs.length = 8)
    (h : Reader.Streams d.eof d.rd p bs r' p') :
    DecRun (s.withDec d p) (s.withDec
      (if d.params.indexBits = 16 ∧ d.k = false then { d with rd := r', dist := shiftIn d.dist bs, k := true }
        else { d with rd := r', dist := shiftIn d.dist bs, lenv := 0, i := 0, ph := .refLength }) p') := by
  obtain ⟨r₁, hfed, hread⟩ := fed_readByte hlen h
  refine fed_run (by simp [DecUnit.running, hph]) hfed ?_
  rw [advance_of_refDistance (by exact hph)]
  simp only [DecUnit.distance, hread, DecUnit.reading]
  split <;> rfl

theorem index_run {index : List Bool} (hph : d.ph = .refDistance) (hk : d.k = false) (hdist : d.dist = 0)
    (hlen : index.length = d.params.indexBits) (h : Reader.Streams d.eof d.rd p index r' p') :
    DecRun (s.withDec d p) (s.withDec { d with
      rd := r', dist := BitVec.ofNat 16 (ofBits index), k := decide (d.params.indexBits = 16), lenv := 0, i := 0,
      ph := .refLength } p') := by
  rcases Nat.lt_or_ge d.params.W 8 with hW | hW
  · have hIW := indexBits_of_le (Nat.le_of_lt_succ hW)
    rw [hIW] at hlen
    have hbyte := distance_run (s := s) hph hlen h
    rw [hdist, shiftIn_one hlen] at hbyte
    simpa [hIW, hk] using hbyte
  · have hIW := indexBits_of_ge hW
    rw [hIW] at hlen
    obtain ⟨r₁, p₁, hhi, hlo⟩ := streams_append (bs := index.take 8) (cs := index.drop 8)
      (by rwa [List.take_append_drop])
    have hfirst := distance_run (s := s) hph (by rw [List.length_take]; omega) hhi
    rw [if_pos ⟨hIW, hk⟩, hdist] at hfirst
    refine hfirst.trans ?_
    have hsecond := distance_run (s := s)
      (d := { d with rd := r₁, dist := shiftIn 0 (index.take 8), k := true }) hph
      (by rw [List.length_drop]; omega) hlo
    rw [if_neg (by simp), shiftIn_two hlen] at hsecond
    simpa [hIW] using hsecond

/-- The unit after the distance check at the end of the length field (R234, R240). -/
def DecUnit.checked (d : DecUnit) : DecUnit := d.ended d.complete

/-- The check never holds. -/
theorem ended_complete (d e : DecUnit) : d.ended e.complete = e.checked := by
  unfold DecUnit.checked DecUnit.complete
  split <;> rfl

theorem checked_ph (d : DecUnit) (ph : DecPhase) : ({ d with ph := ph } : DecUnit).checked = d.checked := by
  unfold DecUnit.checked DecUnit.complete
  dsimp only
  split <;> rfl

/-- The length field, bit by bit, and the check at its end. -/
theorem field_run {field : List Bool} (hph : d.ph = .refLength) (hi : d.i + field.length = d.params.L)
    (hne : field ≠ []) (h : Reader.Streams d.eof d.rd p field r' p') :
    DecRun (s.withDec d p) (s.withDec ({ d with
      rd := r', lenv := d.lenv * 2 ^ field.length + ofBits field, i := d.params.L } : DecUnit).checked p') := by
  induction field generalizing d p with
  | nil => exact absurd rfl hne
  | cons b field ih =>
    obtain ⟨r₁, r₂, p₁, hfed, hread, hrest⟩ := fed_readBit h
    have hvalue : d.lenv * 2 ^ (field.length + 1) + ofBits (b :: field)
        = (2 * d.lenv + b.toNat) * 2 ^ field.length + ofBits field := by
      rw [ofBits_cons]
      ring
    have hadvance := (advance_of_refLength (d := { d with rd := r₁ }) hph).trans
      (congrArg _ (length_of_bit (d := { d with rd := r₁ }) hread))
    rw [List.length_cons] at hi ⊢
    rw [hvalue]
    by_cases hlast : field = []
    · subst hlast
      cases hrest
      refine fed_run (by simp [DecUnit.running, hph]) hfed ?_
      rw [hadvance, if_pos (by exact hi), ended_complete]
      simp [ofBits, ← hi]
    · have hlen : field.length ≠ 0 := mt List.eq_nil_of_length_eq_zero hlast
      have hnext : DecRun (s.withDec d p)
          (s.withDec { d with rd := r₂, lenv := 2 * d.lenv + b.toNat, i := d.i + 1 } p₁) := by
        refine fed_run (by simp [DecUnit.running, hph]) hfed ?_
        rw [hadvance, if_neg (by show d.i + 1 ≠ d.params.L; omega), dec_ended_done]
      exact hnext.trans (ih hph (by show d.i + 1 + _ = d.params.L; omega) hlast hrest)

end

/-! ## Outputs (R235, R236, R239) -/

theorem makeRoom_run (s : State) : DecRun s s.makeRoom := by
  rcases makeRoom_cases s with ⟨-, hroom⟩ | ⟨hout, rest, hp, hroom⟩ | ⟨-, -, hroom⟩ <;> rw [hroom]
  exact .single (.take hp hout)

/-- The reader and the phase have no part in making room. -/
theorem makeRoom_withDec (s : State) (d : DecUnit) (p : List HostAct) (r : Reader) (ph : DecPhase) :
    (s.withDec { d with rd := r, ph := ph } p).makeRoom = { (s.withDec d p).makeRoom with
      dec := { (s.withDec d p).makeRoom.dec with rd := r, ph := ph } } := by
  unfold State.makeRoom State.withDec
  dsimp only
  split
  · split <;> rfl
  · rfl

theorem tokenCopy_run (n : Nat) (s : State) : DecRun s (State.tokenCopy n s) := by
  induction n generalizing s with
  | zero => exact .refl
  | succ n ih =>
    by_cases hph : s.dec.ph = .refEmit
    · rw [State.tokenCopy, if_pos hph]
      refine (makeRoom_run s).trans ?_
      dsimp only
      split
      · exact .refl
      · next hout =>
        have hcopy : s.makeRoom.dec.advance = s.makeRoom.dec.ended s.makeRoom.dec.copy :=
          advance_of_refEmit (by rw [makeRoom_dec, hph]) (by simpa using hout)
        have hcore := DecMove.core s.makeRoom
        rw [hcopy, ← endDec_eq_ended] at hcore
        exact .head hcore (ih _)
    · rw [tokenCopy_of_ne _ hph]

/-! ## The whole token -/

/-- A token's effect on the state in which its bits have been read (R236-R238). -/
def State.runToken (s : State) : Token → State
  | .literal b => s.tokenLiteral b
  | .backRef d n => s.tokenRef (decide (s.dec.params.indexBits = 16)) (BitVec.ofNat 16 d) n

theorem exec_token {s : State} {t : Token} (ht : encodable s.dec.params t) (hph : s.dec.ph = .tagBit) :
    exec (t.toInstr s.dec.params) s = .next (s.runToken t) := by
  cases t with
  | literal b => exact (exec_lit b s).trans (by rw [if_pos hph]; rfl)
  | backRef d n =>
    obtain ⟨hd, hn⟩ := ht
    rcases Nat.lt_or_ge s.dec.params.W 8 with hW | hW
    · have hIW := indexBits_of_le (Nat.le_of_lt_succ hW)
      have hdist : (BitVec.ofNat 8 d).zeroExtend 16 = BitVec.ofNat 16 d := by
        rw [hIW] at hd
        refine BitVec.eq_of_toNat_eq ?_
        simp only [BitVec.toNat_setWidth, BitVec.toNat_ofNat]
        omega
      rw [toInstr_backRef_ref8 (by omega), exec_ref8_of_config _ (by omega) hn, if_pos hph, hdist, State.runToken, hIW]
      rfl
    · rw [toInstr_backRef_ref16 hW, exec_ref16_of_config _ hW hn, if_pos hph, State.runToken, indexBits_of_ge hW]
      rfl

section
variable {s : State} {d : DecUnit} {p p' : List HostAct} {r' : Reader}

/-- A literal with room for its byte: DEC_TAG, the TAKE that makes room, DEC_LIT. -/
theorem literal_run {b : Byte} (hph : d.ph = .tagBit)
    (h : Reader.Streams d.eof d.rd p (true :: byteBits b) r' p')
    (hroom : (s.withDec { d with rd := r' } p').makeRoom.dec.out.valid = false) :
    DecRun (s.withDec d p) ((s.withDec { d with rd := r' } p').tokenLiteral b) := by
  obtain ⟨r₂, p₁, hrest, htag⟩ := tag_run (s := s) hph h
  obtain ⟨r₁, hfed, hread⟩ := fed_readByte (byteBits_length b) hrest
  rw [byte_ofBits_byteBits] at hread
  rw [if_pos rfl] at htag
  refine htag.trans ((fed_puts (by rfl) hfed).trans ((makeRoom_run _).tail ?_))
  have hmade := makeRoom_withDec s d p' r₁ .literalByte
  have hmade' := makeRoom_withDec s d p' r' d.ph
  have heof : (s.withDec d p').makeRoom.dec.eof = d.eof := by rw [makeRoom_dec]; rfl
  rw [tokenLiteral_of_room b hroom, hmade, hmade', hph]
  rw [hmade'] at hroom
  generalize (s.withDec d p').makeRoom = m at heof hroom
  refine decMove_of_advance ?_
  rw [advance_of_literalByte rfl (by exact hroom)]
  simp only [DecUnit.literal, heof, hread, DecUnit.reading]
  rfl

theorem backRef_run {dist n : Nat} (hph : d.ph = .tagBit) (ht : encodable d.params (.backRef dist n))
    (h : Reader.Streams d.eof d.rd p (encodeToken d.params (.backRef dist n)) r' p') :
    DecRun (s.withDec d p)
      ((s.withDec { d with rd := r' } p').tokenRef (decide (d.params.indexBits = 16)) (BitVec.ofNat 16 dist) n) := by
  obtain ⟨hd, hn, hnL⟩ := ht
  obtain ⟨r₁, p₁, hrest, htag⟩ := tag_run (s := s) hph h
  obtain ⟨r₂, p₂, hindex, hfield⟩ := streams_append hrest
  rw [if_neg (by decide)] at htag
  have hindex_run := index_run (s := s) (d := { d with rd := r₁, dist := 0, k := false, ph := .refDistance })
    rfl rfl rfl (bitsN_length _ _) hindex
  rw [ofBits_bitsN_of_lt hd] at hindex_run
  have hfield_run := field_run (s := s) (d := { d with
      rd := r₂, dist := BitVec.ofNat 16 dist, k := decide (d.params.indexBits = 16), lenv := 0, i := 0,
      ph := .refLength }) rfl (by simp) (List.ne_nil_of_length_pos (by rw [bitsN_length]; exact d.params.hL.1)) hfield
  rw [ofBits_bitsN_of_lt (length_field_lt hn hnL), bitsN_length, Nat.zero_mul, Nat.zero_add] at hfield_run
  refine htag.trans (hindex_run.trans (hfield_run.trans ?_))
  rw [State.tokenRef, endDec_eq_ended, ended_complete]
  rw [checked_ph { d with rd := r', dist := _, k := _, lenv := n - 1, i := _ } .refLength]
  exact tokenCopy_run n _

end

end Sys2Proof.Machine
end

section
/-! PROOFS. Said once: a step is one turn of an agent, or a token turn, which is a run of moves of the decoder core and
the host (00_scope R7; log 6); that a step always answers; and that micro-steps of the two units commute (60_exceptions
R322). -/

namespace Sys2Proof.Machine

/-! ## A token turn -/

/-- A token turn fetches the bits of one whole token, with nothing after it. -/
theorem fetchToken_token {s s' : State} {i : Instr} (h : s.fetchToken = some (i, s')) :
    ∃ t r' p', i = t.toInstr s.dec.params ∧ encodable s.dec.params t
      ∧ Reader.Streams s.dec.eof s.dec.rd s.host.pending (encodeToken s.dec.params t) r' p'
      ∧ s' = s.withDec { s.dec with rd := r' } p' ∧ s'.tokenHasRoom i = true := by
  obtain ⟨bits, d, pending, rest, hbits, hdecode, rfl, hroom⟩ := fetchToken_cases h
  obtain ⟨tag, body, rfl, hlen, hd, hstreams⟩ := fetchTokenBits_streams hbits
  obtain ⟨t, rfl, htoken⟩ := decodeBits_ok hdecode
  obtain ⟨ht, hsplit⟩ := encodeToken_of_decodeToken htoken
  obtain rfl : rest = [] := by
    have hall := congrArg List.length hsplit
    rw [List.length_append, encodeToken_length, List.length_cons, hlen] at hall
    cases t with
    | literal b =>
      obtain rfl : tag = true := (List.cons.inj hsplit).1
      exact List.eq_nil_of_length_eq_zero (by simpa [tokenLength] using hall)
    | backRef dist n =>
      obtain rfl : tag = false := (List.cons.inj hsplit).1
      exact List.eq_nil_of_length_eq_zero (by simp only [tokenLength, Bool.false_eq_true, if_false] at hall; omega)
  rw [List.append_nil] at hsplit
  rw [hsplit] at hstreams
  exact ⟨t, d.rd, pending, rfl, ht, hstreams, by rw [← hd]; rfl, hroom⟩

/-- What a token turn executes is a run of moves. -/
theorem exec_fetchToken_run {s s' : State} {i : Instr} (hph : s.dec.ph = .tagBit) (h : s.fetchToken = some (i, s')) :
    ∃ t, exec i s' = .next t ∧ DecRun s t := by
  obtain ⟨tok, r', p', rfl, htok, hstreams, rfl, hroom⟩ := fetchToken_token h
  refine ⟨_, exec_token (s := s.withDec { s.dec with rd := r' } p') htok hph, ?_⟩
  cases tok with
  | literal b =>
    have hempty : (s.withDec { s.dec with rd := r' } p').makeRoom.dec.out.valid = false := by
      simpa [State.tokenHasRoom, Token.toInstr, Instr.token?] using hroom
    exact literal_run (s := s) hph hstreams hempty
  | backRef dist n => exact backRef_run (s := s) hph htok hstreams

theorem step_token {s : State} (hturn : s.turn = .token) : ∃ t, step s = .next t ∧ DecRun s.spendTurn t := by
  rcases step_cases s with ⟨-, hpass⟩ | ⟨i, s', hfetch, hrun⟩
  · exact ⟨_, hpass, .refl⟩
  · rcases fetch_cases hfetch with ⟨h, -⟩ | ⟨h, -⟩ | ⟨h, -⟩ | ⟨-, hph, htoken⟩
    · cases hturn.symm.trans h
    · cases hturn.symm.trans h
    · cases hturn.symm.trans h
    · rw [hrun]
      exact exec_fetchToken_run (by rwa [spendTurn_dec]) htoken

/-! ## Any turn -/

/-- A turn of an agent, the turn itself spent. -/
inductive AgentMove : State → State → Prop where
  | hold (s : State) : AgentMove s s
  | enc (s : State) : AgentMove s { s with enc := s.enc.advance }
  | dec (s : State) : AgentMove s { s with dec := s.dec.advance }
  | host {s : State} {a : HostAct} {rest : List HostAct} : s.host.pending = a :: rest → s.allows a = true →
      AgentMove s ((s.pop rest).act a)

theorem decMove_agentMove {s t : State} (h : DecMove s t) : AgentMove s t := by
  cases h with
  | core => exact .dec s
  | put hp hready => exact .host hp hready
  | take hp hout => exact .host hp hout

/-- A step is one turn of an agent, or a run of moves (R7; log 6). -/
theorem step_moves (s : State) : ∃ t, step s = .next t ∧
    ((s.turn ≠ .token ∧ AgentMove s.spendTurn t) ∨ (s.turn = .token ∧ DecRun s.spendTurn t)) := by
  cases hturn : s.turn with
  | encCore => exact ⟨_, step_encCore hturn, .inl ⟨nofun, spendTurn_enc s ▸ .enc s.spendTurn⟩⟩
  | decCore => exact ⟨_, step_decCore hturn, .inl ⟨nofun, spendTurn_dec s ▸ .dec s.spendTurn⟩⟩
  | host =>
    rcases step_host_cases hturn with hpass | ⟨a, rest, hp, ha, hact⟩
    · exact ⟨_, hpass, .inl ⟨nofun, .hold _⟩⟩
    · refine ⟨_, hact, .inl ⟨nofun, .host (by rwa [spendTurn_host]) ?_⟩⟩
      rwa [allows_congr (spendTurn_enc s) (spendTurn_dec s)]
  | token =>
    obtain ⟨t, hstep, hrun⟩ := step_token hturn
    exact ⟨t, hstep, .inr ⟨rfl, hrun⟩⟩

theorem step_moves_of_next {s t : State} (h : step s = .next t) :
    (s.turn ≠ .token ∧ AgentMove s.spendTurn t) ∨ (s.turn = .token ∧ DecRun s.spendTurn t) := by
  obtain ⟨t', hstep, hmoves⟩ := step_moves s
  cases hstep.symm.trans h
  exact hmoves

/-- Settles O50: every turn's outcome is a state. -/
theorem stepAlwaysAnswersNext : Obligations.StepAlwaysAnswersNext := by
  intro s
  obtain ⟨t, hstep, -⟩ := step_moves s
  exact ⟨t, hstep⟩

/-- What every agent's turn keeps, and spending a turn, every step keeps. -/
theorem step_keeps {P : State → Prop} (hspend : ∀ s, P s → P s.spendTurn)
    (hmove : ∀ s t, P s → AgentMove s t → P t) {s t : State} (hs : P s) (h : step s = .next t) : P t := by
  rcases step_moves_of_next h with ⟨-, hagent⟩ | ⟨-, hrun⟩
  · exact hmove _ _ (hspend s hs) hagent
  · clear h
    induction hrun with
    | refl => exact hspend s hs
    | tail _ hmove' ih => exact hmove _ _ ih (decMove_agentMove hmove')

theorem runSteps_keeps {P : State → Prop} (hstep : ∀ s t, P s → step s = .next t → P t) {k : Nat} {s t : State}
    (hs : P s) (h : runSteps k s = .next t) : P t := by
  induction k generalizing s with
  | zero =>
    cases h
    exact hs
  | succ k ih =>
    obtain ⟨s', hs', -⟩ := step_moves s
    exact ih (hstep _ _ hs hs') ((runSteps_succ hs').symm.trans h)

/-! ## A token turn as turns of the agents (log 6) -/

/-- Where the reader holds all the bits, they are fetched without a put. -/
theorem fetchBits_of_readBits {n : Nat} {d : DecUnit} {bs : List Bool} {r' : Reader} (p : List HostAct)
    (h : d.rd.readBits d.eof n = some (bs, r')) : DecUnit.fetchBits n d p = some (bs, { d with rd := r' }, p) := by
  induction n generalizing d bs with
  | zero =>
    cases h
    rfl
  | succ n ih =>
    have hv : d.rd.v0 = true := by
      by_contra hv
      rw [readBits_of_empty d.eof (by simpa using hv) (by simp)] at h
      cases h
    obtain ⟨b, r₁, hbit⟩ : ∃ b r₁, d.rd.readBit d.eof = .done (some b) r₁ := by
      by_cases ho : d.rd.off = 7
      · exact ⟨_, _, readBit_of_off_eq d.eof hv ho⟩
      · exact ⟨_, _, readBit_of_off_ne d.eof hv ho⟩
    rw [readBits_succ _ _ hbit] at h
    obtain ⟨⟨bs₁, r₂⟩, hrest, heq⟩ := Option.map_eq_some_iff.mp h
    cases heq
    have hfetch : d.fetchBit p = some (b, { d with rd := r₁ }, p) := by
      unfold DecUnit.fetchBit
      rw [if_pos hv, DecUnit.heldBit, hbit]
      rfl
    rw [DecUnit.fetchBits, hfetch, Option.bind_some]
    exact congrArg (Option.map _) (ih (d := { d with rd := r₁ }) hrest)

/-- DEC_TAG on a tag bit 1 and DEC_LIT on a byte, with room for it. -/
theorem advance_advance_literal {d : DecUnit} {r₁ r₂ : Reader} {v : Byte} (hph : d.ph = .tagBit)
    (hout : d.out.valid = false) (htag : d.rd.readBit d.eof = .done (some true) r₁)
    (hbyte : r₁.readByte d.eof = .done (some v) r₂) : d.advance.advance = { d.produce v with rd := r₂ } := by
  have hfirst : d.advance = { d with rd := r₁, ph := .literalByte } := by
    rw [advance_of_tagBit hph, DecUnit.tag, htag]
    rfl
  rw [hfirst, advance_of_literalByte rfl (by exact hout)]
  simp only [DecUnit.literal, hbyte, DecUnit.reading]
  rw [dec_ended_done, ← hph]
  rfl

/-- A token turn on a literal that the reader holds, with room for its byte. -/
theorem step_token_literal {s : State} {r₁ r₂ : Reader} {v : Byte} (ts : List Turn) (hph : s.dec.ph = .tagBit)
    (hout : s.dec.out.valid = false) (hv : s.dec.rd.v0 = true)
    (htag : s.dec.rd.readBit s.dec.eof = .done (some true) r₁) (hbits : r₁.readBits s.dec.eof 8 = some (byteBits v, r₂)) :
    step { s with sched := .token :: ts } = .next { s with sched := ts, dec := { s.dec.produce v with rd := r₂ } } := by
  have hfetch : s.dec.fetchTokenBits s.host.pending
      = some (true :: byteBits v, { s.dec with rd := r₂ }, s.host.pending) := by
    have hfirst : s.dec.fetchBit s.host.pending = some (true, { s.dec with rd := r₁ }, s.host.pending) := by
      unfold DecUnit.fetchBit
      rw [if_pos hv, DecUnit.heldBit, htag]
      rfl
    rw [DecUnit.fetchTokenBits, hfirst, Option.bind_some]
    exact congrArg (Option.map _) (fetchBits_of_readBits (d := { s.dec with rd := r₁ }) _ hbits)
  have hdecode : decodeBits s.dec.params (true :: byteBits v) = .ok (.lit v, []) := by
    have htoken := decodeBits_of_decodeToken (decodeToken_literal s.dec.params v [])
    rwa [List.append_nil] at htoken
  let s' : State := { s with sched := ts, dec := { s.dec with rd := r₂ } }
  have hmade : s'.makeRoom = s' := makeRoom_of_empty hout
  have hempty : s'.makeRoom.dec.out.valid = false := by rwa [hmade]
  have hroom : s'.tokenHasRoom (.lit v) = true := by simpa [State.tokenHasRoom, Instr.token?] using hempty
  calc step { s with sched := .token :: ts }
      = if s'.tokenHasRoom (.lit v) = true then exec (.lit v) s' else .next { s with sched := ts } :=
        step_of_token rfl hph hfetch hdecode
    _ = .next (s'.tokenLiteral v) := by rw [if_pos hroom, exec_lit, if_pos (by exact hph)]
    _ = .next { s with sched := ts, dec := { s.dec.produce v with rd := r₂ } } := by
      rw [tokenLiteral_of_room v hempty, hmade]
      rfl

/-- Settles O12: a token turn is a run of moves, and each move is a turn of an agent; a literal that the reader holds is
read by DEC_TAG and DEC_LIT as the token turn reads it. -/
theorem tokenTurnIsARunOfAgentTurns : Obligations.TokenTurnIsARunOfAgentTurns := by
  intro s ts
  refine ⟨?_, fun hph hout hv₀ hv₁ hbit => ?_⟩
  · obtain ⟨t, hstep, hrun⟩ := step_token (s := { s with sched := .token :: ts }) rfl
    obtain ⟨agents, hagents⟩ := decRun_agents hrun
    have hsched : ({ t with sched := ts } : State) = t := by rw [← show t.sched = ts from decRun_sched hrun]
    refine ⟨agents, ?_⟩
    rw [hstep, ← hsched]
    exact hagents ts
  · obtain ⟨r₁, htag, hr₀, hr₁⟩ : ∃ r₁, s.dec.rd.readBit s.dec.eof
        = .done (some (s.dec.rd.slot0.getLsbD (7 - s.dec.rd.off.val))) r₁ ∧ r₁.v0 = true
        ∧ (r₁.v1 = true ∨ r₁.off = 0) := by
      by_cases ho : s.dec.rd.off = 7
      · exact ⟨_, readBit_of_off_eq _ hv₀ ho, hv₁, .inr rfl⟩
      · exact ⟨_, readBit_of_off_ne _ hv₀ ho, hv₀, .inl hv₁⟩
    rw [hbit] at htag
    obtain ⟨v, hbits, hbyte⟩ := readByte_eq_readBits s.dec.eof hr₀ hr₁
    refine ⟨_, runSteps_succ (step_token_literal ts hph hout hv₀ htag hbits), ?_, hph, rfl⟩
    refine (runSteps_succ (step_decCore (s := { s with sched := .decCore :: .decCore :: ts }) rfl)).trans
      ((runSteps_succ (step_decCore rfl)).trans ?_)
    exact congrArg (fun d => Host.Outcome.next { s with sched := ts, dec := d })
      (advance_advance_literal hph hout htag hbyte)

/-! ## Micro-steps of the two units (R322) -/

/-- Settles O55: a micro-step is a function of its own unit. -/
theorem unitsShareNothing : Obligations.UnitsShareNothing := by
  intro s i j hi hj
  exact ⟨_, _, _, exec_encSelected hi, exec_decSelected hj, rfl, rfl, rfl, rfl,
    exec_decSelected (s := { s with enc := s.enc.advance }) hj,
    exec_encSelected (s := { s with dec := s.dec.advance }) hi, rfl, rfl⟩

end Sys2Proof.Machine
end

section
/-! PROOFS. Said once: what a turn of a core can do to its unit, the cases of its micro-steps with the conditions they
run under (43_encoder R192, R203, R204; 44_decoder R231-R235). -/

namespace Sys2Proof.Machine

/-! ## The encoder core -/

/-- `e'` is `e` after a turn of the encoder core. -/
inductive EncUnit.Advances (e : EncUnit) : EncUnit → Prop where
  | hold : e.Advances e
  | decide (w : Window) (q : Queue) (bits : List Bool) : e.ph = .tokenStart → e.la.count ≠ 0 →
      (e.la.count = e.params.lsize ∨ e.eof = true) →
      e.Advances { e with win := w, la := q, tok := bits, ph := .tokenEmit }
  | emit (b : Bool) (rest : List Bool) : e.ph = .tokenEmit → e.out.valid = false → e.tok = b :: rest →
      e.Advances { e.endWrite (e.bw.addBit b) with
        tok := rest, ph := if rest.length = 0 then .tokenStart else .tokenEmit }
  | flush : e.ph = .tokenStart → e.la.count = 0 → e.eof = true → e.out.valid = false → e.Advances e.flush

/-- Pops of as many bytes as are queued never raise (R200, R206). -/
theorem popPush_done {k : Nat} {e : EncUnit} (hk : k ≤ e.la.count) :
    ∃ w q, EncUnit.popPush k e = .done () { e with win := w, la := q } := by
  induction k generalizing e with
  | zero => exact ⟨e.win, e.la, rfl⟩
  | succ k ih =>
    have hne : e.la.count ≠ 0 := by omega
    simp only [EncUnit.popPush, EncUnit.laPop, queue_pop_of_ne hne, bind_done]
    obtain ⟨w, q, hrun⟩ := ih (e := EncUnit.winPush
      { e with la := { e.la with rd := (e.la.rd + 1) % e.params.lsize, count := e.la.count - 1 } }
      (Memory.read e.la.buf e.la.rd)) (by simp only [enc_winPush_la]; omega)
    exact ⟨w, q, hrun⟩

theorem decide_done {e : EncUnit} (hne : e.la.count ≠ 0) :
    ∃ w q bits, e.decide = .done () { e with win := w, la := q, tok := bits, ph := .tokenEmit } := by
  have hlen := extraBytes_matchToken_le (e.win.hist e.params.wsize) (Memory.read e.la.buf e.la.rd)
    (({ e.la with rd := (e.la.rd + 1) % e.params.lsize, count := e.la.count - 1 } : Queue).content e.params.lsize)
  rw [content_length] at hlen
  obtain ⟨w, q, hrun⟩ := popPush_done (Nat.le_pred_iff_lt (Nat.pos_of_ne_zero hne) |>.mp hlen)
  rw [decide_eq_popPush (queue_pop_of_ne hne), hrun]
  exact ⟨w, q, _, rfl⟩

theorem enc_advances (e : EncUnit) : e.Advances e.advance := by
  unfold EncUnit.advance
  split
  · split
    · split
      · next hflush =>
        obtain ⟨hph, hcount, heof, hout⟩ := (flushEnabled_iff e).mp hflush
        exact .flush hph hcount heof hout
      · exact .hold
    · split
      · next hdecide =>
        obtain ⟨hph, hcount, hready⟩ := (decideEnabled_iff e).mp hdecide
        obtain ⟨w, q, bits, hrun⟩ := decide_done hcount
        rw [hrun]
        exact .decide w q bits hph hcount hready
      · exact .hold
  · split
    · next hemit =>
      obtain ⟨hph, hout⟩ := (emitEnabled_iff e).mp hemit
      cases htok : e.tok with
      | nil =>
        rw [EncUnit.emitBit, htok]
        exact .hold
      | cons b rest =>
        rw [emitBit_cons htok, hph]
        exact .emit b rest hph hout htok
    · exact .hold
  · exact .hold
  · exact .hold

/-- A decision on sound storage, in the abstract view (R192): O30's clause on the unit. -/
theorem advance_of_decide {e : EncUnit} (hw : e.win.Ok e.params.wsize) (hl : e.la.Ok e.params.lsize)
    (hph : e.ph = .tokenStart) (hcount : e.la.count ≠ 0) (hready : e.la.count = e.params.lsize ∨ e.eof = true) :
    ∃ lit rest w q, e.la.content e.params.lsize = lit :: rest ∧
      let t := matchToken (e.win.hist e.params.wsize) lit rest
      e.advance = { e with win := w, la := q, tok := encodeToken e.params t, ph := .tokenEmit }
      ∧ w.Ok e.params.wsize ∧ q.Ok e.params.lsize
      ∧ w.hist e.params.wsize
          = lastN e.params.wsize (e.win.hist e.params.wsize ++ (lit :: rest).take (extraBytes t + 1))
      ∧ q.content e.params.lsize = (lit :: rest).drop (extraBytes t + 1) := by
  let s : State := { State.reset with enc := e }
  obtain ⟨-, hdecide⟩ := decideCommitsToken s
  obtain ⟨lit, rest, w, q, hcont, hexec, hw', hhist, hq', hcont', -⟩ := hdecide hw hl hph hcount hready
  have hsel : s.enc.selected = some .encDecide := by
    simp only [EncUnit.selected, s, hph, if_neg hcount]
  have hadvance := Host.Outcome.next.inj ((exec_encSelected hsel).symm.trans hexec)
  refine ⟨lit, rest, w, q, hcont, congrArg State.enc hadvance, hw', hq', ?_⟩
  rw [extraBytes_succ_of_matchToken, ← hcont]
  exact ⟨hhist, hcont'⟩

/-! ## The decoder core -/

/-- `d'` is `d` after a turn of the decoder core. -/
inductive DecUnit.Advances (d : DecUnit) : DecUnit → Prop where
  | hold : d.Advances d
  | inputEnd : d.running = true → d.ph ≠ .refEmit → d.rd.v0 = false → d.eof = true →
      d.Advances { d with ph := .done }
  | tag (b : Bool) (rd : Reader) : d.ph = .tagBit → d.rd.readBit d.eof = .done (some b) rd →
      d.Advances (if b = true then { d with rd := rd, ph := .literalByte }
        else { d with rd := rd, dist := 0, k := false, ph := .refDistance })
  | literal (v : Byte) (rd : Reader) : d.ph = .literalByte → d.out.valid = false →
      d.rd.readByte d.eof = .done (some v) rd → d.Advances { d.produce v with rd := rd, ph := .tagBit }
  | distance (v : Byte) (rd : Reader) : d.ph = .refDistance → d.rd.readByte d.eof = .done (some v) rd →
      d.Advances (if d.params.indexBits = 16 ∧ d.k = false then
          { d with rd := rd, dist := (d.dist <<< 8) ||| v.zeroExtend 16, k := true }
        else { d with rd := rd, dist := (d.dist <<< 8) ||| v.zeroExtend 16, lenv := 0, i := 0, ph := .refLength })
  | length (b : Bool) (rd : Reader) : d.ph = .refLength → d.rd.readBit d.eof = .done (some b) rd →
      d.i + 1 ≠ d.params.L → d.Advances { d with rd := rd, lenv := 2 * d.lenv + b.toNat, i := d.i + 1 }
  | lastLength (b : Bool) (rd : Reader) : d.ph = .refLength → d.rd.readBit d.eof = .done (some b) rd →
      d.i + 1 = d.params.L → d.Advances
        ({ d with rd := rd, lenv := 2 * d.lenv + b.toNat, i := d.i + 1 } : DecUnit).checked
  | copy (v : Byte) : d.ph = .refEmit → d.out.valid = false → d.win.read d.params.wsize d.dist.toNat = some v →
      d.Advances { d.produce v with rem := d.rem - 1, ph := if d.rem - 1 = 0 then .tagBit else .refEmit }
  | copyFault : d.ph = .refEmit → d.out.valid = false → d.win.read d.params.wsize d.dist.toNat = none →
      d.Advances (d.raise .distRange)

section
variable {d : DecUnit}

theorem reading_bit_advances {f : Bool → DecUnit → Res DecUnit Unit} (hrun : d.running = true) (hph : d.ph ≠ .refEmit)
    (h : ∀ b rd, d.rd.readBit d.eof = .done (some b) rd → d.Advances (d.ended (f b { d with rd := rd }))) :
    d.Advances (d.ended (d.reading (d.rd.readBit d.eof) f)) := by
  rcases reading_bit_cases d f with ⟨-, -, hhold⟩ | ⟨hv, heof, hend⟩ | ⟨-, b, rd, hread, hgo⟩
  · rw [hhold]
    exact .hold
  · rw [hend]
    exact .inputEnd hrun hph hv heof
  · rw [hgo]
    exact h b rd hread

theorem reading_byte_advances {f : Byte → DecUnit → Res DecUnit Unit} (hrun : d.running = true) (hph : d.ph ≠ .refEmit)
    (h : ∀ v rd, d.rd.readByte d.eof = .done (some v) rd → d.Advances (d.ended (f v { d with rd := rd }))) :
    d.Advances (d.ended (d.reading (d.rd.readByte d.eof) f)) := by
  rcases reading_byte_cases d f with ⟨-, hhold⟩ | ⟨hv, heof, hend⟩ | ⟨-, v, hread, hgo⟩
  · rw [hhold]
    exact .hold
  · rw [hend]
    exact .inputEnd hrun hph hv heof
  · rw [hgo]
    exact h v _ hread

theorem tag_advances (hph : d.ph = .tagBit) : d.Advances (d.ended d.tag) :=
  reading_bit_advances (by simp [DecUnit.running, hph]) (by simp [hph]) fun b rd hread => by
    have hnext := DecUnit.Advances.tag b rd hph hread
    cases b <;> exact hnext

theorem literal_advances (hph : d.ph = .literalByte) (hout : d.out.valid = false) : d.Advances (d.ended d.literal) :=
  reading_byte_advances (by simp [DecUnit.running, hph]) (by simp [hph]) fun v rd hread => .literal v rd hph hout hread

theorem distance_advances (hph : d.ph = .refDistance) : d.Advances (d.ended d.distance) :=
  reading_byte_advances (by simp [DecUnit.running, hph]) (by simp [hph]) fun v rd hread => by
    have hnext := DecUnit.Advances.distance v rd hph hread
    dsimp only
    split at hnext
    · rwa [if_pos ‹_›]
    · rwa [if_neg ‹_›]

theorem length_advances (hph : d.ph = .refLength) : d.Advances (d.ended d.length) :=
  reading_bit_advances (by simp [DecUnit.running, hph]) (by simp [hph]) fun b rd hread => by
    simp only [shiftLeft_one_or_bit]
    split
    · next hi =>
      rw [ended_complete]
      exact .lastLength b rd hph hread hi
    · next hi => exact .length b rd hph hread hi

theorem copy_advances (hph : d.ph = .refEmit) (hout : d.out.valid = false) : d.Advances (d.ended d.copy) := by
  cases hread : d.win.read d.params.wsize d.dist.toNat with
  | none =>
    rw [DecUnit.copy, DecUnit.copyByte, hread]
    exact .copyFault hph hout hread
  | some v =>
    rw [copy_of_read hread, hph]
    exact .copy v hph hout hread

theorem dec_advances (d : DecUnit) : d.Advances d.advance := by
  cases hph : d.ph with
  | tagBit => exact advance_of_tagBit hph ▸ tag_advances hph
  | refDistance => exact advance_of_refDistance hph ▸ distance_advances hph
  | refLength => exact advance_of_refLength hph ▸ length_advances hph
  | literalByte =>
    cases hout : d.out.valid with
    | false => exact advance_of_literalByte hph hout ▸ literal_advances hph hout
    | true => rw [advance_of_full (.inl hph) hout]; exact .hold
  | refEmit =>
    cases hout : d.out.valid with
    | false => exact advance_of_refEmit hph hout ▸ copy_advances hph hout
    | true => rw [advance_of_full (.inr hph) hout]; exact .hold
  | done => rw [advance_of_ended (.inl hph)]; exact .hold
  | fault => rw [advance_of_ended (.inr hph)]; exact .hold

end

end Sys2Proof.Machine
end

section
/-! PROOFS. The invariants of both units hold at the start of a run, and every step keeps them (10_state R39; 43_encoder
R206; 45_host_interface R275). -/

namespace Sys2Proof.Machine

/-! ## The start (R330, R332) -/

theorem enc_reset_ok (p : Params) : (EncUnit.reset p).Ok :=
  ⟨window_reset_ok (params_wsize_pos p), queue_reset_ok (params_lsize_pos p), writer_reset_ok, by simp [EncUnit.reset],
    Nat.zero_le _, nofun, nofun, rfl⟩

theorem dec_reset_ok (p : Params) : (DecUnit.reset p).Ok :=
  ⟨window_reset_ok (params_wsize_pos p), nofun, fun _ _ => rfl, nofun, nofun, nofun, nofun, fun _ => rfl⟩

/-- Settles O52: a run starts with both units as RESET leaves them. -/
theorem invariantsHoldAtStart : Obligations.InvariantsHoldAtStart :=
  ⟨⟨enc_reset_ok _, dec_reset_ok _⟩, fun pe pd _ _ _ => ⟨enc_reset_ok pe, dec_reset_ok pd⟩⟩

/-! ## The encoder unit -/

theorem flush_ok {w : Writer} (hok : w.Ok) : w.flush.1.Ok ∧ w.flush.1.n = 0 := by
  by_cases hn : w.n = 0
  · rw [flush_of_eq hn]
    exact ⟨hok, hn⟩
  · rw [flush_of_ne hn]
    exact ⟨writer_reset_ok, rfl⟩

theorem encodeToken_ne_nil (p : Params) (t : Token) : encodeToken p t ≠ [] := by
  cases t <;> exact List.cons_ne_nil _ _

theorem encodeToken_length_le (p : Params) (t : Token) : (encodeToken p t).length ≤ tokMax p := by
  rw [encodeToken_length, tokMax]
  cases t with
  | literal b => rw [indexBits_eq]; dsimp only; have := p.hL.1; split <;> omega
  | backRef d n => exact le_refl _

theorem enc_advance_ok {e : EncUnit} (hok : e.Ok) : e.advance.Ok := by
  have hadvances := enc_advances e
  obtain ⟨hw, hl, hbw, htok, hlen, hdone, hfault, hcause⟩ := id hok
  generalize he : e.advance = e' at hadvances
  cases hadvances with
  | hold => exact hok
  | decide w q bits hph hcount hready =>
    obtain ⟨lit, rest, w', q', -, hadv, hw', hq', -⟩ := advance_of_decide hw hl hph hcount hready
    rw [← he, hadv]
    exact ⟨hw', hq', hbw, by simp [encodeToken_ne_nil], encodeToken_length_le _ _, nofun, nofun, hcause⟩
  | emit b rest hph hout hcons =>
    obtain ⟨hbw', -⟩ := addBit_bits hbw b
    refine ⟨hw, hl, hbw', ?_, ?_, ?_, ?_, hcause⟩
    · cases rest <;> simp
    · rw [hcons] at hlen
      exact (Nat.le_succ _).trans hlen
    all_goals dsimp only; split <;> nofun
  | flush hph hcount heof hout =>
    obtain ⟨hbw', hn⟩ := flush_ok hbw
    refine ⟨hw, hl, hbw', ?_, hlen, fun _ => ⟨heof, hcount, hn⟩, nofun, hcause⟩
    have hnil : e.tok = [] := by
      by_contra hne
      rw [htok.mpr hne] at hph
      cases hph
    simp [EncUnit.flush, hnil]

theorem enc_put_ok {e : EncUnit} (hok : e.Ok) (hready : e.inReady = true) (b : Byte) : (e.put b).Ok := by
  obtain ⟨hw, hl, hbw, htok, hlen, -, hfault, hcause⟩ := hok
  obtain ⟨-, hroom, hph, -⟩ := (enc_inReady_iff e).mp hready
  exact ⟨hw, queue_enq_ok hl hroom b, hbw, htok, hlen, fun h => absurd h hph, hfault, hcause⟩

/-! ## The reader (R32, R275) -/

/-- The reader's invariants: slot1 is not filled before slot0, and an empty reader that may be put to is at offset 0. -/
def Reader.Sound (eof : Bool) (r : Reader) : Prop := r.Ok ∧ (eof = false → r.v0 = false → r.off = 0)

section
variable {eof : Bool} {r r' : Reader}

theorem sound_readBit {b : Bool} (hs : r.Sound eof) (h : r.readBit eof = .done (some b) r') : r'.Sound eof := by
  rcases readBit_cases eof r with ⟨-, -, hr⟩ | ⟨-, -, hr⟩ | ⟨-, -, hr⟩ | ⟨hv, -, hr⟩ <;> cases hr.symm.trans h
  · exact ⟨nofun, fun _ _ => rfl⟩
  · exact ⟨hs.1, fun _ hempty => by simp [hv] at hempty⟩

theorem sound_readByte {v : Byte} (h : r.readByte eof = .done (some v) r') : r'.Sound eof := by
  rcases readByte_cases eof r with ⟨-, -, hr⟩ | ⟨-, -, hr⟩ | ⟨-, ho, hr⟩ | ⟨-, -, hv₁, hr⟩ | ⟨-, -, -, heof, hr⟩ <;>
    cases hr.symm.trans h
  · exact ⟨nofun, fun _ _ => ho⟩
  · exact ⟨nofun, fun _ hempty => by simp [Reader.shift, hv₁] at hempty⟩
  · exact ⟨nofun, fun hopen => by simp [heof] at hopen⟩

theorem sound_put (eof : Bool) (r : Reader) (v : Byte) : (r.put v).Sound eof :=
  ⟨fun _ => put_v0 r v, fun _ hempty => by simp [put_v0] at hempty⟩

end

/-! ## The decoder unit -/

theorem two_mul_add_bit_lt {v i : Nat} (h : v < 2 ^ i) (b : Bool) : 2 * v + b.toNat < 2 ^ (i + 1) := by
  have hb : b.toNat ≤ 1 := Bool.toNat_le b
  rw [pow_succ]
  omega

theorem window_push_count_ge {n : Nat} {w : Window} (hok : w.Ok n) (v : Byte) : w.count ≤ (w.push n v).count := by
  obtain ⟨-, -, -, hcount, -⟩ := hok
  simp only [Window.push]
  omega

theorem dec_advance_ok {d : DecUnit} (hok : d.Ok) : d.advance.Ok := by
  have hadvances := dec_advances d
  obtain ⟨hw, hrd, hoff, hfield, hcopy, hdone, hfault, hcause⟩ := id hok
  have hsound : d.rd.Sound d.eof := ⟨hrd, hoff⟩
  generalize d.advance = d' at hadvances
  cases hadvances with
  | hold => exact hok
  | inputEnd hrun hph hv heof =>
    have hnf : d.ph ≠ .fault := fun h => by simp [DecUnit.running, h] at hrun
    exact ⟨hw, hrd, hoff, nofun, nofun, fun _ => ⟨heof, hv⟩, nofun, fun _ => hcause hnf⟩
  | tag b rd hph hread =>
    obtain ⟨hrd', hoff'⟩ := sound_readBit hsound hread
    have hnone := hcause (by simp [hph])
    cases b <;> exact ⟨hw, hrd', hoff', nofun, nofun, nofun, nofun, fun _ => hnone⟩
  | literal v rd hph hout hread =>
    obtain ⟨hrd', hoff'⟩ := sound_readByte hread
    exact ⟨window_push_ok hw v, hrd', hoff', nofun, nofun, nofun, nofun, fun _ => hcause (by simp [hph])⟩
  | distance v rd hph hread =>
    obtain ⟨hrd', hoff'⟩ := sound_readByte hread
    have hnone := hcause (by simp [hph])
    split
    · exact ⟨hw, hrd', hoff', by simp [hph], by simp [hph], by simp [hph], by simp [hph], fun _ => hnone⟩
    · exact ⟨hw, hrd', hoff', fun _ => ⟨d.params.hL.1, Nat.one_pos⟩, nofun, nofun, nofun, fun _ => hnone⟩
  | length b rd hph hread hi =>
    obtain ⟨hrd', hoff'⟩ := sound_readBit hsound hread
    obtain ⟨hiL, hlenv⟩ := hfield hph
    exact ⟨hw, hrd', hoff', fun _ => ⟨Nat.lt_of_le_of_ne hiL hi, two_mul_add_bit_lt hlenv b⟩, by simp [hph],
      by simp [hph], by simp [hph], fun _ => hcause (by simp [hph])⟩
  | lastLength b rd hph hread hi =>
    obtain ⟨hrd', hoff'⟩ := sound_readBit hsound hread
    have hnone := hcause (by simp [hph])
    rcases Nat.lt_or_ge d.dist.toNat d.win.count with hdist | hdist
    · have hlenv := two_mul_add_bit_lt (hfield hph).2 b
      rw [hi] at hlenv
      rw [DecUnit.checked, complete_of_lt (by exact hdist), dec_ended_done]
      exact ⟨hw, hrd', hoff', nofun, fun _ => ⟨Nat.succ_pos _, hlenv, hdist⟩, nofun, nofun, fun _ => hnone⟩
    · rw [DecUnit.checked, complete_of_ge (by exact hdist), dec_ended_raised]
      exact ⟨hw, hrd', hoff', nofun, nofun, nofun, fun _ => rfl, fun h => absurd rfl h⟩
  | copy v hph hout hread =>
    obtain ⟨-, hrem, hdist⟩ := hcopy hph
    have hnone := hcause (by simp [hph])
    have hmore := window_push_count_ge hw v
    split
    · exact ⟨window_push_ok hw v, hrd, hoff, nofun, nofun, nofun, nofun, fun _ => hnone⟩
    · next hne =>
      exact ⟨window_push_ok hw v, hrd, hoff, nofun,
        fun _ => ⟨Nat.one_le_iff_ne_zero.mpr hne, (Nat.sub_le _ _).trans hrem, hdist.trans_le hmore⟩, nofun, nofun,
        fun _ => hnone⟩
  | copyFault hph hout hread =>
    exact ⟨hw, hrd, hoff, nofun, nofun, nofun, fun _ => rfl, fun h => absurd rfl h⟩

theorem dec_put_ok {d : DecUnit} (hok : d.Ok) (hready : d.inReady = true) (b : Byte) : (d.put b).Ok := by
  obtain ⟨hw, -, -, hfield, hcopy, -, hfault, hcause⟩ := hok
  obtain ⟨-, -, hph, -⟩ := (dec_inReady_iff d).mp hready
  obtain ⟨hrd', hoff'⟩ := sound_put d.eof d.rd b
  exact ⟨hw, hrd', hoff', hfield, hcopy, fun h => absurd h hph, hfault, hcause⟩

/-! ## Every turn -/

theorem act_inv {s : State} {a : HostAct} (hinv : s.Inv) (ha : s.allows a = true) : (s.act a).Inv := by
  obtain ⟨henc, hdec⟩ := hinv
  cases a with
  | putEnc b => exact ⟨enc_put_ok henc ha b, hdec⟩
  | putDec b => exact ⟨henc, dec_put_ok hdec ha b⟩
  | eof u =>
    cases u with
    | enc =>
      obtain ⟨hw, hl, hbw, htok, hlen, hdone, hph⟩ := henc
      exact ⟨⟨hw, hl, hbw, htok, hlen, fun h => ⟨rfl, (hdone h).2⟩, hph⟩, hdec⟩
    | dec =>
      obtain ⟨hw, hrd, -, hfield, hcopy, hdone, hph⟩ := hdec
      exact ⟨henc, hw, hrd, nofun, hfield, hcopy, fun h => ⟨rfl, (hdone h).2⟩, hph⟩
  | take u =>
    cases u with
    | enc => exact ⟨henc, hdec⟩
    | dec => exact ⟨henc, hdec⟩
  | reset u =>
    cases u with
    | enc => exact ⟨enc_reset_ok _, hdec⟩
    | dec => exact ⟨henc, dec_reset_ok _⟩

theorem agentMove_inv {s t : State} (hinv : s.Inv) (h : AgentMove s t) : t.Inv := by
  cases h with
  | hold => exact hinv
  | enc => exact ⟨enc_advance_ok hinv.1, hinv.2⟩
  | dec => exact ⟨hinv.1, dec_advance_ok hinv.2⟩
  | host _ ha => exact act_inv (s := s.pop _) hinv (by rwa [allows_pop])

theorem spendTurn_inv {s : State} (hinv : s.Inv) : s.spendTurn.Inv := by
  rwa [State.Inv, spendTurn_enc, spendTurn_dec]

/-- Settles O51: every agent's turn keeps them, and a token turn is a run of such turns. -/
theorem stepKeepsInvariants : Obligations.StepKeepsInvariants := fun _ _ =>
  step_keeps (P := State.Inv) (fun _ => spendTurn_inv) fun _ _ => agentMove_inv

end Sys2Proof.Machine
end

section
/-! PROOFS. What a step leaves of a unit in an end phase, and the bytes put out: they only grow, and they go to the host
with its own TAKEs (10_state R35; 45_host_interface R272, R273, R286; 60_exceptions R309, R310). -/

namespace Sys2Proof.Machine

/-! ## The bytes put out -/

@[simp] theorem pop_output (s : State) (rest : List HostAct) (u : UnitId) : (s.pop rest).output u = s.output u := by
  cases u <;> rfl

theorem takeByte_output {s : State} {u : UnitId} (hfull : (s.outOf u).valid = true) :
    (s.takeByte u).output u = s.output u := by
  have hheld := outReg_held_of_full hfull
  have htaken := outReg_held_of_empty (outReg_taken_valid (s.outOf u))
  cases u
  · simp only [State.output, takenOf_enc, outOf_enc, takeByte_enc_host, takeByte_enc_enc] at hheld htaken ⊢
    rw [hheld, htaken, List.append_nil]
  · simp only [State.output, takenOf_dec, outOf_dec, takeByte_dec_host, takeByte_dec_dec] at hheld htaken ⊢
    rw [hheld, htaken, List.append_nil]

/-- No action of the host changes the bytes a unit has put out, but RESET. -/
theorem act_output {s : State} {a : HostAct} {u : UnitId} (ha : s.allows a = true) (hne : a ≠ .reset u) :
    (s.act a).output u = s.output u := by
  cases a with
  | putEnc b => cases u <;> rfl
  | putDec b => cases u <;> rfl
  | eof v => cases v <;> cases u <;> rfl
  | take v =>
    cases v <;> cases u
    · exact takeByte_output (u := .enc) ha
    · rfl
    · rfl
    · exact takeByte_output (u := .dec) ha
  | reset v =>
    cases v <;> cases u
    · exact absurd rfl hne
    · rfl
    · rfl
    · exact absurd rfl hne

/-- A register that was empty holds what has been emitted to it. -/
theorem outReg_held_emit? {o : OutReg} (hempty : o.valid = false) (v : Option Byte) : (o.emit? v).held = v.toList := by
  cases v with
  | none => exact outReg_held_of_empty hempty
  | some v => rfl

/-- The unit has put out no byte or one byte more. -/
def State.Grows (s t : State) (u : UnitId) : Prop := ∃ new : Option Byte, t.output u = s.output u ++ new.toList

theorem grows_of_eq {s t : State} {u : UnitId} (h : t.output u = s.output u) : s.Grows t u :=
  ⟨none, by rw [h]; exact (List.append_nil _).symm⟩

theorem grows_prefix {s t : State} {u : UnitId} (h : s.Grows t u) : s.output u <+: t.output u := by
  obtain ⟨new, hnew⟩ := h
  rw [hnew]
  exact List.prefix_append _ _

theorem grows_length {s t : State} {u : UnitId} (h : s.Grows t u) :
    (t.output u).length ≤ (s.output u).length + 1 := by
  obtain ⟨new, hnew⟩ := h
  rw [hnew, List.length_append]
  cases new <;> simp

theorem output_of_emit? {s : State} {e : EncUnit} {v : Option Byte} (hout : s.enc.out.valid = false)
    (he : e.out = s.enc.out.emit? v) : ({ s with enc := e } : State).output .enc = s.output .enc ++ v.toList := by
  simp only [State.output, takenOf_enc, outOf_enc, he, outReg_held_emit? hout, outReg_held_of_empty hout,
    List.append_nil]

theorem enc_advance_grows (s : State) : s.Grows { s with enc := s.enc.advance } .enc := by
  have hadvances := enc_advances s.enc
  generalize s.enc.advance = e' at hadvances
  cases hadvances with
  | hold => exact grows_of_eq rfl
  | decide => exact grows_of_eq rfl
  | emit b rest hph hout => exact ⟨_, output_of_emit? hout rfl⟩
  | flush hph hcount heof hout => exact ⟨_, output_of_emit? hout rfl⟩

theorem checked_out (d : DecUnit) : d.checked.out = d.out := by
  unfold DecUnit.checked DecUnit.complete
  split <;> rfl

theorem dec_advance_grows (s : State) : s.Grows { s with dec := s.dec.advance } .dec := by
  have hadvances := dec_advances s.dec
  generalize s.dec.advance = d' at hadvances
  cases hadvances with
  | hold => exact grows_of_eq rfl
  | inputEnd => exact grows_of_eq rfl
  | tag b => cases b <;> exact grows_of_eq rfl
  | literal v rd hph hout => exact ⟨some v, by simp [State.output, outReg_held_of_empty hout]⟩
  | distance => split <;> exact grows_of_eq rfl
  | length => exact grows_of_eq rfl
  | lastLength => exact grows_of_eq (by simp only [State.output, takenOf_dec, outOf_dec, checked_out])
  | copy v hph hout => exact ⟨some v, by simp [State.output, outReg_held_of_empty hout]⟩
  | copyFault => exact grows_of_eq rfl

/-! ## The host's record (R272, R339) -/

/-- The host has taken some of its next actions, and a byte from a unit with each TAKE from it among them. -/
def State.Spends (s t : State) : Prop :=
  ∃ acts, s.host.pending = acts ++ t.host.pending
    ∧ t.host.encTaken.length = s.host.encTaken.length + acts.count (.take .enc)
    ∧ t.host.decTaken.length = s.host.decTaken.length + acts.count (.take .dec)

theorem spends_of_host_eq {s t : State} (h : t.host = s.host) : s.Spends t := by
  rw [State.Spends, h]
  exact ⟨[], rfl, rfl, rfl⟩

theorem spends_trans {s t u : State} (h₁ : s.Spends t) (h₂ : t.Spends u) : s.Spends u := by
  obtain ⟨acts₁, hp₁, henc₁, hdec₁⟩ := h₁
  obtain ⟨acts₂, hp₂, henc₂, hdec₂⟩ := h₂
  refine ⟨acts₁ ++ acts₂, by rw [hp₁, hp₂, List.append_assoc], ?_, ?_⟩
  · rw [henc₂, henc₁, List.count_append, Nat.add_assoc]
  · rw [hdec₂, hdec₁, List.count_append, Nat.add_assoc]

@[simp] theorem act_pending (s : State) (a : HostAct) : (s.act a).host.pending = s.host.pending := by
  cases a with
  | putEnc b => rfl
  | putDec b => rfl
  | eof u => cases u <;> rfl
  | take u => cases u <;> rfl
  | reset u => cases u <;> rfl

theorem act_encTaken_length (s : State) (a : HostAct) :
    (s.act a).host.encTaken.length = s.host.encTaken.length + [a].count (.take .enc) := by
  cases a with
  | putEnc b => rfl
  | putDec b => rfl
  | eof u => cases u <;> rfl
  | take u => cases u <;> simp [State.act]
  | reset u => cases u <;> rfl

theorem act_decTaken_length (s : State) (a : HostAct) :
    (s.act a).host.decTaken.length = s.host.decTaken.length + [a].count (.take .dec) := by
  cases a with
  | putEnc b => rfl
  | putDec b => rfl
  | eof u => cases u <;> rfl
  | take u => cases u <;> simp [State.act]
  | reset u => cases u <;> rfl

theorem act_spends {s : State} {a : HostAct} {rest : List HostAct} (hp : s.host.pending = a :: rest) :
    s.Spends ((s.pop rest).act a) :=
  ⟨[a], by rw [act_pending]; exact hp, act_encTaken_length _ a, act_decTaken_length _ a⟩

theorem agentMove_spends {s t : State} (h : AgentMove s t) : s.Spends t := by
  cases h with
  | hold => exact spends_of_host_eq rfl
  | enc => exact spends_of_host_eq rfl
  | dec => exact spends_of_host_eq rfl
  | host hp => exact act_spends hp

/-! ## Moves of the decoder core and the host, one after the other -/

/-- They leave the encoder unit and its output alone. -/
theorem decRun_enc {s t : State} (h : DecRun s t) : t.enc = s.enc ∧ t.output .enc = s.output .enc := by
  induction h with
  | refl => exact ⟨rfl, rfl⟩
  | tail _ hmove ih => cases hmove <;> exact ih

theorem decRun_spends {s t : State} (h : DecRun s t) : s.Spends t := by
  induction h with
  | refl => exact spends_of_host_eq rfl
  | tail _ hmove ih => exact spends_trans ih (agentMove_spends (decMove_agentMove hmove))

theorem decRun_prefix {s t : State} (h : DecRun s t) : s.output .dec <+: t.output .dec := by
  induction h with
  | refl => exact List.prefix_refl _
  | tail _ hmove ih =>
    refine ih.trans ?_
    cases hmove with
    | core => exact grows_prefix (dec_advance_grows _)
    | put hp hready => exact List.prefix_refl _
    | take hp hout => rw [State.act, takeByte_output (by exact hout), pop_output]

/-! ## A turn of an agent -/

theorem act_grows_or_reset {s : State} {a : HostAct} {rest : List HostAct} (ha : s.allows a = true) (u : UnitId) :
    s.Grows ((s.pop rest).act a) u ∨ a = .reset u := by
  by_cases hreset : a = .reset u
  · exact .inr hreset
  · exact .inl (grows_of_eq (by rw [act_output (by rwa [allows_pop]) hreset, pop_output]))

/-- RESET drops the byte the register held and takes nothing back from the host (R333). -/
theorem resetUnit_output_length (s : State) (u : UnitId) : ((s.resetUnit u).output u).length ≤ (s.output u).length := by
  cases u <;> simp [State.output, OutReg.held, EncUnit.reset, DecUnit.reset, OutReg.reset]

theorem agentMove_enc_grows {s t : State} (h : AgentMove s t) :
    s.Grows t .enc ∨ (t.enc = .reset s.enc.params ∧ (t.output .enc).length ≤ (s.output .enc).length) := by
  cases h with
  | hold => exact .inl (grows_of_eq rfl)
  | enc => exact .inl (enc_advance_grows s)
  | dec => exact .inl (grows_of_eq rfl)
  | host _ ha =>
    refine (act_grows_or_reset ha .enc).imp_right ?_
    rintro rfl
    exact ⟨rfl, resetUnit_output_length _ .enc⟩

theorem agentMove_dec_grows {s t : State} (h : AgentMove s t) :
    s.Grows t .dec ∨ (t.dec = .reset s.dec.params ∧ (t.output .dec).length ≤ (s.output .dec).length) := by
  cases h with
  | hold => exact .inl (grows_of_eq rfl)
  | enc => exact .inl (grows_of_eq rfl)
  | dec => exact .inl (dec_advance_grows s)
  | host _ ha =>
    refine (act_grows_or_reset ha .dec).imp_right ?_
    rintro rfl
    exact ⟨rfl, resetUnit_output_length _ .dec⟩

@[simp] theorem spendTurn_output (s : State) (u : UnitId) : s.spendTurn.output u = s.output u := by
  cases u <;> simp [State.output]

/-- Settles O54: an agent's turn adds at most one byte, and a token turn is a run of turns without RESET. -/
theorem emittedBytesAreNeverLost : Obligations.EmittedBytesAreNeverLost := by
  intro s t h
  rw [← spendTurn_output s, ← spendTurn_output s, ← spendTurn_enc s, ← spendTurn_dec s, ← spendTurn_host s]
  rcases step_moves_of_next h with ⟨hturn, hagent⟩ | ⟨hturn, hrun⟩
  · have henc := agentMove_enc_grows hagent
    have hdec := agentMove_dec_grows hagent
    refine ⟨henc.imp grows_prefix And.left, hdec.imp grows_prefix And.left, fun _ => ⟨?_, ?_⟩, agentMove_spends hagent⟩
    · exact henc.elim grows_length fun h => h.2.trans (Nat.le_succ _)
    · exact hdec.elim grows_length fun h => h.2.trans (Nat.le_succ _)
  · obtain ⟨-, henc⟩ := decRun_enc hrun
    exact ⟨.inl (henc ▸ List.prefix_refl _), .inl (decRun_prefix hrun), fun hne => absurd hturn hne,
      decRun_spends hrun⟩

/-! ## The end phases (R309, R310) -/

theorem enc_advance_of_ended {e : EncUnit} (hph : e.ph = .fault ∨ e.ph = .done) : e.advance = e := by
  rcases hph with hph | hph <;> simp only [EncUnit.advance, hph]

/-- The encoder unit as it was, but for `eof` and the register's valid bit, with the same bytes put out. -/
def State.EncStays (s t : State) : Prop :=
  t.enc = { s.enc with eof := t.enc.eof, out := ⟨t.enc.out.valid, s.enc.out.data⟩ } ∧ t.output .enc = s.output .enc

/-- The decoder unit likewise. -/
def State.DecStays (s t : State) : Prop :=
  t.dec = { s.dec with eof := t.dec.eof, out := ⟨t.dec.out.valid, s.dec.out.data⟩ } ∧ t.output .dec = s.output .dec

theorem encStays_of_eq {s t : State} (henc : t.enc = s.enc) (hout : t.output .enc = s.output .enc) : s.EncStays t :=
  ⟨by rw [henc], hout⟩

theorem decStays_of_eq {s t : State} (hdec : t.dec = s.dec) (hout : t.output .dec = s.output .dec) : s.DecStays t :=
  ⟨by rw [hdec], hout⟩

theorem act_encStays {s : State} {a : HostAct} (hph : s.enc.ph = .fault ∨ s.enc.ph = .done) (ha : s.allows a = true) :
    (s.act a).enc = .reset s.enc.params ∨ s.EncStays (s.act a) := by
  by_cases hreset : a = .reset .enc
  · subst hreset
    exact .inl rfl
  refine .inr ⟨?_, act_output ha hreset⟩
  cases a with
  | putEnc b =>
    obtain ⟨-, -, hdone, hfault⟩ := (enc_inReady_iff s.enc).mp ha
    exact absurd hph (by simp [hdone, hfault])
  | putDec b => rfl
  | eof u => cases u <;> rfl
  | take u => cases u <;> rfl
  | reset u =>
    cases u with
    | enc => exact absurd rfl hreset
    | dec => rfl

theorem act_decStays {s : State} {a : HostAct} (hph : s.dec.ph = .fault ∨ s.dec.ph = .done) (ha : s.allows a = true) :
    (s.act a).dec = .reset s.dec.params ∨ s.DecStays (s.act a) := by
  by_cases hreset : a = .reset .dec
  · subst hreset
    exact .inl rfl
  refine .inr ⟨?_, act_output ha hreset⟩
  cases a with
  | putDec b =>
    obtain ⟨-, -, hdone, hfault⟩ := (dec_inReady_iff s.dec).mp ha
    exact absurd hph (by simp [hdone, hfault])
  | putEnc b => rfl
  | eof u => cases u <;> rfl
  | take u => cases u <;> rfl
  | reset u =>
    cases u with
    | enc => rfl
    | dec => exact absurd rfl hreset

theorem agentMove_encStays {s t : State} (hph : s.enc.ph = .fault ∨ s.enc.ph = .done) (h : AgentMove s t) :
    t.enc = .reset s.enc.params ∨ s.EncStays t := by
  cases h with
  | hold => exact .inr (encStays_of_eq rfl rfl)
  | enc => exact .inr (by rw [enc_advance_of_ended hph]; exact encStays_of_eq rfl rfl)
  | dec => exact .inr (encStays_of_eq rfl rfl)
  | host _ ha => exact act_encStays (s := s.pop _) hph (by rwa [allows_pop])

theorem agentMove_decStays {s t : State} (hph : s.dec.ph = .fault ∨ s.dec.ph = .done) (h : AgentMove s t) :
    t.dec = .reset s.dec.params ∨ s.DecStays t := by
  cases h with
  | hold => exact .inr (decStays_of_eq rfl rfl)
  | enc => exact .inr (decStays_of_eq rfl rfl)
  | dec => exact .inr (by rw [advance_of_ended hph.symm]; exact decStays_of_eq rfl rfl)
  | host _ ha => exact act_decStays (s := s.pop _) hph (by rwa [allows_pop])

/-- A token turn holds in an end phase: it starts in `TagBit` only. -/
theorem step_token_of_ended {s t : State} (hturn : s.turn = .token) (hph : s.dec.ph = .fault ∨ s.dec.ph = .done)
    (h : step s = .next t) : t = s.spendTurn := by
  have hne : ¬ s.dec.ph = .tagBit := by rcases hph with hph | hph <;> simp [hph]
  have hfetch : s.fetch = none := by
    rw [State.fetch, hturn]
    exact if_neg hne
  cases (step_of_fetch_none hfetch).symm.trans h
  rfl

/-- Settles O53: the micro-steps and PUT are not enabled in an end phase, and of the host's other actions only RESET
touches more than `eof` and the valid bit. -/
theorem endPhasesAreLeftOnlyByReset : Obligations.EndPhasesAreLeftOnlyByReset := by
  intro s t h
  rw [← spendTurn_output s, ← spendTurn_output s, ← spendTurn_enc s, ← spendTurn_dec s]
  rcases step_moves_of_next h with ⟨-, hagent⟩ | ⟨hturn, hrun⟩
  · exact ⟨fun hph => agentMove_decStays hph hagent, fun hph => agentMove_encStays hph hagent⟩
  · refine ⟨fun hph => .inr ?_, fun _ => .inr ?_⟩
    · rw [step_token_of_ended hturn (spendTurn_dec s ▸ hph) h]
      exact ⟨rfl, rfl⟩
    · obtain ⟨henc, hout⟩ := decRun_enc hrun
      exact encStays_of_eq henc hout

end Sys2Proof.Machine
end

section
/-! PROOFS. An encoder pass under any turns: what is still to come, after what has been written, is the rest of the
reference's bits (43_encoder R207; 45_host_interface R282, R285; 70_reset_and_hazards R345). -/

namespace Sys2Proof.Machine

/-! ## The host's actions that feed a unit -/

/-- The action is for the unit `u` and is no TAKE. -/
def isInput (u : UnitId) (a : HostAct) : Bool := actUnit a == u && !actIsTake a

theorem inputActs_cons (u : UnitId) (a : HostAct) (as : List HostAct) :
    inputActs u (a :: as) = if isInput u a = true then a :: inputActs u as else inputActs u as :=
  List.filter_cons

/-- What the host is still to do of a pass on the unit `u`: put the bytes `fut` and signal EOF, or nothing where `eof` is
set (R282). -/
def Awaits (u : UnitId) (put : Byte → HostAct) (eof : Bool) (fut : List Byte) (pending : List HostAct) : Prop :=
  inputActs u pending = (if eof = true then [] else fut.map put ++ [.eof u]) ∧ (eof = true → fut = [])

/-- The host's next action does not feed the unit, or it is the EOF behind the last byte, or the next byte's PUT. -/
theorem awaits_cons {u : UnitId} {put : Byte → HostAct} {eof : Bool} {fut : List Byte} {a : HostAct}
    {rest : List HostAct} (h : Awaits u put eof fut (a :: rest)) :
    (isInput u a = false ∧ Awaits u put eof fut rest)
    ∨ (a = .eof u ∧ fut = [] ∧ Awaits u put true [] rest)
    ∨ (eof = false ∧ ∃ b fut', a = put b ∧ fut = b :: fut' ∧ Awaits u put eof fut' rest) := by
  obtain ⟨hacts, hnone⟩ := h
  rw [inputActs_cons] at hacts
  cases hin : isInput u a with
  | false =>
    rw [if_neg (by simp [hin])] at hacts
    exact .inl ⟨rfl, hacts, hnone⟩
  | true =>
    rw [if_pos hin] at hacts
    cases eof with
    | true => cases hacts
    | false =>
      cases fut with
      | nil =>
        obtain ⟨ha, hrest⟩ := List.cons.inj hacts
        exact .inr (.inl ⟨ha, rfl, hrest, fun _ => rfl⟩)
      | cons b fut =>
        obtain ⟨ha, hrest⟩ := List.cons.inj hacts
        exact .inr (.inr ⟨rfl, b, fut, ha, rfl, hrest, nofun⟩)

/-! ## The reference's tokens and bytes -/

/-- Fuel beyond the bytes left decides no further token. -/
theorem refTokens_fuel (p : Params) {fuel fuel' : Nat} {h rest : List Byte} (hfuel : rest.length ≤ fuel)
    (hfuel' : rest.length ≤ fuel') : refTokens p fuel h rest = refTokens p fuel' h rest := by
  induction fuel generalizing fuel' h rest with
  | zero =>
    obtain rfl := List.eq_nil_of_length_eq_zero (Nat.le_zero.mp hfuel)
    rw [refTokens_nil, refTokens_nil]
  | succ fuel ih =>
    cases rest with
    | nil => rw [refTokens_nil, refTokens_nil]
    | cons lit rest =>
      obtain ⟨fuel', rfl⟩ := Nat.exists_eq_add_one_of_ne_zero (Nat.ne_of_gt (Nat.zero_lt_of_lt hfuel'))
      rw [List.length_cons] at hfuel hfuel'
      rw [refTokens_cons, refTokens_cons, ih] <;>
        rw [List.drop_succ_cons, List.length_drop] <;> omega

/-- The tokens of the bytes ahead are the one decided on the bytes queued and those of the rest, where the queue holds all
the bytes that the decision may look at (R192, R207). -/
theorem refTokens_decide {p : Params} {h : List Byte} {lit : Byte} {rest fut : List Byte}
    (hlen : rest.length + 1 ≤ p.lsize) (hall : rest.length + 1 = p.lsize ∨ fut = []) :
    let t := matchToken h lit rest
    let k := extraBytes t + 1
    refTokens p (lit :: rest ++ fut).length h (lit :: rest ++ fut) =
      t :: refTokens p ((lit :: rest).drop k ++ fut).length (lastN p.wsize (h ++ (lit :: rest).take k))
        ((lit :: rest).drop k ++ fut) := by
  intro t k
  have hqueue : (rest ++ fut).take (p.lsize - 1) = rest := by
    rcases hall with hfull | rfl
    · exact List.take_left' (by omega)
    · rw [List.append_nil, List.take_of_length_le (by omega)]
  have hk : k ≤ (lit :: rest).length := Nat.succ_le_succ (extraBytes_matchToken_le h lit rest)
  have hstep := refTokens_cons p (rest ++ fut).length h lit (rest ++ fut)
  simp only [hqueue] at hstep
  rw [← List.cons_append, List.take_append_of_le_length hk, List.drop_append_of_le_length hk] at hstep
  rw [List.length_append, List.length_cons, Nat.add_right_comm, ← List.length_append, hstep]
  refine congrArg _ (refTokens_fuel p ?_ (le_refl _))
  rw [List.length_append, List.length_append, List.drop_succ_cons, List.length_drop]
  omega

theorem pack_streamBits_append (bs : List Byte) (rest : List Bool) : pack (streamBits bs ++ rest) = bs ++ pack rest := by
  induction bs with
  | nil => rfl
  | cons b bs ih => rw [streamBits_cons, List.append_assoc, pack_byteBits_append, ih, List.cons_append]

theorem pack_streamBits (bs : List Byte) : pack (streamBits bs) = bs := by
  have hpack := pack_streamBits_append bs []
  rwa [List.append_nil, show pack [] = [] from rfl, List.append_nil] at hpack

/-- The bits of `encode(W, L, I)` before the padding. -/
def refBits (p : Params) (input : List Byte) : List Bool :=
  (refTokens p input.length [] input).flatMap (encodeToken p)

theorem refEncode_eq (p : Params) (input : List Byte) : refEncode p input = packPadded (refBits p input) := rfl

theorem prefix_packPadded {out : List Byte} {bits rest : List Bool} (h : streamBits out ++ rest = bits) :
    out <+: packPadded bits := by
  rw [packPadded, ← h, List.append_assoc, pack_streamBits_append]
  exact List.prefix_append _ _

/-- The padded byte completes the stream (R143, R207). -/
theorem append_flush_eq_packPadded {out : List Byte} {w : Writer} {bits : List Bool} (hok : w.Ok)
    (h : streamBits out ++ w.pend = bits) : out ++ w.flush.2.toList = packPadded bits := by
  have hlen : bits.length % 8 = w.n.val := by
    rw [← h, List.length_append, streamBits_length, pend_length]
    omega
  rw [packPadded, hlen, ← h, List.append_assoc, ← streamBits_flush hok, ← streamBits_append, pack_streamBits]

/-! ## The pass -/

/-- The bits still to be written: the token register's, and those of the tokens to be decided on the bytes queued and
the bytes to come. -/
def EncUnit.bitsAhead (e : EncUnit) (fut : List Byte) : List Bool :=
  let ahead := e.la.content e.params.lsize ++ fut
  e.tok ++ (refTokens e.params ahead.length (e.win.hist e.params.wsize) ahead).flatMap (encodeToken e.params)

/-- The encoder unit in the middle of a pass on `input`, with the bytes `fut` still to be put. -/
structure State.EncPass (p : Params) (input : List Byte) (s : State) (fut : List Byte) : Prop where
  inv : s.Inv
  awaits : Awaits .enc .putEnc s.enc.eof fut s.host.pending
  running : s.enc.ph ≠ .done →
    streamBits (s.output .enc) ++ (s.enc.bw.pend ++ s.enc.bitsAhead fut) = refBits p input
  done : s.enc.ph = .done → s.output .enc = refEncode p input

/-- A decision moves a token from the bytes ahead to the token register. -/
theorem bitsAhead_of_decide {e : EncUnit} {fut : List Byte} (hw : e.win.Ok e.params.wsize) (hl : e.la.Ok e.params.lsize)
    (htok : e.tok = []) (hph : e.ph = .tokenStart) (hcount : e.la.count ≠ 0)
    (hready : e.la.count = e.params.lsize ∨ e.eof = true) (hfut : e.eof = true → fut = []) :
    e.advance.bitsAhead fut = e.bitsAhead fut := by
  obtain ⟨lit, rest, w, q, hcont, hadv, -, -, hhist, hcont'⟩ := advance_of_decide hw hl hph hcount hready
  have hlen : rest.length + 1 = e.la.count := by rw [← content_length e.params.lsize, hcont, List.length_cons]
  obtain ⟨-, -, -, hle⟩ := hl
  rw [hadv]
  simp only [EncUnit.bitsAhead]
  rw [hhist, hcont', htok, hcont, refTokens_decide (by omega) (hready.imp (by omega) hfut), List.flatMap_cons,
    List.nil_append]

/-- The bit given to the writer is the first one ahead (R203). -/
theorem bitsAhead_of_emit {e : EncUnit} {b : Bool} {rest : List Bool} (fut : List Byte) (r : Writer × Option Byte)
    (ph : EncPhase) (htok : e.tok = b :: rest) :
    e.bitsAhead fut = b :: ({ e.endWrite r with tok := rest, ph := ph } : EncUnit).bitsAhead fut := by
  rw [EncUnit.bitsAhead, htok]
  rfl

/-- A byte put is one of those to come (R274). -/
theorem bitsAhead_of_put {e : EncUnit} (hl : e.la.Ok e.params.lsize) (hroom : e.la.count < e.params.lsize) (b : Byte)
    (fut : List Byte) : (e.put b).bitsAhead fut = e.bitsAhead (b :: fut) := by
  have hcont : (e.put b).la.content e.params.lsize = e.la.content e.params.lsize ++ [b] := queue_enq_content hl hroom b
  rw [EncUnit.bitsAhead, enc_put_params, hcont, List.append_assoc]
  rfl

theorem bitsAhead_of_empty {e : EncUnit} (htok : e.tok = []) (hcount : e.la.count = 0) : e.bitsAhead [] = [] := by
  have hcont : e.la.content e.params.lsize = [] := List.eq_nil_of_length_eq_zero (by rw [content_length, hcount])
  rw [EncUnit.bitsAhead, htok, hcont]
  rfl

theorem encPass_start {p pd : Params} {input : List Byte} {pending : List HostAct} (sched : List Turn) (tick : Nat)
    (h : encPass input pending) : (State.start p pd pending sched tick).EncPass p input input where
  inv := invariantsHoldAtStart.2 p pd pending sched tick
  awaits := ⟨h, nofun⟩
  running := fun _ => rfl
  done := nofun

theorem tok_of_tokenStart {e : EncUnit} (hok : e.Ok) (hph : e.ph = .tokenStart) : e.tok = [] := by
  obtain ⟨-, -, -, htok, -⟩ := hok
  by_contra hne
  cases (htok.mpr hne).symm.trans hph

theorem encPass_advance {p : Params} {input : List Byte} {s : State} {fut : List Byte} (h : s.EncPass p input fut) :
    ({ s with enc := s.enc.advance } : State).EncPass p input fut := by
  obtain ⟨⟨henc, hdec⟩, hawaits, hrunning, hdone⟩ := id h
  have hinv : ({ s with enc := s.enc.advance } : State).Inv := ⟨enc_advance_ok henc, hdec⟩
  have hadvances := enc_advances s.enc
  obtain ⟨hw, hl, hbw, -⟩ := id henc
  generalize he : s.enc.advance = e' at hadvances hinv
  cases hadvances with
  | hold => exact h
  | decide w q bits hph hcount hready =>
    have hahead := bitsAhead_of_decide hw hl (tok_of_tokenStart henc hph) hph hcount hready hawaits.2
    rw [he] at hahead
    refine ⟨hinv, hawaits, fun _ => ?_, nofun⟩
    rw [hahead]
    exact hrunning (by simp [hph])
  | emit b rest hph hout htok =>
    obtain ⟨-, hbits⟩ := addBit_bits hbw b
    refine ⟨hinv, hawaits, fun _ => ?_, ?_⟩
    · have hbefore := hrunning (by simp [hph])
      rw [bitsAhead_of_emit fut (s.enc.bw.addBit b) (if rest.length = 0 then .tokenStart else .tokenEmit) htok,
        List.append_cons, ← hbits] at hbefore
      rw [output_of_emit? hout rfl, streamBits_append]
      simp only [List.append_assoc] at hbefore ⊢
      exact hbefore
    · dsimp only
      split <;> nofun
  | flush hph hcount heof hout =>
    refine ⟨hinv, hawaits, fun hne => absurd rfl hne, fun _ => ?_⟩
    have hbefore := hrunning (by simp [hph])
    rw [hawaits.2 heof, bitsAhead_of_empty (tok_of_tokenStart henc hph) hcount, List.append_nil] at hbefore
    rw [output_of_emit? hout rfl, refEncode_eq]
    exact append_flush_eq_packPadded hbw hbefore

/-- An action that does not feed the encoder unit can only take its register's byte. -/
theorem act_enc_of_not_input {s : State} {a : HostAct} (ha : isInput .enc a = false) :
    (s.act a).enc = { s.enc with out := (s.act a).enc.out } := by
  cases a with
  | putEnc b => cases ha
  | putDec b => rfl
  | eof u =>
    cases u with
    | enc => cases ha
    | dec => rfl
  | take u => cases u <;> rfl
  | reset u =>
    cases u with
    | enc => cases ha
    | dec => rfl

theorem encPass_act {p : Params} {input : List Byte} {s : State} {fut : List Byte} {a : HostAct} {rest : List HostAct}
    (h : s.EncPass p input fut) (hp : s.host.pending = a :: rest) (ha : s.allows a = true) :
    ∃ fut', ((s.pop rest).act a).EncPass p input fut' := by
  obtain ⟨hinv, hawaits, hrunning, hdone⟩ := h
  have hinv' : ((s.pop rest).act a).Inv := act_inv (s := s.pop rest) hinv (by rwa [allows_pop])
  rw [hp] at hawaits
  rcases awaits_cons hawaits with ⟨hin, hrest⟩ | ⟨rfl, rfl, hrest⟩ | ⟨heof, b, fut', rfl, rfl, hrest⟩
  · have henc := act_enc_of_not_input (s := s.pop rest) hin
    have hout : ((s.pop rest).act a).output .enc = s.output .enc := by
      rw [act_output (by rwa [allows_pop]) (by rintro rfl; cases hin), pop_output]
    refine ⟨fut, hinv', by rw [henc, act_pending]; exact hrest, ?_, ?_⟩
    · rw [hout, henc]
      exact hrunning
    · rw [hout, henc]
      exact hdone
  · exact ⟨[], hinv', hrest, hrunning, hdone⟩
  · obtain ⟨-, hroom, hnotDone, -⟩ := (enc_inReady_iff s.enc).mp ha
    obtain ⟨⟨-, hl, -⟩, -⟩ := hinv
    refine ⟨fut', hinv', hrest, fun _ => ?_, fun hph => absurd hph hnotDone⟩
    have hbefore := hrunning hnotDone
    rw [← bitsAhead_of_put hl hroom] at hbefore
    exact hbefore

/-- The pass is kept by every turn of an agent. -/
theorem encPass_agentMove {p : Params} {input : List Byte} {s t : State} (h : ∃ fut, s.EncPass p input fut)
    (hmove : AgentMove s t) : ∃ fut, t.EncPass p input fut := by
  obtain ⟨fut, hpass⟩ := h
  cases hmove with
  | hold => exact ⟨fut, hpass⟩
  | enc => exact ⟨fut, encPass_advance hpass⟩
  | dec => exact ⟨fut, ⟨hpass.inv.1, dec_advance_ok hpass.inv.2⟩, hpass.awaits, hpass.running, hpass.done⟩
  | host hp ha => exact encPass_act hpass hp ha

theorem encPass_spendTurn {p : Params} {input : List Byte} {s : State} (h : ∃ fut, s.EncPass p input fut) :
    ∃ fut, s.spendTurn.EncPass p input fut := by
  obtain ⟨fut, hinv, hawaits, hrunning, hdone⟩ := h
  rw [← spendTurn_enc s, ← spendTurn_host s] at hawaits
  rw [← spendTurn_enc s, ← spendTurn_output s] at hrunning hdone
  exact ⟨fut, spendTurn_inv hinv, hawaits, hrunning, hdone⟩

/-- Settles O56: before `Done` the bytes emitted are a prefix of the reference's bits in bytes, and the flush adds the
last one. -/
theorem encoderPassEmitsReference : Obligations.EncoderPassEmitsReference := by
  intro pe pd input pending sched tick k s hpending hrun
  obtain ⟨fut, -, -, hrunning, hdone⟩ := runSteps_keeps
    (P := fun s => ∃ fut, s.EncPass pe input fut)
    (fun _ _ => step_keeps (P := fun s => ∃ fut, s.EncPass pe input fut) (fun _ => encPass_spendTurn)
      fun _ _ => encPass_agentMove)
    ⟨input, encPass_start sched tick hpending⟩ hrun
  refine ⟨?_, hdone⟩
  by_cases hph : s.enc.ph = .done
  · rw [hdone hph]
  · exact prefix_packPadded (hrunning hph)

end Sys2Proof.Machine
end

section
/-! PROOFS. The decoder's reference cut at every read and every byte output, so that it can be taken up in the middle of
a token (44_decoder R231-R235, R241). -/

namespace Sys2Proof.Machine

/-! ## What is left of the reference, by phase -/

/-- The bytes `o`, and then what `r` says. -/
def putOut (o : List Byte) (r : List Byte × Bool) : List Byte × Bool := (o ++ r.1, r.2)

theorem putOut_append (o o' : List Byte) (r : List Byte × Bool) : putOut (o ++ o') r = putOut o (putOut o' r) := by
  simp [putOut]

/-- `n` bytes of the distance field, shifted in behind `d` (R233). -/
def indexBytes : Nat → Nat → List Bool → Option (Nat × List Bool)
  | 0, d, bits => some (d, bits)
  | n + 1, d, bits => (refByte bits).bind fun x => indexBytes n (256 * d + x.1.toNat) x.2

/-- `n` bits of the length field, shifted in behind `v` (R234). -/
def lengthBits : Nat → Nat → List Bool → Option (Nat × List Bool)
  | 0, v, bits => some (v, bits)
  | _ + 1, _, [] => none
  | n + 1, v, b :: bits => lengthBits n (2 * v + b.toNat) bits

section
variable (p : Params) (go : List Byte → List Bool → List Byte × Bool) (h : List Byte)

/-- From a literal's byte on; `go` decodes the tokens behind it. -/
def literalAhead (bits : List Bool) : List Byte × Bool :=
  (refByte bits).elim ([], false) fun x => putOut [x.1] (go (lastN p.wsize (h ++ [x.1])) x.2)

/-- From the `n` bytes on that a copy is still to output. -/
def copyAhead (d n : Nat) (bits : List Bool) : List Byte × Bool :=
  putOut (refCopy p d n h).2 (go (refCopy p d n h).1 bits)

/-- From the distance check on. -/
def checkAhead (d v : Nat) (bits : List Bool) : List Byte × Bool :=
  if h.length ≤ d then ([], true) else copyAhead p go h d (v + 1) bits

/-- From the last `n` bits of a length field on. -/
def lengthAhead (d n v : Nat) (bits : List Bool) : List Byte × Bool :=
  (lengthBits n v bits).elim ([], false) fun x => checkAhead p go h d x.1 x.2

/-- From the last `n` bytes of a distance field on. -/
def indexAhead (n d : Nat) (bits : List Bool) : List Byte × Bool :=
  (indexBytes n d bits).elim ([], false) fun x => lengthAhead p go h x.1 p.L 0 x.2

end

/-! ## R241's loop by these parts -/

theorem lengthBits_eq (n v : Nat) (bits : List Bool) :
    lengthBits n v bits =
      if bits.length < n then none else some (v * 2 ^ n + ofBits (bits.take n), bits.drop n) := by
  induction n generalizing v bits with
  | zero => simp [lengthBits, ofBits]
  | succ n ih =>
    cases bits with
    | nil => rfl
    | cons b bits =>
      simp only [lengthBits, ih, List.length_cons, Nat.add_lt_add_iff_right, List.drop_succ_cons, List.take_succ_cons]
      split
      · rfl
      · next hlen =>
        rw [ofBits_cons, List.length_take, Nat.min_eq_left (Nat.not_lt.mp hlen)]
        congr 2
        ring

theorem refField_eq_lengthBits (p : Params) (bits : List Bool) : refField p bits = lengthBits p.L 0 bits := by
  rw [lengthBits_eq, Nat.zero_mul, Nat.zero_add, refField]

theorem refDistance_eq_indexBytes (p : Params) (bits : List Bool) :
    refDistance p bits = indexBytes (if p.indexBits = 16 then 2 else 1) 0 bits := by
  unfold refDistance
  split
  · cases hhi : refByte bits with
    | none => simp [indexBytes, hhi]
    | some x => cases hlo : refByte x.2 <;> simp [indexBytes, hhi, hlo]
  · cases hhi : refByte bits <;> simp [indexBytes, hhi]

theorem refDecodeLoop_true (p : Params) (fuel : Nat) (h : List Byte) (bits : List Bool) :
    refDecodeLoop p (fuel + 1) h (true :: bits) = literalAhead p (refDecodeLoop p fuel) h bits := by
  rw [refDecodeLoop, literalAhead]
  cases refByte bits <;> rfl

theorem refDecodeLoop_false (p : Params) (fuel : Nat) (h : List Byte) (bits : List Bool) :
    refDecodeLoop p (fuel + 1) h (false :: bits) =
      indexAhead p (refDecodeLoop p fuel) h (if p.indexBits = 16 then 2 else 1) 0 bits := by
  rw [refDecodeLoop, indexAhead, ← refDistance_eq_indexBytes]
  cases refDistance p bits with
  | none => rfl
  | some x =>
    simp only [Option.bind_some, Option.elim_some, lengthAhead, ← refField_eq_lengthBits]
    cases refField p x.2 <;> rfl

/-! ## Fuel -/

theorem refByte_rest_length {bits : List Bool} {x : Byte × List Bool} (h : refByte bits = some x) :
    x.2.length ≤ bits.length := by
  rw [refByte] at h
  split at h
  · cases h
  · cases h
    exact (List.length_drop ..).trans_le (Nat.sub_le _ _)

theorem indexBytes_rest_length {n d : Nat} {bits : List Bool} {x : Nat × List Bool} (h : indexBytes n d bits = some x) :
    x.2.length ≤ bits.length := by
  induction n generalizing d bits with
  | zero =>
    cases h
    exact le_refl _
  | succ n ih =>
    obtain ⟨y, hy, hrest⟩ := Option.bind_eq_some_iff.mp h
    exact (ih hrest).trans (refByte_rest_length hy)

theorem lengthBits_rest_length {n v : Nat} {bits : List Bool} {x : Nat × List Bool} (h : lengthBits n v bits = some x) :
    x.2.length ≤ bits.length := by
  rw [lengthBits_eq] at h
  split at h
  · cases h
  · cases h
    exact (List.length_drop ..).trans_le (Nat.sub_le _ _)

/-- The parts ask for the tokens behind them only on what is left of their bits. -/
theorem literalAhead_congr (p : Params) {go go' : List Byte → List Bool → List Byte × Bool} (h : List Byte)
    {bits : List Bool} (hgo : ∀ h' rest, rest.length ≤ bits.length → go h' rest = go' h' rest) :
    literalAhead p go h bits = literalAhead p go' h bits := by
  unfold literalAhead
  cases hbyte : refByte bits with
  | none => rfl
  | some x => simp only [Option.elim_some, hgo _ _ (refByte_rest_length hbyte)]

theorem indexAhead_congr (p : Params) {go go' : List Byte → List Bool → List Byte × Bool} (h : List Byte) (n d : Nat)
    {bits : List Bool} (hgo : ∀ h' rest, rest.length ≤ bits.length → go h' rest = go' h' rest) :
    indexAhead p go h n d bits = indexAhead p go' h n d bits := by
  unfold indexAhead
  cases hindex : indexBytes n d bits with
  | none => rfl
  | some x =>
    simp only [Option.elim_some, lengthAhead]
    cases hfield : lengthBits p.L 0 x.2 with
    | none => rfl
    | some y =>
      have hrest := (lengthBits_rest_length hfield).trans (indexBytes_rest_length hindex)
      simp only [Option.elim_some, checkAhead, copyAhead, hgo _ _ hrest]

/-- Fuel beyond the bits left decodes no further token. -/
theorem refDecodeLoop_fuel (p : Params) {fuel fuel' : Nat} {h : List Byte} {bits : List Bool}
    (hfuel : bits.length ≤ fuel) (hfuel' : bits.length ≤ fuel') :
    refDecodeLoop p fuel h bits = refDecodeLoop p fuel' h bits := by
  induction fuel generalizing fuel' h bits with
  | zero =>
    obtain rfl := List.eq_nil_of_length_eq_zero (Nat.le_zero.mp hfuel)
    cases fuel' <;> rfl
  | succ fuel ih =>
    cases bits with
    | nil => cases fuel' <;> rfl
    | cons b bits =>
      obtain ⟨fuel', rfl⟩ := Nat.exists_eq_add_one_of_ne_zero (Nat.ne_of_gt (Nat.zero_lt_of_lt hfuel'))
      rw [List.length_cons] at hfuel hfuel'
      have hgo (h' : List Byte) (rest : List Bool) (hrest : rest.length ≤ bits.length) :
          refDecodeLoop p fuel h' rest = refDecodeLoop p fuel' h' rest := ih (by omega) (by omega)
      cases b with
      | true => rw [refDecodeLoop_true, refDecodeLoop_true, literalAhead_congr p h hgo]
      | false => rw [refDecodeLoop_false, refDecodeLoop_false, indexAhead_congr p h _ _ hgo]

/-- R241's loop with fuel for all the bits. -/
def refFrom (p : Params) (h : List Byte) (bits : List Bool) : List Byte × Bool := refDecodeLoop p bits.length h bits

theorem refFrom_nil (p : Params) (h : List Byte) : refFrom p h [] = ([], false) := rfl

theorem refFrom_true (p : Params) (h : List Byte) (bits : List Bool) :
    refFrom p h (true :: bits) = literalAhead p (refFrom p) h bits :=
  (refDecodeLoop_true p bits.length h bits).trans
    (literalAhead_congr p h fun _ _ hrest => refDecodeLoop_fuel p hrest (le_refl _))

theorem refFrom_false (p : Params) (h : List Byte) (bits : List Bool) :
    refFrom p h (false :: bits) = indexAhead p (refFrom p) h (if p.indexBits = 16 then 2 else 1) 0 bits :=
  (refDecodeLoop_false p bits.length h bits).trans
    (indexAhead_congr p h _ _ fun _ _ hrest => refDecodeLoop_fuel p hrest (le_refl _))

/-! ## One read, one byte -/

theorem literalAhead_of_byte {p : Params} {go : List Byte → List Bool → List Byte × Bool} {h : List Byte}
    {bits rest : List Bool} {v : Byte} (hbyte : refByte bits = some (v, rest)) :
    literalAhead p go h bits = putOut [v] (go (lastN p.wsize (h ++ [v])) rest) := by
  rw [literalAhead, hbyte, Option.elim_some]

theorem indexAhead_zero (p : Params) (go : List Byte → List Bool → List Byte × Bool) (h : List Byte) (d : Nat)
    (bits : List Bool) : indexAhead p go h 0 d bits = lengthAhead p go h d p.L 0 bits := rfl

theorem indexAhead_of_byte {p : Params} {go : List Byte → List Bool → List Byte × Bool} {h : List Byte} (n d : Nat)
    {bits rest : List Bool} {v : Byte} (hbyte : refByte bits = some (v, rest)) :
    indexAhead p go h (n + 1) d bits = indexAhead p go h n (256 * d + v.toNat) rest := by
  simp only [indexAhead, indexBytes, hbyte, Option.bind_some]

theorem lengthAhead_zero (p : Params) (go : List Byte → List Bool → List Byte × Bool) (h : List Byte) (d v : Nat)
    (bits : List Bool) : lengthAhead p go h d 0 v bits = checkAhead p go h d v bits := rfl

theorem lengthAhead_cons (p : Params) (go : List Byte → List Bool → List Byte × Bool) (h : List Byte) (d n v : Nat)
    (b : Bool) (bits : List Bool) :
    lengthAhead p go h d (n + 1) v (b :: bits) = lengthAhead p go h d n (2 * v + b.toNat) bits := rfl

theorem copyAhead_zero (p : Params) (go : List Byte → List Bool → List Byte × Bool) (h : List Byte) (d : Nat)
    (bits : List Bool) : copyAhead p go h d 0 bits = go h bits := rfl

theorem copyAhead_succ {p : Params} (go : List Byte → List Bool → List Byte × Bool) {h : List Byte} {d : Nat} (n : Nat)
    (bits : List Bool) {v : Byte} (hv : h[h.length - 1 - d]? = some v) :
    copyAhead p go h d (n + 1) bits = putOut [v] (copyAhead p go (lastN p.wsize (h ++ [v])) d n bits) := by
  simp only [copyAhead, refCopy, List.getD_eq_getElem?_getD, hv, Option.getD_some]
  exact putOut_append [v] _ _

/-- Where no bit is left, the reference ends in `Done` wherever a read comes next (R246). -/
theorem literalAhead_nil (p : Params) (go : List Byte → List Bool → List Byte × Bool) (h : List Byte) :
    literalAhead p go h [] = ([], false) := rfl

theorem indexAhead_nil (p : Params) (go : List Byte → List Bool → List Byte × Bool) (h : List Byte) (n d : Nat) :
    indexAhead p go h (n + 1) d [] = ([], false) := rfl

theorem lengthAhead_nil (p : Params) (go : List Byte → List Bool → List Byte × Bool) (h : List Byte) (d n v : Nat) :
    lengthAhead p go h d (n + 1) v [] = ([], false) := rfl

end Sys2Proof.Machine
end

section
/-! PROOFS. A decoder pass under any turns: what the reference puts out is what has been put out and what it puts out from
the unit's phase and bits on (44_decoder R241; 45_host_interface R282, R285). -/

namespace Sys2Proof.Machine

/-! ## The bits ahead of a reader (R126) -/

/-- The bits from the cursor on: those in the slots, then the bytes still to be put. -/
def Reader.ahead (r : Reader) (fut : List Byte) : List Bool := (streamBits (r.held ++ fut)).drop r.off.val

section
variable {r r' : Reader} {fut : List Byte} {eof : Bool}

/-- Slot0's bits from the offset on, then those behind it. -/
theorem ahead_of_v0 (hv : r.v0 = true) (fut : List Byte) :
    r.ahead fut = (byteBits r.slot0).drop r.off.val ++ streamBits ((if r.v1 then [r.slot1] else []) ++ fut) := by
  have ho : r.off.val ≤ (byteBits r.slot0).length := by
    rw [byteBits_length]
    exact r.off.isLt.le
  rw [Reader.ahead, held_of_v0 hv, List.cons_append, streamBits_cons, List.drop_append_of_le_length ho]

theorem held_of_empty (hok : r.Ok) (hv : r.v0 = false) : r.held = [] := by
  have hv₁ : r.v1 = false := by
    by_contra hne
    simp [hok (by simpa using hne)] at hv
  simp [Reader.held, hv, hv₁]

theorem ahead_of_empty (hok : r.Ok) (hv : r.v0 = false) : r.ahead [] = [] := by
  rw [Reader.ahead, held_of_empty hok hv]
  exact List.drop_nil

theorem shift_held (r : Reader) : r.shift.held = if r.v1 then [r.slot1] else [] := List.append_nil _

theorem ahead_readBit {b : Bool} (h : r.readBit eof = .done (some b) r') (fut : List Byte) :
    r.ahead fut = b :: r'.ahead fut := by
  rcases readBit_cases eof r with ⟨-, -, hr⟩ | ⟨-, -, hr⟩ | ⟨hv, ho, hr⟩ | ⟨hv, ho, hr⟩ <;> cases hr.symm.trans h <;>
    rw [ahead_of_v0 hv, byteBits_drop_eq_cons, List.cons_append]
  · rw [List.drop_of_length_le (by rw [byteBits_length, ho]; decide), List.nil_append, ← shift_held]
    rfl
  · have hoff : (r.off + 1).val = r.off.val + 1 := by omega
    rw [ahead_of_v0 (r := { r with off := r.off + 1 }) hv, hoff]

/-- A byte of the bits left, with zeros behind the last one. -/
theorem refByte_of_take {bits : List Bool} {v : Byte} (hne : bits ≠ [])
    (h : byteBits v = (bits ++ List.replicate 8 false).take 8) : refByte bits = some (v, bits.drop 8) := by
  rw [List.take_append, List.take_replicate, Nat.min_eq_left (Nat.sub_le _ _)] at h
  rw [refByte, if_neg hne, ← h, byte_ofBits_byteBits]

theorem refByte_ahead {v : Byte} (hfut : eof = true → fut = []) (h : r.readByte eof = .done (some v) r') :
    refByte (r.ahead fut) = some (v, r'.ahead fut) := by
  have ho : r.off.val ≤ 8 := r.off.isLt.le
  rcases readByte_cases eof r with ⟨-, -, hr⟩ | ⟨-, -, hr⟩ | ⟨hv, hzero, hr⟩ | ⟨hv, -, hv₁, hr⟩ |
      ⟨hv, -, hv₁, heof, hr⟩ <;> cases hr.symm.trans h
  · have hahead : r.shift.ahead fut = streamBits ((if r.v1 then [r.slot1] else []) ++ fut) := by
      rw [Reader.ahead, shift_held, show r.shift.off = 0 from hzero]
      rfl
    rw [ahead_of_v0 hv, hzero, hahead]
    exact refByte_byteBits_append r.slot0 _
  · have hsplit : (byteBits r.slot1).take r.off.val ++ r.shift.ahead fut = byteBits r.slot1 ++ streamBits fut := by
      have hlen : r.off.val ≤ (byteBits r.slot1).length := by rwa [byteBits_length]
      rw [Reader.ahead, shift_held, if_pos hv₁, List.singleton_append, streamBits_cons,
        show r.shift.off = r.off from rfl, List.drop_append_of_le_length hlen, ← List.append_assoc,
        List.take_append_drop]
    rw [ahead_of_v0 hv, if_pos hv₁, List.singleton_append, streamBits_cons, ← hsplit, ← List.append_assoc,
      ← byteBits_shiftLeft_or_shiftRight _ _ ho]
    exact refByte_byteBits_append _ _
  · obtain rfl := hfut heof
    have hbits : r.ahead [] = (byteBits r.slot0).drop r.off.val := by
      rw [ahead_of_v0 hv, hv₁]
      exact List.append_nil _
    have hne : r.ahead [] ≠ [] := by
      rw [hbits, byteBits_drop_eq_cons]
      exact List.cons_ne_nil _ _
    have hrest : r.shift.ahead [] = [] := by
      rw [Reader.ahead, shift_held, hv₁]
      exact List.drop_nil
    have htake : byteBits (r.slot0 <<< r.off.val) = (r.ahead [] ++ List.replicate 8 false).take 8 := by
      rw [hbits, byteBits_shiftLeft _ ho, ← take_eight_drop_byteBits_append _ ho,
        List.drop_append_of_le_length (by rwa [byteBits_length])]
    rw [refByte_of_take hne htake, hrest, hbits, List.drop_of_length_le]
    rw [List.length_drop, byteBits_length]
    exact Nat.sub_le _ _

/-- A byte put is one of those to come (R275). -/
theorem ahead_put (hok : r.Ok) (hroom : r.v1 = false) (b : Byte) (fut : List Byte) :
    (r.put b).ahead fut = r.ahead (b :: fut) := by
  cases hv : r.v0 with
  | true =>
    rw [put_of_v0 b hv, ahead_of_v0 (r := { r with slot1 := b, v1 := true }) hv, ahead_of_v0 hv, hroom]
    rfl
  | false =>
    rw [put_of_empty b hv, ahead_of_v0 (r := { r with slot0 := b, v0 := true }) rfl, Reader.ahead,
      held_of_empty hok hv, List.nil_append, streamBits_cons, List.drop_append_of_le_length, hroom]
    · rfl
    · rw [byteBits_length]
      exact r.off.isLt.le

end

/-! ## What is left of the reference -/

/-- What the reference puts out from this unit on, on the bits ahead of it (R241). -/
def DecUnit.refAhead (d : DecUnit) (bits : List Bool) : List Byte × Bool :=
  let h := d.win.hist d.params.wsize
  let go := refFrom d.params
  match d.ph with
  | .tagBit => go h bits
  | .literalByte => literalAhead d.params go h bits
  | .refDistance => indexAhead d.params go h (if d.params.indexBits = 16 ∧ d.k = false then 2 else 1) d.dist.toNat bits
  | .refLength => lengthAhead d.params go h d.dist.toNat (d.params.L - d.i) d.lenv bits
  | .refEmit => copyAhead d.params go h d.dist.toNat d.rem bits
  | .done => ([], false)
  | .fault => ([], true)

section
variable {d : DecUnit} {bits : List Bool}

theorem refAhead_tagBit (hph : d.ph = .tagBit) :
    d.refAhead bits = refFrom d.params (d.win.hist d.params.wsize) bits := by
  rw [DecUnit.refAhead, hph]

theorem refAhead_literalByte (hph : d.ph = .literalByte) :
    d.refAhead bits = literalAhead d.params (refFrom d.params) (d.win.hist d.params.wsize) bits := by
  rw [DecUnit.refAhead, hph]

theorem refAhead_refDistance (hph : d.ph = .refDistance) :
    d.refAhead bits = indexAhead d.params (refFrom d.params) (d.win.hist d.params.wsize)
      (if d.params.indexBits = 16 ∧ d.k = false then 2 else 1) d.dist.toNat bits := by
  rw [DecUnit.refAhead, hph]

theorem refAhead_refLength (hph : d.ph = .refLength) :
    d.refAhead bits = lengthAhead d.params (refFrom d.params) (d.win.hist d.params.wsize) d.dist.toNat
      (d.params.L - d.i) d.lenv bits := by
  rw [DecUnit.refAhead, hph]

theorem refAhead_refEmit (hph : d.ph = .refEmit) :
    d.refAhead bits = copyAhead d.params (refFrom d.params) (d.win.hist d.params.wsize) d.dist.toNat d.rem bits := by
  rw [DecUnit.refAhead, hph]

theorem refAhead_done (hph : d.ph = .done) : d.refAhead bits = ([], false) := by
  rw [DecUnit.refAhead, hph]

theorem refAhead_fault (hph : d.ph = .fault) : d.refAhead bits = ([], true) := by
  rw [DecUnit.refAhead, hph]

theorem checked_rd (d : DecUnit) : d.checked.rd = d.rd := by
  unfold DecUnit.checked DecUnit.complete
  split <;> rfl

/-- The distance check is the reference's (R240). -/
theorem checked_refAhead : d.checked.refAhead bits = checkAhead d.params (refFrom d.params)
    (d.win.hist d.params.wsize) d.dist.toNat d.lenv bits := by
  rw [checkAhead, hist_length, DecUnit.checked]
  split
  · next hge => rw [complete_of_ge hge, dec_ended_raised, refAhead_fault rfl]
  · next hlt => rw [complete_of_lt (Nat.not_le.mp hlt), dec_ended_done, refAhead_refEmit rfl]

end

/-! ## The pass -/

/-- The distance register holds what has been read of its field: nothing, or one byte of two (R233). -/
def DecUnit.IndexOk (d : DecUnit) : Prop :=
  d.ph = .refDistance → d.dist.toNat < 256 ∧ (d.k = false → d.dist.toNat = 0)

/-- What the run has put out, and what the reference puts out from here on. -/
def State.decTotal (s : State) (fut : List Byte) : List Byte × Bool :=
  putOut (s.output .dec) (s.dec.refAhead (s.dec.rd.ahead fut))

/-- The decoder unit in the middle of a pass on `input`, with the bytes `fut` still to be put. -/
structure State.DecPass (p : Params) (input : List Byte) (s : State) (fut : List Byte) : Prop where
  inv : s.Inv
  awaits : Awaits .dec .putDec s.dec.eof fut s.host.pending
  index : s.dec.IndexOk
  total : s.decTotal fut = refDecode p input

/-- A micro-step that outputs nothing leaves the reference what it says. -/
theorem decTotal_of_silent {s : State} {d : DecUnit} {fut : List Byte} (hout : d.out = s.dec.out)
    (h : s.dec.refAhead (s.dec.rd.ahead fut) = d.refAhead (d.rd.ahead fut)) :
    ({ s with dec := d } : State).decTotal fut = s.decTotal fut := by
  simp only [State.decTotal, State.output, takenOf_dec, outOf_dec, hout, h]

/-- A byte output is the reference's next. -/
theorem decTotal_of_produce {s : State} {d : DecUnit} {fut : List Byte} {v : Byte} (hempty : s.dec.out.valid = false)
    (hout : d.out = s.dec.out.emit v)
    (h : s.dec.refAhead (s.dec.rd.ahead fut) = putOut [v] (d.refAhead (d.rd.ahead fut))) :
    ({ s with dec := d } : State).decTotal fut = s.decTotal fut := by
  have houtput : ({ s with dec := d } : State).output .dec = s.output .dec ++ [v] := by
    simp only [State.output, takenOf_dec, outOf_dec, hout, outReg_held_of_empty hempty, List.append_nil]
    rfl
  rw [State.decTotal, houtput, State.decTotal, h, putOut_append]

/-- Where the input is at its end a read ends the reference too (R246). -/
theorem refAhead_nil_of_running {d : DecUnit} (hrun : d.running = true) (hph : d.ph ≠ .refEmit)
    (hi : d.ph = .refLength → d.i < d.params.L) : d.refAhead [] = ([], false) := by
  cases h : d.ph with
  | tagBit => rw [refAhead_tagBit h, refFrom_nil]
  | literalByte => rw [refAhead_literalByte h, literalAhead_nil]
  | refDistance =>
    rw [refAhead_refDistance h]
    split <;> rw [indexAhead_nil]
  | refLength =>
    obtain ⟨n, hn⟩ := Nat.exists_eq_add_one_of_ne_zero (Nat.sub_ne_zero_of_lt (hi h))
    rw [refAhead_refLength h, hn, lengthAhead_nil]
  | refEmit => exact absurd h hph
  | done => simp [DecUnit.running, h] at hrun
  | fault => simp [DecUnit.running, h] at hrun

/-- A byte of the distance field, in the unit and in the reference. -/
theorem index_shift {d : DecUnit} (hindex : d.IndexOk) (hph : d.ph = .refDistance) (v : Byte) :
    ((d.dist <<< 8) ||| v.zeroExtend 16).toNat = 256 * d.dist.toNat + v.toNat := by
  have hdist := (hindex hph).1
  have hv := v.isLt
  rw [toNat_shiftLeft_or_byte, Nat.mod_eq_of_lt (by omega)]

theorem decTotal_advance {s : State} {fut : List Byte} (hok : s.dec.Ok) (hindex : s.dec.IndexOk)
    (hfut : s.dec.eof = true → fut = []) :
    ({ s with dec := s.dec.advance } : State).decTotal fut = s.decTotal fut := by
  have hadvances := dec_advances s.dec
  obtain ⟨hw, hrd, -, hfield, hcopy, -⟩ := hok
  generalize s.dec.advance = d' at hadvances
  cases hadvances with
  | hold => rfl
  | inputEnd hrun hph hv heof =>
    refine decTotal_of_silent rfl ?_
    obtain rfl := hfut heof
    rw [ahead_of_empty hrd hv, refAhead_nil_of_running hrun hph fun h => (hfield h).1, refAhead_done rfl]
  | tag b rd hph hread =>
    cases b with
    | true =>
      refine decTotal_of_silent rfl ?_
      rw [refAhead_tagBit hph, ahead_readBit hread, refFrom_true, refAhead_literalByte (by rfl)]
      rfl
    | false =>
      refine decTotal_of_silent rfl ?_
      rw [refAhead_tagBit hph, ahead_readBit hread, refFrom_false]
      rw [refAhead_refDistance (by rfl)]
      simp
  | literal v rd hph hout hread =>
    refine decTotal_of_produce hout rfl ?_
    rw [refAhead_literalByte hph, literalAhead_of_byte (refByte_ahead hfut hread), ← window_push_hist hw v,
      refAhead_tagBit rfl]
    rfl
  | distance v rd hph hread =>
    have hbyte := refByte_ahead hfut hread
    have hshift := index_shift hindex hph v
    split
    · next htwo =>
      refine decTotal_of_silent rfl ?_
      rw [refAhead_refDistance hph, if_pos htwo, indexAhead_of_byte 1 _ hbyte, ← hshift,
        refAhead_refDistance (by exact hph), if_neg (by simp)]
    · next hone =>
      refine decTotal_of_silent rfl ?_
      rw [refAhead_refDistance hph, if_neg hone, indexAhead_of_byte 0 _ hbyte, ← hshift, indexAhead_zero,
        refAhead_refLength rfl]
      rfl
  | length b rd hph hread hi =>
    refine decTotal_of_silent rfl ?_
    obtain ⟨hiL, -⟩ := hfield hph
    rw [refAhead_refLength hph, ahead_readBit hread, show s.dec.params.L - s.dec.i = s.dec.params.L - (s.dec.i + 1) + 1
      by omega, lengthAhead_cons, refAhead_refLength (by exact hph)]
  | lastLength b rd hph hread hi =>
    refine decTotal_of_silent (checked_out _) ?_
    rw [refAhead_refLength hph, ahead_readBit hread, show s.dec.params.L - s.dec.i = 0 + 1 by omega, lengthAhead_cons,
      lengthAhead_zero, checked_refAhead, checked_rd]
  | copy v hph hout hread =>
    refine decTotal_of_produce hout rfl ?_
    obtain ⟨hrem, -, hdist⟩ := hcopy hph
    have hv : (s.dec.win.hist s.dec.params.wsize)[(s.dec.win.hist s.dec.params.wsize).length - 1 - s.dec.dist.toNat]?
        = some v := by rw [hist_length, ← window_read_hist hw hdist, hread]
    have hstep := copyAhead_succ (p := s.dec.params) (refFrom s.dec.params) (s.dec.rem - 1) (s.dec.rd.ahead fut) hv
    rw [Nat.sub_add_cancel hrem, ← window_push_hist hw v] at hstep
    rw [refAhead_refEmit hph, hstep]
    congr 1
    split
    · next hzero =>
      rw [hzero, copyAhead_zero, refAhead_tagBit rfl]
      rfl
    · rw [refAhead_refEmit rfl]
      rfl
  | copyFault hph hout hread =>
    obtain ⟨-, -, hdist⟩ := hcopy hph
    exact absurd (window_read_none.mp hread) (Nat.not_le.mpr hdist)

theorem indexOk_advance {d : DecUnit} (hindex : d.IndexOk) : d.advance.IndexOk := by
  have hadvances := dec_advances d
  generalize d.advance = d' at hadvances
  cases hadvances with
  | hold => exact hindex
  | inputEnd => nofun
  | tag b =>
    cases b with
    | true => nofun
    | false => exact fun _ => ⟨Nat.zero_lt_succ _, fun _ => rfl⟩
  | literal => nofun
  | distance v rd hph hread =>
    split
    · next htwo =>
      intro _
      have hv := v.isLt
      have hzero := (hindex hph).2 htwo.2
      refine ⟨?_, nofun⟩
      rw [index_shift hindex hph, hzero]
      omega
    · nofun
  | length b rd hph => simp [DecUnit.IndexOk, hph]
  | lastLength =>
    unfold DecUnit.IndexOk DecUnit.checked DecUnit.complete
    split <;> nofun
  | copy v =>
    unfold DecUnit.IndexOk
    dsimp only
    split <;> nofun
  | copyFault => nofun

theorem decPass_start {pe p : Params} {input : List Byte} {pending : List HostAct} (sched : List Turn) (tick : Nat)
    (h : decPass input pending) : (State.start pe p pending sched tick).DecPass p input input where
  inv := invariantsHoldAtStart.2 pe p pending sched tick
  awaits := ⟨h, nofun⟩
  index := nofun
  total := rfl

theorem dec_advance_eof (d : DecUnit) : d.advance.eof = d.eof := by
  have hadvances := dec_advances d
  generalize d.advance = d' at hadvances
  cases hadvances with
  | tag b => cases b <;> rfl
  | distance => split <;> rfl
  | lastLength =>
    unfold DecUnit.checked DecUnit.complete
    split <;> rfl
  | hold | inputEnd | literal | length | copy | copyFault => rfl

theorem decPass_advance {p : Params} {input : List Byte} {s : State} {fut : List Byte} (h : s.DecPass p input fut) :
    ({ s with dec := s.dec.advance } : State).DecPass p input fut := by
  obtain ⟨⟨henc, hdec⟩, hawaits, hindex, htotal⟩ := h
  refine ⟨⟨henc, dec_advance_ok hdec⟩, ?_, indexOk_advance hindex,
    (decTotal_advance hdec hindex hawaits.2).trans htotal⟩
  rwa [dec_advance_eof]

/-- An action that does not feed the decoder unit can only take its register's byte. -/
theorem act_dec_of_not_input {s : State} {a : HostAct} (ha : isInput .dec a = false) :
    (s.act a).dec = { s.dec with out := (s.act a).dec.out } := by
  cases a with
  | putEnc b => rfl
  | putDec b => cases ha
  | eof u =>
    cases u with
    | enc => rfl
    | dec => cases ha
  | take u => cases u <;> rfl
  | reset u =>
    cases u with
    | enc => rfl
    | dec => cases ha

theorem decPass_act {p : Params} {input : List Byte} {s : State} {fut : List Byte} {a : HostAct} {rest : List HostAct}
    (h : s.DecPass p input fut) (hp : s.host.pending = a :: rest) (ha : s.allows a = true) :
    ∃ fut', ((s.pop rest).act a).DecPass p input fut' := by
  obtain ⟨hinv, hawaits, hindex, htotal⟩ := h
  have hinv' : ((s.pop rest).act a).Inv := act_inv (s := s.pop rest) hinv (by rwa [allows_pop])
  rw [hp] at hawaits
  rcases awaits_cons hawaits with ⟨hin, hrest⟩ | ⟨rfl, rfl, hrest⟩ | ⟨heof, b, fut', rfl, rfl, hrest⟩
  · have hdec := act_dec_of_not_input (s := s.pop rest) hin
    have hout : ((s.pop rest).act a).output .dec = s.output .dec := by
      rw [act_output (by rwa [allows_pop]) (by rintro rfl; cases hin), pop_output]
    refine ⟨fut, hinv', by rw [hdec, act_pending]; exact hrest, by rw [hdec]; exact hindex, ?_⟩
    rw [State.decTotal, hout, hdec]
    exact htotal
  · exact ⟨[], hinv', hrest, hindex, htotal⟩
  · obtain ⟨-, hroom, -⟩ := (dec_inReady_iff s.dec).mp ha
    obtain ⟨-, -, hrd, -⟩ := hinv
    refine ⟨fut', hinv', hrest, hindex, Eq.trans ?_ htotal⟩
    rw [State.decTotal, State.decTotal, ← ahead_put hrd hroom]
    rfl

/-- The pass is kept by every turn of an agent. -/
theorem decPass_agentMove {p : Params} {input : List Byte} {s t : State} (h : ∃ fut, s.DecPass p input fut)
    (hmove : AgentMove s t) : ∃ fut, t.DecPass p input fut := by
  obtain ⟨fut, hpass⟩ := h
  cases hmove with
  | hold => exact ⟨fut, hpass⟩
  | enc => exact ⟨fut, ⟨enc_advance_ok hpass.inv.1, hpass.inv.2⟩, hpass.awaits, hpass.index, hpass.total⟩
  | dec => exact ⟨fut, decPass_advance hpass⟩
  | host hp ha => exact decPass_act hpass hp ha

theorem decPass_spendTurn {p : Params} {input : List Byte} {s : State} (h : ∃ fut, s.DecPass p input fut) :
    ∃ fut, s.spendTurn.DecPass p input fut := by
  obtain ⟨fut, hinv, hawaits, hindex, htotal⟩ := h
  rw [State.decTotal, ← spendTurn_dec s, ← spendTurn_output s] at htotal
  rw [← spendTurn_dec s, ← spendTurn_host s] at hawaits
  rw [← spendTurn_dec s] at hindex
  exact ⟨fut, spendTurn_inv hinv, hawaits, hindex, htotal⟩

/-- Settles O57: the reference's output is that of the run so far and what the reference says from there on, which in
`Done` and in `Fault` is only how it ends. -/
theorem decoderPassOutputsReference : Obligations.DecoderPassOutputsReference := by
  intro pe pd input pending sched tick k s hpending hrun
  obtain ⟨fut, -, -, -, htotal⟩ := runSteps_keeps
    (P := fun s => ∃ fut, s.DecPass pd input fut)
    (fun _ _ => step_keeps (P := fun s => ∃ fut, s.DecPass pd input fut) (fun _ => decPass_spendTurn)
      fun _ _ => decPass_agentMove)
    ⟨input, decPass_start sched tick hpending⟩ hrun
  rw [← htotal, State.decTotal]
  refine ⟨List.prefix_append _ _, fun hph => ?_, fun hph => ?_⟩
  · rw [refAhead_done hph, putOut, List.append_nil]
  · rw [refAhead_fault hph, putOut, List.append_nil]

end Sys2Proof.Machine
end

section
/-! PROOFS. Once the input has ended, every turn of the encoder core and every TAKE brings the encoder unit nearer to
`done` (43_encoder R191, R206; 70_reset_and_hazards R351). -/

namespace Sys2Proof.Machine

/-! ## A measure of the work left -/

/-- What is left to do: the bytes queued, each worth more than the longest token it can start; the token's bits, each
worth more than the byte it can complete; that byte; and the flush. -/
def EncUnit.work (e : EncUnit) : Nat :=
  e.la.count * (2 * tokMax e.params + 1) + 2 * e.tok.length + e.out.valid.toNat + if e.ph = .done then 0 else 2

theorem advance_of_flush {e : EncUnit} (hph : e.ph = .tokenStart) (hcount : e.la.count = 0) (heof : e.eof = true)
    (hout : e.out.valid = false) : e.advance = e.flush := by
  simp only [EncUnit.advance, hph, if_pos hcount, if_pos ((flushEnabled_iff e).mpr ⟨hph, hcount, heof, hout⟩)]

theorem advance_of_emit {e : EncUnit} {b : Bool} {rest : List Bool} (hph : e.ph = .tokenEmit)
    (hout : e.out.valid = false) (htok : e.tok = b :: rest) :
    e.advance = { e.endWrite (e.bw.addBit b) with
      tok := rest, ph := if rest.length = 0 then .tokenStart else .tokenEmit } := by
  simp only [EncUnit.advance, hph, if_pos ((emitEnabled_iff e).mpr ⟨hph, hout⟩), emitBit_cons htok]

theorem flush_work_lt {e : EncUnit} (hph : e.ph = .tokenStart) (hout : e.out.valid = false) :
    e.flush.work < e.work := by
  have hvalid := Bool.toNat_le (e.out.emit? e.bw.flush.2).valid
  simp only [EncUnit.work, EncUnit.flush, EncUnit.endWrite, hph, hout, if_true, if_false, Bool.toNat_false, reduceCtorEq]
  omega

theorem emit_work_lt {e : EncUnit} {b : Bool} {rest : List Bool} (hph : e.ph = .tokenEmit)
    (hout : e.out.valid = false) (htok : e.tok = b :: rest) : e.advance.work < e.work := by
  have hvalid := Bool.toNat_le (e.out.emit? (e.bw.addBit b).2).valid
  rw [advance_of_emit hph hout htok]
  simp only [EncUnit.work, EncUnit.endWrite, hph, hout, htok, List.length_cons, Bool.toNat_false, reduceCtorEq, if_false]
  split <;> simp only [reduceCtorEq, if_false] <;> omega

theorem decide_work_lt {e : EncUnit} (hok : e.Ok) (hph : e.ph = .tokenStart) (hcount : e.la.count ≠ 0)
    (heof : e.eof = true) : e.advance.work < e.work := by
  obtain ⟨hw, hl, -⟩ := id hok
  obtain ⟨lit, rest, w, q, hcont, hadv, -, -, -, hcont'⟩ := advance_of_decide hw hl hph hcount (.inr heof)
  have hlt : q.count + 1 ≤ e.la.count := by
    rw [← content_length e.params.lsize q, ← content_length e.params.lsize e.la, hcont', hcont, List.drop_succ_cons,
      List.length_drop, List.length_cons]
    omega
  have htok := encodeToken_length_le e.params (matchToken (e.win.hist e.params.wsize) lit rest)
  have hmul := Nat.mul_le_mul_right (2 * tokMax e.params + 1) hlt
  rw [Nat.add_mul, Nat.one_mul] at hmul
  rw [hadv]
  simp only [EncUnit.work, hph, tok_of_tokenStart hok hph, List.length_nil, reduceCtorEq, if_false]
  omega

/-- With room for output and the input at its end, the core is never idle before `Done`. -/
theorem advance_work_lt {e : EncUnit} (hok : e.Ok) (heof : e.eof = true) (hout : e.out.valid = false)
    (hdone : e.ph ≠ .done) : e.advance.work < e.work := by
  obtain ⟨-, -, -, htok, -, -, hfault, -⟩ := id hok
  cases hph : e.ph with
  | tokenStart =>
    by_cases hcount : e.la.count = 0
    · rw [advance_of_flush hph hcount heof hout]
      exact flush_work_lt hph hout
    · exact decide_work_lt hok hph hcount heof
  | tokenEmit =>
    obtain ⟨b, rest, hcons⟩ := List.exists_cons_of_ne_nil (htok.mp hph)
    exact emit_work_lt hph hout hcons
  | done => exact absurd hph hdone
  | fault => exact absurd hph hfault

theorem taken_work_lt {e : EncUnit} (hout : e.out.valid = true) :
    ({ e with out := e.out.taken } : EncUnit).work < e.work := by
  simp only [EncUnit.work, outReg_taken_valid, hout, Bool.toNat_false, Bool.toNat_true]
  omega

theorem enc_advance_input (e : EncUnit) : e.advance.eof = e.eof ∧ e.advance.consumedIn = e.consumedIn := by
  have hadvances := enc_advances e
  generalize e.advance = e' at hadvances
  cases hadvances <;> exact ⟨rfl, rfl⟩

/-! ## Runs of TAKEs and turns of the core -/

/-- The state with a host that takes `takes` bytes from the encoder unit, and with these turns. -/
def State.draining (s : State) (takes : Nat) (turns : List Turn) : State :=
  { s with host := { s.host with pending := List.replicate takes (.take .enc) }, sched := turns }

/-- Some TAKEs and some turns of the encoder core and the host take the encoder unit to `done` (R351). -/
def State.Drains (s : State) : Prop :=
  ∃ (takes : Nat) (turns : List Turn) (t : State), (∀ u ∈ turns, u = .encCore ∨ u = .host)
    ∧ runSteps turns.length (s.draining takes turns) = .next t
    ∧ t.enc.isDone = true ∧ t.enc.consumedIn = s.enc.consumedIn ∧ t.host.pending = [] ∧ t.dec = s.dec
    ∧ s.output .enc <+: t.output .enc

section
variable {s : State}

theorem drains_of_done (h : s.enc.isDone = true) : s.Drains :=
  ⟨0, [], s.draining 0 [], nofun, rfl, h, rfl, rfl, rfl, List.prefix_refl _⟩

/-- A step before a drain: a turn of the core or the host that leaves the rest of the TAKEs and turns. -/
theorem drains_of_step {s' : State} (takesNow : Nat) {u : Turn} (hu : u = .encCore ∨ u = .host)
    (hstep : ∀ takes turns,
      step (s.draining (takes + takesNow) (u :: turns)) = .next (s'.draining takes turns))
    (hcons : s'.enc.consumedIn = s.enc.consumedIn) (hdec : s'.dec = s.dec)
    (hout : s.output .enc <+: s'.output .enc) (h : s'.Drains) : s.Drains := by
  obtain ⟨takes, turns, t, hturns, hrun, hdone, hcons', hpending, hdec', hout'⟩ := h
  exact ⟨takes + takesNow, u :: turns, t, List.forall_mem_cons.mpr ⟨hu, hturns⟩,
    (runSteps_succ (hstep takes turns)).trans hrun, hdone, hcons'.trans hcons, hpending, hdec'.trans hdec,
    hout.trans hout'⟩

theorem drains_of_advance (h : ({ s with enc := s.enc.advance } : State).Drains) : s.Drains :=
  drains_of_step (s' := { s with enc := s.enc.advance }) 0 (.inl rfl) (fun _ _ => step_encCore rfl) (enc_advance_input s.enc).2 rfl
    (grows_prefix (enc_advance_grows s)) h

theorem drains_of_take (hfull : s.enc.out.valid = true) (h : (s.takeByte .enc).Drains) : s.Drains := by
  have hout : (s.takeByte .enc).output .enc = s.output .enc := takeByte_output hfull
  have hstep (takes : Nat) (turns : List Turn) : step (s.draining (takes + 1) (.host :: turns))
      = .next ((s.takeByte .enc).draining takes turns) :=
    step_host_of_allowed (s := s.draining (takes + 1) (.host :: turns)) (a := .take .enc) rfl rfl hfull
  exact drains_of_step 1 (.inr rfl) hstep rfl rfl (hout ▸ List.prefix_refl _) h

end

/-- A byte in the register is taken, and with an empty register the core goes on. -/
theorem drains_of_eof {s : State} (hok : s.enc.Ok) (heof : s.enc.eof = true) : s.Drains := by
  induction hwork : s.enc.work using Nat.strong_induction_on generalizing s with
  | _ n ih =>
    subst hwork
    cases hout : s.enc.out.valid with
    | true => exact drains_of_take hout (ih _ (taken_work_lt hout) hok heof rfl)
    | false =>
      by_cases hdone : s.enc.ph = .done
      · exact drains_of_done ((enc_isDone_iff s.enc).mpr ⟨hdone, hout⟩)
      · exact drains_of_advance (ih _ (advance_work_lt hok heof hout hdone) (enc_advance_ok hok)
          ((enc_advance_input s.enc).1.trans heof) rfl)

/-- Settles O60: by induction on the work left. -/
theorem encoderReachesDone : Obligations.EncoderReachesDone := fun _ hinv heof => drains_of_eof hinv.1 heof

end Sys2Proof.Machine
end
